-- ==== Sys2Proof/Word.lean ====
section
/-! DEFINITION. The word types of the unit and the two fixed-size containers of the spec: four like things
(a palette, a row, the block registers) and the sixteen pixels of a 4×4 tile (00_scope.md R6, R12). -/

namespace Sys2Proof

/-- A u8 value. -/
abbrev Byte := BitVec 8

/-- A packed RGB565 value, u16 (30_encoding.md R111). -/
abbrev Half := BitVec 16

/-- A register, 32 bits (00_scope.md R6). -/
abbrev Word := BitVec 32

/-- Four like things, numbered 0 to 3. -/
structure Quad (α : Type) where
  q0 : α
  q1 : α
  q2 : α
  q3 : α
deriving DecidableEq, Repr

/-- The sixteen things of a 4×4 tile, one `Quad` per row, row 0 first: pixel `i` is in row `i >> 2` at
column `i & 3` (00_scope.md R12). -/
structure Tile (α : Type) where
  r0 : Quad α
  r1 : Quad α
  r2 : Quad α
  r3 : Quad α
deriving DecidableEq, Repr

/-- A colour: three u8 channels (00_scope.md R12). -/
structure RGB where
  r : Byte
  g : Byte
  b : Byte
deriving DecidableEq, Repr

/-- A pixel: four u8 channels (00_scope.md R12). -/
structure Pixel where
  r : Byte
  g : Byte
  b : Byte
  a : Byte
deriving DecidableEq, Repr

/-- The colour of a pixel, without its alpha. -/
def Pixel.rgb (p : Pixel) : RGB := ⟨p.r, p.g, p.b⟩

namespace Quad

variable {α β γ ε : Type}

/-- Thing number `i`. -/
def get (q : Quad α) (i : Fin 4) : α :=
  match i with
  | ⟨0, _⟩ => q.q0
  | ⟨1, _⟩ => q.q1
  | ⟨2, _⟩ => q.q2
  | ⟨3, _⟩ => q.q3

/-- The four with thing number `i` replaced. -/
def set (q : Quad α) (i : Fin 4) (a : α) : Quad α :=
  match i with
  | ⟨0, _⟩ => { q with q0 := a }
  | ⟨1, _⟩ => { q with q1 := a }
  | ⟨2, _⟩ => { q with q2 := a }
  | ⟨3, _⟩ => { q with q3 := a }

/-- Four copies. -/
def fill (a : α) : Quad α := ⟨a, a, a, a⟩

/-- `f` of each of the four. -/
def map (f : α → β) (q : Quad α) : Quad β := ⟨f q.q0, f q.q1, f q.q2, f q.q3⟩

/-- `f` of each pair of the same number. -/
def zipWith (f : α → β → γ) (p : Quad α) (q : Quad β) : Quad γ :=
  ⟨f p.q0 q.q0, f p.q1 q.q1, f p.q2 q.q2, f p.q3 q.q3⟩

/-- The four in order. -/
def toList (q : Quad α) : List α := [q.q0, q.q1, q.q2, q.q3]

/-- The four joined by `f`, from the left. -/
def fold (f : α → α → α) (q : Quad α) : α := f (f (f q.q0 q.q1) q.q2) q.q3

/-- `f` of each of the four in order, or the first error. -/
def traverse (f : α → Except ε β) (q : Quad α) : Except ε (Quad β) :=
  match f q.q0 with
  | .error e => .error e
  | .ok b0 =>
    match f q.q1 with
    | .error e => .error e
    | .ok b1 =>
      match f q.q2 with
      | .error e => .error e
      | .ok b2 =>
        match f q.q3 with
        | .error e => .error e
        | .ok b3 => .ok ⟨b0, b1, b2, b3⟩

end Quad

namespace Tile

variable {α β γ ε : Type}

/-- The row with number `y`. -/
def row (t : Tile α) (y : Fin 4) : Quad α :=
  match y with
  | ⟨0, _⟩ => t.r0
  | ⟨1, _⟩ => t.r1
  | ⟨2, _⟩ => t.r2
  | ⟨3, _⟩ => t.r3

/-- The tile with row `y` replaced. -/
def setRow (t : Tile α) (y : Fin 4) (q : Quad α) : Tile α :=
  match y with
  | ⟨0, _⟩ => { t with r0 := q }
  | ⟨1, _⟩ => { t with r1 := q }
  | ⟨2, _⟩ => { t with r2 := q }
  | ⟨3, _⟩ => { t with r3 := q }

/-- The row of pixel `i`, `i >> 2` (00_scope.md R12). -/
def rowOf (i : Fin 16) : Fin 4 := ⟨i.val / 4, by omega⟩

/-- The column of pixel `i`, `i & 3` (00_scope.md R12). -/
def colOf (i : Fin 16) : Fin 4 := ⟨i.val % 4, by omega⟩

/-- Thing number `i` of the tile (00_scope.md R12). -/
def get (t : Tile α) (i : Fin 16) : α := (t.row (rowOf i)).get (colOf i)

/-- The tile with thing number `i` replaced. -/
def set (t : Tile α) (i : Fin 16) (a : α) : Tile α :=
  t.setRow (rowOf i) ((t.row (rowOf i)).set (colOf i) a)

/-- Sixteen copies. -/
def fill (a : α) : Tile α := ⟨.fill a, .fill a, .fill a, .fill a⟩

/-- `f` of each. -/
def map (f : α → β) (t : Tile α) : Tile β := ⟨t.r0.map f, t.r1.map f, t.r2.map f, t.r3.map f⟩

/-- `f` of each pair of the same number. -/
def zipWith (f : α → β → γ) (s : Tile α) (t : Tile β) : Tile γ :=
  ⟨s.r0.zipWith f t.r0, s.r1.zipWith f t.r1, s.r2.zipWith f t.r2, s.r3.zipWith f t.r3⟩

/-- The sixteen in raster order. -/
def toList (t : Tile α) : List α := t.r0.toList ++ t.r1.toList ++ t.r2.toList ++ t.r3.toList

/-- The sixteen joined by `f`, row by row. -/
def fold (f : α → α → α) (t : Tile α) : α := f (f (f (t.r0.fold f) (t.r1.fold f)) (t.r2.fold f)) (t.r3.fold f)

/-- The tile whose thing at column `x` and row `y` is `f x y`. -/
def tabulate (f : Nat → Nat → α) : Tile α :=
  ⟨⟨f 0 0, f 1 0, f 2 0, f 3 0⟩, ⟨f 0 1, f 1 1, f 2 1, f 3 1⟩,
   ⟨f 0 2, f 1 2, f 2 2, f 3 2⟩, ⟨f 0 3, f 1 3, f 2 3, f 3 3⟩⟩

/-- `f` of each in raster order, or the first error. -/
def traverse (f : α → Except ε β) (t : Tile α) : Except ε (Tile β) :=
  match t.r0.traverse f with
  | .error e => .error e
  | .ok q0 =>
    match t.r1.traverse f with
    | .error e => .error e
    | .ok q1 =>
      match t.r2.traverse f with
      | .error e => .error e
      | .ok q2 =>
        match t.r3.traverse f with
        | .error e => .error e
        | .ok q3 => .ok ⟨q0, q1, q2, q3⟩

/-- The sixteen pixel numbers in raster order. -/
def indices : Tile (Fin 16) := ⟨⟨0, 1, 2, 3⟩, ⟨4, 5, 6, 7⟩, ⟨8, 9, 10, 11⟩, ⟨12, 13, 14, 15⟩⟩

end Tile

end Sys2Proof
end

