-- ==== Sys2Proof/Config.lean ====
section
/-! DEFINITION. The configuration record `cfg` of 00_scope.md R7, its default, and the uninterpreted
functions that three of its fields may select (log entries 1 and 9). -/

namespace Sys2Proof

/-- `cfg.lerp13`: the form of the 1/3 blend (42_palette_match.md R211). -/
inductive LerpForm where
  | mulShift8
  | div3
deriving DecidableEq, Repr

/-- `cfg.pcaNumerics` and `cfg.refineNumerics`: the binary32 rules, or an uninterpreted function. -/
inductive Numerics where
  | ref32
  | uninterpreted
deriving DecidableEq, Repr

/-- `cfg.ditherMatch`: the loop of 42_palette_match.md R217, or an uninterpreted function. -/
inductive DitherForm where
  | ref
  | uninterpreted
deriving DecidableEq, Repr

/-- `cfg.alphaBitOrder` (30_encoding.md R115). -/
inductive BitOrder where
  | lsbFirst
  | msbFirst
deriving DecidableEq, Repr

/-- `cfg.edgePolicy` (46_frame.md R312). -/
inductive EdgePolicy where
  | clamp
  | reject
deriving DecidableEq, Repr

/-- `cfg.flatCompare` (41_estimator.md R180). -/
inductive FlatCompare where
  | rgb
  | rgba
deriving DecidableEq, Repr

/-- The configuration record of 00_scope.md R7, one field for each row of its table. -/
structure Cfg where
  lerp13         : LerpForm
  pcaNumerics    : Numerics
  refineNumerics : Numerics
  preDither      : Bool
  ditherMatch    : DitherForm
  bc1OpaqueAlpha : Byte
  bc3Color4Only  : Bool
  alphaBitOrder  : BitOrder
  edgePolicy     : EdgePolicy
  flatCompare    : FlatCompare
deriving DecidableEq, Repr

/-- The default of every field (00_scope.md R7). -/
def Cfg.default : Cfg where
  lerp13         := .mulShift8
  pcaNumerics    := .ref32
  refineNumerics := .ref32
  preDither      := false
  ditherMatch    := .ref
  bc1OpaqueAlpha := 255
  bc3Color4Only  := false
  alphaBitOrder  := .lsbFirst
  edgePolicy     := .clamp
  flatCompare    := .rgb

/-- FREE VALUE (log entry 9): the direction of 41_estimator.md R184 under `cfg.pcaNumerics = Opaque`, "an
uninterpreted function from the block to an integer vector". A component `k` stands for the integer `k - 512`,
so it lies in [-512, 512] as the rule says. It has no body: nothing can be proved of its values. -/
opaque Config.freeDirection : Tile RGB → Fin 1025 × Fin 1025 × Fin 1025

/-- FREE VALUE (log entry 9): the pair (max16', min16') of 43_refine.md R243 and R244 under
`cfg.refineNumerics = Opaque`, a function of the block and the mask. -/
opaque Config.freeRefined : Tile RGB → Word → Half × Half

/-- FREE VALUE (log entry 9): the dithered mask of 42_palette_match.md R217 under `cfg.ditherMatch = Opaque`,
a function of the block and the palette. -/
opaque Config.freeDitherMask : Tile RGB → Quad RGB → Word

end Sys2Proof
end

