-- ==== Sys2Proof/Syntax.lean ====
section
/-! DEFINITION. The commands of the unit, one constructor per row of spec/opcode_table.json (30_encoding.md
R119), and the fields of a raw command word (R118). -/

namespace Sys2Proof

/-- The field M of a command: the block mode (30_encoding.md R118). -/
inductive Mode where
  | bc1
  | bc3
deriving DecidableEq, Repr

/-- The field Q of a command: the quality (30_encoding.md R118). -/
inductive Quality where
  | fast
  | dithered
deriving DecidableEq, Repr

/-- The bit of a mode in M: 1 for BC3. -/
def Mode.bit : Mode → Bool
  | .bc1 => false
  | .bc3 => true

/-- The bit of a quality in Q: 1 for dithered. -/
def Quality.bit : Quality → Bool
  | .fast => false
  | .dithered => true

/-- The 14 commands (30_encoding.md R119). A command has a mode or a quality exactly where the M or Q column of
the opcode map says it accepts one. -/
inductive Instr where
  | init
  | enc (m : Mode) (q : Quality)
  | dec (m : Mode)
  | encimg (m : Mode) (q : Quality)
  | decimg (m : Mode)
  | getblk
  | putblk
  | estc
  | palc
  | matchc (q : Quality)
  | refc
  | enca
  | flatc
  | ordc (m : Mode)
deriving DecidableEq, Repr

/-- The four fields of a command word, before any check (30_encoding.md R118). -/
structure CmdFields where
  op  : BitVec 4
  m   : Bool
  q   : Bool
  rsv : BitVec 26
deriving DecidableEq, Repr

/-- The fields a command stands for, by the opcode map (30_encoding.md R119). -/
def Instr.fields : Instr → CmdFields
  | .init => ⟨0x1, false, false, 0⟩
  | .enc m q => ⟨0x2, m.bit, q.bit, 0⟩
  | .dec m => ⟨0x3, m.bit, false, 0⟩
  | .encimg m q => ⟨0x4, m.bit, q.bit, 0⟩
  | .decimg m => ⟨0x5, m.bit, false, 0⟩
  | .getblk => ⟨0x6, false, false, 0⟩
  | .putblk => ⟨0x7, false, false, 0⟩
  | .estc => ⟨0x8, false, false, 0⟩
  | .palc => ⟨0x9, false, false, 0⟩
  | .matchc q => ⟨0xA, false, q.bit, 0⟩
  | .refc => ⟨0xB, false, false, 0⟩
  | .enca => ⟨0xC, false, false, 0⟩
  | .flatc => ⟨0xD, false, false, 0⟩
  | .ordc m => ⟨0xE, m.bit, false, 0⟩

end Sys2Proof
end

