-- ==== Sys2Proof/WellFormed.lean ====
section
/-! DEFINITION. Which command words are legal: the four checks of 30_encoding.md R120 on the fields of a word,
and the well-formedness of a command, which is that its own fields pass them. -/

namespace Sys2Proof

/-- Opcodes 0x0 and 0xF are reserved (30_encoding.md R120). -/
def CmdFields.opDefined (f : CmdFields) : Bool := f.op != 0x0 && f.op != 0xF

/-- RSV must be 0 (30_encoding.md R120). -/
def CmdFields.rsvZero (f : CmdFields) : Bool := f.rsv == 0

/-- M may be 1 only where the M column of the opcode map says "yes" (30_encoding.md R119). -/
def CmdFields.mAccepted (f : CmdFields) : Bool := !f.m || [0x2, 0x3, 0x4, 0x5, 0xE].contains f.op

/-- Q may be 1 only where the Q column of the opcode map says "yes" (30_encoding.md R119). -/
def CmdFields.qAccepted (f : CmdFields) : Bool := !f.q || [0x2, 0x4, 0xA].contains f.op

/-- A word with these fields runs a command: none of the reserved encodings of 30_encoding.md R120. -/
def CmdFields.wf (f : CmdFields) : Bool := f.opDefined && f.rsvZero && f.mAccepted && f.qAccepted

/-- A command is well-formed when its fields are legal (30_encoding.md R121). -/
def Instr.wf (i : Instr) : Bool := i.fields.wf

end Sys2Proof
end

