-- ==== Sys2Proof/Decode.lean ====
section
/-! DEFINITION. Decoding a command word, total on every 32-bit word and rejecting the reserved ones by name
(30_encoding.md R118 to R121), and the encoder. -/

namespace Sys2Proof

/-- Why a command word is rejected (30_encoding.md R120). -/
inductive DecodeError where
  /-- OP is 0x0 or 0xF. -/
  | reservedOpcode
  /-- RSV is not 0, or M or Q is 1 where the opcode does not accept it. -/
  | reservedField
deriving DecidableEq, Repr

/-- The fields of a command word (30_encoding.md R118). -/
def wordFields (w : Word) : CmdFields :=
  { op := w.extractLsb' 0 4, m := w.getLsbD 4, q := w.getLsbD 5, rsv := w.extractLsb' 6 26 }

/-- The mode a value of M names (30_encoding.md R118). -/
def modeOfBit (b : Bool) : Mode := if b then .bc3 else .bc1

/-- The quality a value of Q names (30_encoding.md R118). -/
def qualityOfBit (b : Bool) : Quality := if b then .dithered else .fast

/-- The command with these OP, M and Q, by the rows of the opcode map (30_encoding.md R119); none where the
row does not accept the M or Q given, or there is no row. -/
def rowOfMap (op : Nat) (m q : Bool) : Option Instr :=
  match op, m, q with
  | 0x1, false, false => some .init
  | 0x2, m, q => some (.enc (modeOfBit m) (qualityOfBit q))
  | 0x3, m, false => some (.dec (modeOfBit m))
  | 0x4, m, q => some (.encimg (modeOfBit m) (qualityOfBit q))
  | 0x5, m, false => some (.decimg (modeOfBit m))
  | 0x6, false, false => some .getblk
  | 0x7, false, false => some .putblk
  | 0x8, false, false => some .estc
  | 0x9, false, false => some .palc
  | 0xA, false, q => some (.matchc (qualityOfBit q))
  | 0xB, false, false => some .refc
  | 0xC, false, false => some .enca
  | 0xD, false, false => some .flatc
  | 0xE, m, false => some (.ordc (modeOfBit m))
  | _, _, _ => none

/-- `check_word` and the opcode map: steps 1 and 2 of 60_exceptions.md R343, in that order, then the row of
30_encoding.md R119. -/
def decode (w : Word) : Except DecodeError Instr :=
  let f := wordFields w
  if f.op.toNat = 0x0 ∨ f.op.toNat = 0xF then .error .reservedOpcode
  else if f.rsv.toNat ≠ 0 then .error .reservedField
  else
    match rowOfMap f.op.toNat f.m f.q with
    | some i => .ok i
    | none => .error .reservedField

/-- `word = OP | M<<4 | Q<<5` (30_encoding.md R123). -/
def commandWord (op : BitVec 4) (m q : Bool) : Word :=
  (0 : BitVec 26) ++ BitVec.ofBool q ++ BitVec.ofBool m ++ op

/-- The command word of a command (30_encoding.md R118, R119, R121). -/
def encode : Instr → Word
  | .init => commandWord 0x1 false false
  | .enc m q => commandWord 0x2 m.bit q.bit
  | .dec m => commandWord 0x3 m.bit false
  | .encimg m q => commandWord 0x4 m.bit q.bit
  | .decimg m => commandWord 0x5 m.bit false
  | .getblk => commandWord 0x6 false false
  | .putblk => commandWord 0x7 false false
  | .estc => commandWord 0x8 false false
  | .palc => commandWord 0x9 false false
  | .matchc q => commandWord 0xA false q.bit
  | .refc => commandWord 0xB false false
  | .enca => commandWord 0xC false false
  | .flatc => commandWord 0xD false false
  | .ordc m => commandWord 0xE m.bit false

/-- The command the decoder reads from a word of `nbits` bits numbered as spec/opcode_table.json numbers them,
every bit at or above `nbits` being 0. -/
def decodeTableWord (nbits w : Nat) : Option Instr :=
  match decode (BitVec.ofNat 32 (w % 2 ^ nbits)) with
  | .ok i => some i
  | .error _ => none

end Sys2Proof
end

