-- ==== Sys2Proof/Machine/State.lean ====
section
/-! DEFINITION. The state of one unit as plain data (10_state.md R30), the reasons a step can stop, the
architectural errors, the host's accesses, and the state after power-on reset (R52). -/

namespace Sys2Proof.Machine

open Sys2Proof

/-- The two byte buffers (20_memory.md R80). -/
inductive Buf where
  | pb
  | cb
deriving DecidableEq, Repr

/-- The bytes of a buffer that have been written, as (offset, byte) pairs with strictly rising offsets. An
offset that is not listed holds no value: a buffer byte "is `none` until written" (20_memory.md R81). -/
abbrev Memory := List Host.Cell

/-- A data register: its 32 bits, and whether a host write or a command has given it a value since reset
(10_state.md R53; log entry 3). -/
structure DataReg where
  value     : Word
  specified : Bool
deriving DecidableEq, Repr

/-- A data register that has been written. -/
def DataReg.holding (w : Word) : DataReg := ⟨w, true⟩

/-- A data register after reset: unspecified (10_state.md R52), its bits at the value the model names, 0
(DESIGN CHOICE, unsafe, log entry 3). -/
def DataReg.afterReset : DataReg := ⟨0, false⟩

/-- The fields of `STATUS` that are stored (10_state.md R35). `LUT_READY` is the hidden bit of the state (R38),
and the reserved bits are not stored: they always read 0 (R40). -/
structure Status where
  err        : BitVec 2
  detail     : BitVec 4
  refChanged : Bool
  refSkipped : Bool
  flat       : Bool
  swapped    : Bool
  errSeen    : Bool
deriving DecidableEq, Repr

/-- `STATUS` after reset: "every `STATUS` field is 0" (10_state.md R52). -/
def Status.afterReset : Status := ⟨0, 0, false, false, false, false, false⟩

/-- The architectural errors, one for each row of the table of detail codes (60_exceptions.md R342). -/
inductive CmdError where
  | reservedOpcode
  | reservedField
  | nullBuffer
  | badDimension
  | sizeOverflow
  | pbUndersize
  | cbUndersize
  | blockOutOfRange
  | cbShort
deriving DecidableEq, Repr

/-- The registers of the register map (10_state.md R32). -/
inductive Reg where
  | cmd
  | status
  | imgW
  | imgH
  | bX
  | bY
  | bufcfg
  | pbLen
  | cbLen
  | ep
  | mask
  | pix (i : Fin 16)
  | pal (k : Fin 4)
  | blk (j : Fin 4)
deriving DecidableEq, Repr

/-- What the outside world can do to a unit between commands (10_state.md R33, 20_memory.md R81,
70_reset_and_hazards.md R370). Each entry is one event of the total order of 20_memory.md R89. -/
inductive HostAccess where
  /-- A 32-bit register write, `WR` (10_state.md R33). -/
  | write (offset : Nat) (value : Word)
  /-- A 32-bit register read, `RD` (10_state.md R33). -/
  | read (offset : Nat)
  /-- A byte or halfword register access (10_state.md R33). -/
  | narrow (offset : Nat)
  /-- A direct write of buffer bytes, `WRB` (20_memory.md R81). -/
  | writeBuf (buf : Buf) (offset : Nat) (bytes : List Byte)
  /-- A direct read of buffer bytes, `RDB` (20_memory.md R81). -/
  | readBuf (buf : Buf) (offset count : Nat)
  /-- The platform reset input (70_reset_and_hazards.md R370). -/
  | platformReset
  /-- Power-on reset (70_reset_and_hazards.md R370, 20_memory.md R81). -/
  | powerOn
deriving DecidableEq, Repr

/-- What the unit returned to the most recent host read (the model's own field, log entry 8). -/
inductive BusData where
  | nothing
  | word (w : Word)
  | bytes (bs : List Byte)
deriving DecidableEq, Repr

/-- Why the machine stops with a fault. -/
inductive Fault where
  /-- `UNINIT`: a command or a host read reads the buffer byte at `addr`, which was never written. Raised by
  every read of a buffer (60_exceptions.md R360, 20_memory.md R81). Safe: the machine stops where a real unit
  returns some value. -/
  | uninit (buf : Buf) (addr : Nat)
  /-- The host accesses a buffer offset at or beyond 2^32, which does not exist (20_memory.md R80). Raised by
  `writeBuf` and `readBuf`. Safe (log entry 5). -/
  | noSuchByte (buf : Buf) (addr : Nat)
deriving DecidableEq, Repr

/-- Why the machine refuses an access. -/
inductive Refusal where
  /-- An instruction that has no meaning in this model. Raised by `exec` alone. Safe. -/
  | notModelled (mnemonic : String)
  /-- `REFUSED`: a register access at an offset that is no multiple of 4. Raised by host reads and writes
  (10_state.md R33, 60_exceptions.md R361). Safe. -/
  | misaligned (offset : Nat)
  /-- `REFUSED`: a byte or halfword register access. Raised by `narrow` (10_state.md R33, 60_exceptions.md
  R361). Safe. -/
  | narrow (offset : Nat)
  /-- A register access outside the unit's window of 0x100 bytes (10_state.md R32). Raised by host reads and
  writes. Safe (log entry 6). -/
  | outsideWindow (offset : Nat)
deriving DecidableEq, Repr

/-- The state of one unit (10_state.md R30), with the configuration it was built with, the accesses the host
has still to make and what the host last read. -/
structure State where
  /-- The configuration record, which no step changes (00_scope.md R7, log entry 1). -/
  cfg      : Cfg
  cmd      : Word
  status   : Status
  lutReady : Bool
  imgW     : Word
  imgH     : Word
  bX       : Word
  bY       : Word
  bufcfg   : Word
  pbLen    : Word
  cbLen    : Word
  ep       : DataReg
  mask     : DataReg
  pix      : Tile DataReg
  pal      : Quad DataReg
  blk      : Quad DataReg
  pb       : Memory
  cb       : Memory
  /-- The accesses the host has still to make, oldest first (the model's own field, log entry 2). -/
  host     : List HostAccess
  /-- The answer to the most recent host read (the model's own field, log entry 8). -/
  rdata    : BusData
deriving DecidableEq, Repr

/-- The unit right after power-on reset, before the host does anything (10_state.md R52): control and
configuration registers 0, `LUT_READY` 0, data registers unspecified, no buffer byte written, the default
configuration. -/
def State.reset : State where
  cfg      := .default
  cmd      := 0
  status   := .afterReset
  lutReady := false
  imgW     := 0
  imgH     := 0
  bX       := 0
  bY       := 0
  bufcfg   := 0
  pbLen    := 0
  cbLen    := 0
  ep       := .afterReset
  mask     := .afterReset
  pix      := .fill .afterReset
  pal      := .fill .afterReset
  blk      := .fill .afterReset
  pb       := []
  cb       := []
  host     := []
  rdata    := .nothing

end Sys2Proof.Machine
end

