-- ==== Sys2Proof/Machine/Flags.lean ====
section
/-! DEFINITION. The `STATUS` register: the word the host reads (10_state.md R35), the codes of the architectural
errors (60_exceptions.md R342), and every way a command changes a field of it (R36, R37, R39, R341). -/

namespace Sys2Proof.Machine

open Sys2Proof

/-- The word the host reads from `STATUS` (10_state.md R35, R38, R40): the reserved bits [31:16], [14:13] and
[3:2] read 0, and bit 8 is the hidden bit `LUT_READY`. -/
def statusWord (st : Status) (lutReady : Bool) : Word :=
  (0 : BitVec 16) ++ BitVec.ofBool st.errSeen ++ (0 : BitVec 2) ++ BitVec.ofBool st.swapped ++
    BitVec.ofBool st.flat ++ BitVec.ofBool st.refSkipped ++ BitVec.ofBool st.refChanged ++
    BitVec.ofBool lutReady ++ st.detail ++ (0 : BitVec 2) ++ st.err

/-- `STATUS.ERR` of an error: 1 for InvalidArgument, 2 for InsufficientData (60_exceptions.md R340, R342). -/
def CmdError.kind : CmdError → BitVec 2
  | .reservedOpcode => 1
  | .reservedField => 1
  | .nullBuffer => 1
  | .badDimension => 1
  | .sizeOverflow => 1
  | .pbUndersize => 1
  | .cbUndersize => 1
  | .blockOutOfRange => 1
  | .cbShort => 2

/-- `STATUS.DETAIL` of an error (60_exceptions.md R342). -/
def CmdError.detail : CmdError → BitVec 4
  | .reservedOpcode => 1
  | .reservedField => 2
  | .nullBuffer => 3
  | .badDimension => 4
  | .sizeOverflow => 5
  | .pbUndersize => 6
  | .cbUndersize => 7
  | .blockOutOfRange => 8
  | .cbShort => 1

/-- The flag part of a failing command: ERR, DETAIL and the sticky ERR_SEEN (60_exceptions.md R341). -/
def Status.failed (st : Status) (e : CmdError) : Status :=
  { st with err := e.kind, detail := e.detail, errSeen := true }

/-- The flag part of a command that completes without error (10_state.md R36). -/
def Status.succeeded (st : Status) : Status := { st with err := 0, detail := 0 }

/-- `STATUS.FLAT <- b` (41_estimator.md R190). -/
def Status.withFlat (st : Status) (b : Bool) : Status := { st with flat := b }

/-- `STATUS.REF_CHANGED <- c; STATUS.REF_SKIPPED <- k` (43_refine.md R246). -/
def Status.withRefine (st : Status) (c k : Bool) : Status := { st with refChanged := c, refSkipped := k }

/-- `STATUS.SWAPPED <- b` (45_block_codec.md R288). -/
def Status.withSwapped (st : Status) (b : Bool) : Status := { st with swapped := b }

end Sys2Proof.Machine
end

