-- ==== Sys2Proof/Machine/Operands.lean ====
section
/-! DEFINITION. The bit-level data formats (30_encoding.md R110 to R116): the pixel word, the RGB565 endpoint and
the endpoint pair, the colour index mask, the two kinds of sub-block, and the alpha index field in both orders. -/

namespace Sys2Proof.Machine

open Sys2Proof

/-- A pixel from its word: R in [7:0], G in [15:8], B in [23:16], A in [31:24] (30_encoding.md R116). -/
def unpackPixel (w : Word) : Pixel :=
  ⟨w.extractLsb' 0 8, w.extractLsb' 8 8, w.extractLsb' 16 8, w.extractLsb' 24 8⟩

/-- The word of a pixel, `{a, b, g, r}` (30_encoding.md R116). -/
def packPixel (p : Pixel) : Word := p.a ++ p.b ++ p.g ++ p.r

/-- The word of a palette entry: the colour with alpha byte 0 (42_palette_match.md R223). -/
def packColour (c : RGB) : Word := packPixel ⟨c.r, c.g, c.b, 0⟩

/-- The four bytes of a word, little-endian (10_state.md R49, 20_memory.md R83). -/
def wordBytes (w : Word) : Quad Byte :=
  ⟨w.extractLsb' 0 8, w.extractLsb' 8 8, w.extractLsb' 16 8, w.extractLsb' 24 8⟩

/-- The word of four bytes, little-endian (10_state.md R49, 20_memory.md R83). -/
def bytesWord (q : Quad Byte) : Word := q.q3 ++ q.q2 ++ q.q1 ++ q.q0

/-- The four `PB` bytes of a pixel: R, G, B, A (20_memory.md R82). -/
def pixelBytes (p : Pixel) : Quad Byte := ⟨p.r, p.g, p.b, p.a⟩

/-- The pixel of four `PB` bytes (20_memory.md R83). -/
def bytesPixel (q : Quad Byte) : Pixel := ⟨q.q0, q.q1, q.q2, q.q3⟩

/-- An RGB565 value from its fields: R in [15:11], G in [10:5], B in [4:0] (30_encoding.md R111). -/
def rgb565 (r5 : BitVec 5) (g6 : BitVec 6) (b5 : BitVec 5) : Half := r5 ++ g6 ++ b5

/-- The field `v[15:11]` (30_encoding.md R111). -/
def red5 (v : Half) : BitVec 5 := v.extractLsb' 11 5

/-- The field `v[10:5]` (30_encoding.md R111). -/
def green6 (v : Half) : BitVec 6 := v.extractLsb' 5 6

/-- The field `v[4:0]` (30_encoding.md R111). -/
def blue5 (v : Half) : BitVec 5 := v.extractLsb' 0 5

/-- Field `EP0` of an endpoint pair (10_state.md R45). -/
def ep0 (w : Word) : Half := w.extractLsb' 0 16

/-- Field `EP1` of an endpoint pair (10_state.md R45). -/
def ep1 (w : Word) : Half := w.extractLsb' 16 16

/-- The word `{e1, e0}` of an endpoint pair (10_state.md R45). -/
def epWord (e0 e1 : Half) : Word := e1 ++ e0

/-- Pixel `i`'s index, `mask[2i+1:2i]` (30_encoding.md R113). -/
def maskIndex (mask : Word) (i : Fin 16) : BitVec 2 := mask.extractLsb' (2 * i.val) 2

/-- The sixteen indices of a mask (30_encoding.md R113). -/
def unpackMask (mask : Word) : Tile (BitVec 2) := Tile.indices.map (maskIndex mask)

/-- One row of a mask: four indices in a byte, the lowest pixel in bits 1:0 (30_encoding.md R113). -/
def packMaskRow (q : Quad (BitVec 2)) : Byte := q.q3 ++ q.q2 ++ q.q1 ++ q.q0

/-- The mask of sixteen indices: one row in each byte, row 0 lowest (30_encoding.md R113). -/
def packMask (t : Tile (BitVec 2)) : Word :=
  packMaskRow t.r3 ++ packMaskRow t.r2 ++ packMaskRow t.r1 ++ packMaskRow t.r0

/-- Eight bytes of a block, an alpha or a colour sub-block: bytes 0 to 3 and bytes 4 to 7 (30_encoding.md R112,
R115). -/
structure SubBlock where
  lo : Quad Byte
  hi : Quad Byte
deriving DecidableEq, Repr

/-- The eight bytes in address order. -/
def SubBlock.toList (sb : SubBlock) : List Byte := sb.lo.toList ++ sb.hi.toList

/-- A compressed block: 8 bytes in BC1, 16 bytes in BC3 with the alpha sub-block first (30_encoding.md R114,
R122). -/
inductive Block where
  | bc1 (colour : SubBlock)
  | bc3 (alpha colour : SubBlock)
deriving DecidableEq, Repr

/-- The bytes of a block in address order (30_encoding.md R112, R114). -/
def Block.toList : Block → List Byte
  | .bc1 c => c.toList
  | .bc3 a c => a.toList ++ c.toList

/-- The colour sub-block `pack_color(c0, c1, mask)` (45_block_codec.md R281, 30_encoding.md R112). -/
def packColourBlock (c0 c1 : Half) (mask : Word) : SubBlock :=
  ⟨⟨c0.extractLsb' 0 8, c0.extractLsb' 8 8, c1.extractLsb' 0 8, c1.extractLsb' 8 8⟩, wordBytes mask⟩

/-- `c0` of a colour sub-block, bytes 0–1 little-endian (30_encoding.md R112). -/
def SubBlock.c0 (sb : SubBlock) : Half := sb.lo.q1 ++ sb.lo.q0

/-- `c1` of a colour sub-block, bytes 2–3 little-endian (30_encoding.md R112). -/
def SubBlock.c1 (sb : SubBlock) : Half := sb.lo.q3 ++ sb.lo.q2

/-- The mask of a colour sub-block, bytes 4–7 little-endian (30_encoding.md R112). -/
def SubBlock.mask (sb : SubBlock) : Word := bytesWord sb.hi

/-- The u48 `F` read little-endian from bytes 2–7 (30_encoding.md R115). -/
def SubBlock.fieldLe (sb : SubBlock) : BitVec 48 :=
  sb.hi.q3 ++ sb.hi.q2 ++ sb.hi.q1 ++ sb.hi.q0 ++ sb.lo.q3 ++ sb.lo.q2

/-- The u48 `G` read big-endian from bytes 2–7 (30_encoding.md R115). -/
def SubBlock.fieldBe (sb : SubBlock) : BitVec 48 :=
  sb.lo.q2 ++ sb.lo.q3 ++ sb.hi.q0 ++ sb.hi.q1 ++ sb.hi.q2 ++ sb.hi.q3

/-- Pixel `i`'s alpha index: `F[3i+2:3i]` under `LsbFirst`, `G[47−3i:45−3i]` under `MsbFirst` (30_encoding.md
R115). -/
def SubBlock.alphaIndex (sb : SubBlock) (order : BitOrder) (i : Fin 16) : BitVec 3 :=
  match order with
  | .lsbFirst => sb.fieldLe.extractLsb' (3 * i.val) 3
  | .msbFirst => sb.fieldBe.extractLsb' (45 - 3 * i.val) 3

/-- `sum_i ind_i << (3i)`, a u48 (44_alpha.md R264). -/
def alphaFieldLe (t : Tile (BitVec 3)) : BitVec 48 :=
  let row (q : Quad (BitVec 3)) : BitVec 12 := q.q3 ++ q.q2 ++ q.q1 ++ q.q0
  row t.r3 ++ row t.r2 ++ row t.r1 ++ row t.r0

/-- The u48 with pixel 0's index in its top three bits (30_encoding.md R115, `MsbFirst`). -/
def alphaFieldBe (t : Tile (BitVec 3)) : BitVec 48 :=
  let row (q : Quad (BitVec 3)) : BitVec 12 := q.q0 ++ q.q1 ++ q.q2 ++ q.q3
  row t.r0 ++ row t.r1 ++ row t.r2 ++ row t.r3

/-- The alpha sub-block of two endpoints and sixteen indices (30_encoding.md R115, 44_alpha.md R264). -/
def packAlphaBlock (order : BitOrder) (a0 a1 : Byte) (t : Tile (BitVec 3)) : SubBlock :=
  match order with
  | .lsbFirst =>
    let f := alphaFieldLe t
    ⟨⟨a0, a1, f.extractLsb' 0 8, f.extractLsb' 8 8⟩,
     ⟨f.extractLsb' 16 8, f.extractLsb' 24 8, f.extractLsb' 32 8, f.extractLsb' 40 8⟩⟩
  | .msbFirst =>
    let g := alphaFieldBe t
    ⟨⟨a0, a1, g.extractLsb' 40 8, g.extractLsb' 32 8⟩,
     ⟨g.extractLsb' 24 8, g.extractLsb' 16 8, g.extractLsb' 8 8, g.extractLsb' 0 8⟩⟩

/-- A channel value as an integer (00_scope.md R9). -/
def chan (c : Byte) : Int := (c.toNat : Int)

end Sys2Proof.Machine
end

