-- ==== Sys2Proof/Machine/Ops.lean ====
section
/-! DEFINITION. The named operations over the buffers and the registers: reading and writing buffer bytes, host
reads and writes of a register, what a command reads and writes of the data registers, raising an error
(60_exceptions.md R341) and completing without one (10_state.md R36). -/

namespace Sys2Proof.Machine

open Sys2Proof

/-! ### Buffers -/

/-- The number of buffer offsets, 2^ADDR_W with `ADDR_W` 32 (00_scope.md R6, 20_memory.md R80). -/
def bufferSize : Nat := 2 ^ 32

/-- The canonical form of a buffer: strictly rising offsets, each below 2^32. -/
abbrev Memory.wf (m : Memory) : Prop :=
  m.Pairwise (fun c d => c.1 < d.1) ∧ ∀ c ∈ m, c.1 < bufferSize

/-- The byte at offset `a`, or none where nothing was written (20_memory.md R81). -/
def Memory.read : Memory → Nat → Option Byte
  | [], _ => none
  | (x, c) :: m, a => if a = x then some c else Memory.read m a

/-- The buffer with byte `b` at offset `a`. -/
def Memory.write : Memory → Nat → Byte → Memory
  | [], a, b => [(a, b)]
  | (x, c) :: m, a, b =>
    if a < x then (a, b) :: (x, c) :: m
    else if a = x then (a, b) :: m
    else (x, c) :: Memory.write m a b

/-- `MemWrite(S, a, n, bytes)`: the bytes at successive offsets from `a` (00_scope.md R11). -/
def Memory.writeBytes (m : Memory) (a : Nat) : List Byte → Memory
  | [] => m
  | b :: bs => Memory.writeBytes (m.write a b) (a + 1) bs

/-- The byte at offset `a`, or the fault `UNINIT` where nothing was written (20_memory.md R81). -/
def readByte (buf : Buf) (m : Memory) (a : Nat) : Except Fault Byte :=
  match m.read a with
  | some b => .ok b
  | none => .error (.uninit buf a)

/-- `MemRead(S, a, n)`: `n` bytes at successive offsets from `a` (00_scope.md R11). -/
def readBytes (buf : Buf) (m : Memory) (a : Nat) : Nat → Except Fault (List Byte)
  | 0 => .ok []
  | n + 1 =>
    match readByte buf m a with
    | .error e => .error e
    | .ok b =>
      match readBytes buf m (a + 1) n with
      | .error e => .error e
      | .ok bs => .ok (b :: bs)

/-- `MemRead(S, a, 4)` as four bytes. -/
def readQuad (buf : Buf) (m : Memory) (a : Nat) : Except Fault (Quad Byte) :=
  Quad.traverse (readByte buf m) ⟨a, a + 1, a + 2, a + 3⟩

/-- The buffer a name stands for. -/
def State.buffer (s : State) : Buf → Memory
  | .pb => s.pb
  | .cb => s.cb

/-- The state with a buffer replaced. -/
def State.setBuffer (s : State) (buf : Buf) (m : Memory) : State :=
  match buf with
  | .pb => { s with pb := m }
  | .cb => { s with cb := m }

/-! ### The register map -/

/-- The offset of a register (10_state.md R32). -/
def Reg.offset : Reg → Nat
  | .cmd => 0x00
  | .status => 0x04
  | .imgW => 0x08
  | .imgH => 0x0C
  | .bX => 0x10
  | .bY => 0x14
  | .bufcfg => 0x18
  | .pbLen => 0x1C
  | .cbLen => 0x20
  | .ep => 0x24
  | .mask => 0x28
  | .pix i => 0x40 + 4 * i.val
  | .pal k => 0x80 + 4 * k.val
  | .blk j => 0x90 + 4 * j.val

/-- The register at word number `n` of the window, offset `4n`; none where the offset is reserved
(10_state.md R32). -/
def regOfWordNumber (n : Nat) : Option Reg :=
  match n with
  | 0 => some .cmd
  | 1 => some .status
  | 2 => some .imgW
  | 3 => some .imgH
  | 4 => some .bX
  | 5 => some .bY
  | 6 => some .bufcfg
  | 7 => some .pbLen
  | 8 => some .cbLen
  | 9 => some .ep
  | 10 => some .mask
  | n =>
    if 16 ≤ n ∧ n < 32 then some (.pix (Fin.ofNat 16 (n - 16)))
    else if 32 ≤ n ∧ n < 36 then some (.pal (Fin.ofNat 4 (n - 32)))
    else if 36 ≤ n ∧ n < 40 then some (.blk (Fin.ofNat 4 (n - 36)))
    else none

/-- `REG_WINDOW` (10_state.md R32). -/
def regWindow : Nat := 0x100

/-- The bits of `BUFCFG` that exist: [1:0] (10_state.md R43). -/
def bufcfgMask : Word := 3

/-- `BUFCFG.PB_VALID` (10_state.md R43). -/
def State.pbValid (s : State) : Bool := s.bufcfg.getLsbD 0

/-- `BUFCFG.CB_VALID` (10_state.md R43). -/
def State.cbValid (s : State) : Bool := s.bufcfg.getLsbD 1

/-- The current value of a register, "with reserved bits reading 0" (10_state.md R33). No read has a side
effect. -/
def State.read (s : State) : Reg → Word
  | .cmd => s.cmd
  | .status => statusWord s.status s.lutReady
  | .imgW => s.imgW
  | .imgH => s.imgH
  | .bX => s.bX
  | .bY => s.bY
  | .bufcfg => s.bufcfg &&& bufcfgMask
  | .pbLen => s.pbLen
  | .cbLen => s.cbLen
  | .ep => s.ep.value
  | .mask => s.mask.value
  | .pix i => (s.pix.get i).value
  | .pal k => (s.pal.get k).value
  | .blk j => (s.blk.get j).value

/-- A host write of a register (10_state.md R33): a write to `STATUS` has no effect, writes to the reserved bits
of `BUFCFG` are ignored (R43), and a data register becomes specified (R53). A write to `CMD` stores the whole
word (R34); that it also runs the command is said in `Machine/Bus.lean`. -/
def State.write (s : State) (r : Reg) (v : Word) : State :=
  match r with
  | .cmd => { s with cmd := v }
  | .status => s
  | .imgW => { s with imgW := v }
  | .imgH => { s with imgH := v }
  | .bX => { s with bX := v }
  | .bY => { s with bY := v }
  | .bufcfg => { s with bufcfg := v &&& bufcfgMask }
  | .pbLen => { s with pbLen := v }
  | .cbLen => { s with cbLen := v }
  | .ep => { s with ep := .holding v }
  | .mask => { s with mask := .holding v }
  | .pix i => { s with pix := s.pix.set i (.holding v) }
  | .pal k => { s with pal := s.pal.set k (.holding v) }
  | .blk j => { s with blk := s.blk.set j (.holding v) }

/-- Whether a register has a value the spec defines (10_state.md R53): always for the control and configuration
registers, and for a data register since its first write after reset. -/
def State.specified (s : State) : Reg → Bool
  | .ep => s.ep.specified
  | .mask => s.mask.specified
  | .pix i => (s.pix.get i).specified
  | .pal k => (s.pal.get k).specified
  | .blk j => (s.blk.get j).specified
  | _ => true

/-! ### What commands read and write -/

/-- The block `[unpack(x[PIX0]), ..., unpack(x[PIX15])]`. -/
def State.pixels (s : State) : Tile Pixel := s.pix.map fun d => unpackPixel d.value

/-- The palette colours of `PAL0`–`PAL3`, whose alpha bytes a command ignores (10_state.md R48). -/
def State.palette (s : State) : Quad RGB := s.pal.map fun d => (unpackPixel d.value).rgb

/-- Block bytes 0–7, in `BLK0` and `BLK1` (10_state.md R49). -/
def State.lowBlock (s : State) : SubBlock := ⟨wordBytes s.blk.q0.value, wordBytes s.blk.q1.value⟩

/-- Block bytes 8–15, in `BLK2` and `BLK3` (10_state.md R49). -/
def State.highBlock (s : State) : SubBlock := ⟨wordBytes s.blk.q2.value, wordBytes s.blk.q3.value⟩

/-- `x[PIXi] <- {a, b, g, r}` for every pixel of a tile. -/
def State.putPixels (s : State) (t : Tile Pixel) : State :=
  { s with pix := t.map fun p => .holding (packPixel p) }

/-- `x[PALk] <- {0x00, b, g, r}` for every entry of a palette (42_palette_match.md R223). -/
def State.putPalette (s : State) (p : Quad RGB) : State :=
  { s with pal := p.map fun c => .holding (packColour c) }

/-- `x[EP] <- {e1, e0}`. -/
def State.putEndpoints (s : State) (e0 e1 : Half) : State := { s with ep := .holding (epWord e0 e1) }

/-- `x[MASK] <- m`. -/
def State.putMask (s : State) (m : Word) : State := { s with mask := .holding m }

/-- Block bytes 0–7 into `BLK0` and `BLK1` (10_state.md R49). -/
def State.putLowBlock (s : State) (sb : SubBlock) : State :=
  { s with blk := { s.blk with q0 := .holding (bytesWord sb.lo), q1 := .holding (bytesWord sb.hi) } }

/-- Block bytes 8–15 into `BLK2` and `BLK3` (10_state.md R49). -/
def State.putHighBlock (s : State) (sb : SubBlock) : State :=
  { s with blk := { s.blk with q2 := .holding (bytesWord sb.lo), q3 := .holding (bytesWord sb.hi) } }

/-- A block into `BLK0`–`BLK1` (BC1) or `BLK0`–`BLK3` (BC3) (45_block_codec.md R286). -/
def State.putBlock (s : State) : Block → State
  | .bc1 c => s.putLowBlock c
  | .bc3 a c => (s.putLowBlock a).putHighBlock c

/-- A change of the flags of `STATUS`. -/
def State.mapStatus (s : State) (f : Status → Status) : State := { s with status := f s.status }

/-- `LUT_READY <- 1` (40_tables.md R164): the tables count as built. -/
def State.buildTables (s : State) : State := { s with lutReady := true }

/-! ### Errors -/

/-- `raise K(d)` (60_exceptions.md R341): ERR, DETAIL and ERR_SEEN are written and nothing else changes. It has
no handler, no vector and no saved context (R352). -/
def State.raise (s : State) (e : CmdError) : State := s.mapStatus (·.failed e)

/-- The end of a command without error, `x[STATUS].ERR <- 0; x[STATUS].DETAIL <- 0` (10_state.md R36). It is also
the only return from an error: "The next successful command clears `ERR` and `DETAIL`" (60_exceptions.md R352). -/
def State.succeed (s : State) : State := s.mapStatus Status.succeeded

end Sys2Proof.Machine
end

