-- ==== Sys2Proof/Machine/Alpha.lean ====
section
/-! DEFINITION. The BC3 alpha encoder and the alpha ramp (44_alpha.md), and the command ENCA. -/

namespace Sys2Proof.Machine

open Sys2Proof

/-- `amax` over the sixteen alphas (44_alpha.md R260). -/
def alphaMax (t : Tile Byte) : Byte := t.fold fun a b => if a.toNat < b.toNat then b else a

/-- `amin` over the sixteen alphas (44_alpha.md R260). -/
def alphaMin (t : Tile Byte) : Byte := t.fold fun a b => if b.toNat < a.toNat then b else a

/-- `bias = amin*7 - (dist >> 1)` (44_alpha.md R261). -/
def alphaBias (amin dist : Int) : Int := amin * 7 - (dist >>> 1)

/-- The linear position `t` of an alpha in 0..7, by three strict comparisons (44_alpha.md R262). -/
def alphaPosition (amax amin a : Int) : Nat :=
  let dist := amax - amin
  let v := a * 7 - alphaBias amin dist
  let t4 : Nat := if v > dist * 4 then 4 else 0
  let v := if v > dist * 4 then v - dist * 4 else v
  let t2 : Nat := if v > dist * 2 then 2 else 0
  let v := if v > dist * 2 then v - dist * 2 else v
  let t1 : Nat := if v > dist then 1 else 0
  t4 + t2 + t1

/-- `ind <- (-t) & 7`, then `ind ^ 1` if `ind < 2` (44_alpha.md R263). -/
def permuteIndex (t : Nat) : BitVec 3 :=
  let ind : BitVec 3 := - BitVec.ofNat 3 t
  if ind.toNat < 2 then ind ^^^ 1 else ind

/-- The stored indices of sixteen alphas (44_alpha.md R262, R263). -/
def alphaIndices (t : Tile Byte) : Tile (BitVec 3) :=
  t.map fun a => permuteIndex (alphaPosition (chan (alphaMax t)) (chan (alphaMin t)) (chan a))

/-- `encode_alpha(blk)`: `amax`, `amin` and the packed indices (44_alpha.md R265). -/
def encodeAlpha (order : BitOrder) (blk : Tile Pixel) : SubBlock :=
  let t := blk.map Pixel.a
  packAlphaBlock order (alphaMax t) (alphaMin t) (alphaIndices t)

/-- Entry `i` of the alpha ramp `L` of two stored endpoints (44_alpha.md R266). -/
def alphaRamp (a0 a1 : Byte) (i : BitVec 3) : Byte :=
  let n := i.toNat
  if n = 0 then a0
  else if n = 1 then a1
  else if a0.toNat > a1.toNat then BitVec.ofNat 8 (((8 - n) * a0.toNat + (n - 1) * a1.toNat) / 7)
  else if n = 6 then 0
  else if n = 7 then 255
  else BitVec.ofNat 8 (((6 - n) * a0.toNat + (n - 1) * a1.toNat) / 5)

/-- The sixteen alphas an alpha sub-block decodes to, `L[ind_i]` (44_alpha.md R266, 45_block_codec.md R285). -/
def decodeAlpha (order : BitOrder) (sb : SubBlock) : Tile Byte :=
  Tile.indices.map fun i => alphaRamp sb.lo.q0 sb.lo.q1 (sb.alphaIndex order i)

/-- `ENCA`: encode the alpha sub-block of the pixel registers (44_alpha.md R267). -/
def execEnca (s : State) : Host.Outcome State Fault Refusal :=
  .next ((s.putLowBlock (encodeAlpha s.cfg.alphaBitOrder s.pixels)).succeed)

end Sys2Proof.Machine
end

