-- ==== Sys2Proof/Machine/Numerics.lean ====
section
/-! DEFINITION. Floating point (00_scope.md R10): a binary32 or binary64 value as an exact dyadic number, each
operation as the exact result rounded once to nearest-even, comparison, and truncation to an integer. -/

namespace Sys2Proof.Machine

open Sys2Proof

/-- The number `sig * 2^exp`. No infinity and no NaN stands here: none can arise (41_estimator.md R184; log entry
10). -/
structure Flt where
  sig : Int
  exp : Int
deriving DecidableEq, Repr

/-- An integer as an exact number. -/
def Flt.ofInt (n : Int) : Flt := ⟨n, 0⟩

/-- `floor(log2(n / d))` for positive `n` and `d`. -/
def ratioLog2 (n d : Nat) : Int :=
  let k : Int := (n.log2 : Int) - (d.log2 : Int)
  if n * 2 ^ (-k).toNat < d * 2 ^ k.toNat then k - 1 else k

/-- `n / d` rounded to an integer, halves to even, for positive `d`. -/
def roundHalfEven (n d : Nat) : Nat :=
  let q := n / d
  let r := n % d
  if 2 * r < d then q
  else if d < 2 * r then q + 1
  else q + q % 2

/-- The exact number `num / den * 2^e` rounded to the nearest value with a `p`-bit significand whose unit in the
last place is at least `2^emin`, ties to even (00_scope.md R10). -/
def roundBinary (p : Nat) (emin : Int) (num : Int) (den : Nat) (e : Int) : Flt :=
  if num = 0 then ⟨0, 0⟩
  else
    let n := num.natAbs
    let u : Int := max (ratioLog2 n den + e - ((p : Int) - 1)) emin
    let q : Nat := roundHalfEven (n * 2 ^ (e - u).toNat) (den * 2 ^ (u - e).toNat)
    ⟨num.sign * (q : Int), u⟩

/-- `f32` of `num / den * 2^e` (00_scope.md R10): binary32 has 24-bit significands and a least unit of
2^-149. -/
def f32 (num : Int) (den : Nat) (e : Int) : Flt := roundBinary 24 (-149) num den e

/-- `f64` of `num / den * 2^e` (00_scope.md R10): binary64 has 53-bit significands and a least unit of
2^-1074. -/
def f64 (num : Int) (den : Nat) (e : Int) : Flt := roundBinary 53 (-1074) num den e

/-- `a *.32 b`. -/
def mul32 (a b : Flt) : Flt := f32 (a.sig * b.sig) 1 (a.exp + b.exp)

/-- The exact sum of two numbers. -/
def Flt.add (a b : Flt) : Flt :=
  let m := min a.exp b.exp
  ⟨a.sig * 2 ^ (a.exp - m).toNat + b.sig * 2 ^ (b.exp - m).toNat, m⟩

/-- `a +.32 b`. -/
def add32 (a b : Flt) : Flt :=
  let s := a.add b
  f32 s.sig 1 s.exp

/-- `a /.32 b`, for a `b` that is not 0. -/
def div32 (a b : Flt) : Flt := f32 (a.sig * b.sig.sign) b.sig.natAbs (a.exp - b.exp)

/-- `a *.64 b`. -/
def mul64 (a b : Flt) : Flt := f64 (a.sig * b.sig) 1 (a.exp + b.exp)

/-- `a /.64 b`, for a `b` that is not 0. -/
def div64 (a b : Flt) : Flt := f64 (a.sig * b.sig.sign) b.sig.natAbs (a.exp - b.exp)

/-- `|a|`. -/
def Flt.abs (a : Flt) : Flt := ⟨a.sig.natAbs, a.exp⟩

/-- `a < b`, the exact comparison. -/
def Flt.lt (a b : Flt) : Bool :=
  let m := min a.exp b.exp
  a.sig * 2 ^ (a.exp - m).toNat < b.sig * 2 ^ (b.exp - m).toNat

/-- The greater of two numbers. -/
def Flt.max (a b : Flt) : Flt := if a.lt b then b else a

/-- `trunc(a)`: the integer part, rounding toward zero (00_scope.md R10). -/
def Flt.trunc (a : Flt) : Int :=
  (a.sig * 2 ^ a.exp.toNat).tdiv (2 ^ (-a.exp).toNat)

end Sys2Proof.Machine
end

