-- ==== Sys2Proof/Machine/Tables.lean ====
section
/-! DEFINITION. The fixed-point multiply (40_tables.md R160), the four lookup tables (R161 to R168), the search
that defines the optimal-match tables (R163), and the command INIT (R170). -/

namespace Sys2Proof.Machine

open Sys2Proof

/-- `mulShift8(a, b)` (40_tables.md R160). -/
def mulShift8 (a b : Int) : Int := ((a * b + 128) + ((a * b + 128) >>> 8)) >>> 8

/-- `Expand5[i] = (i << 3) | (i >> 2)` (40_tables.md R161). -/
def expand5 (i : BitVec 5) : Byte := (i.zeroExtend 8 <<< 3) ||| (i.zeroExtend 8 >>> 2)

/-- `Expand6[i] = (i << 2) | (i >> 4)` (40_tables.md R162). -/
def expand6 (i : BitVec 6) : Byte := (i.zeroExtend 8 <<< 2) ||| (i.zeroExtend 8 >>> 4)

/-- `From16Bit(v)`: an RGB565 value as an 8-bit colour (42_palette_match.md R210). -/
def from16 (v : Half) : RGB := ⟨expand5 (red5 v), expand6 (green6 v), expand5 (blue5 v)⟩

/-- `OMatch5` as literal data (40_tables.md R167), rows 0 to 48. -/
def omatch5Rows0 : List (List (Nat × Nat)) :=
  [[(0, 0), (0, 0), (0, 1), (0, 1), (1, 0), (1, 0), (1, 0), (1, 1), (1, 1), (1, 1), (2, 0), (2, 0), (2, 0), (2, 1), (0, 5), (3, 0)],
   [(3, 0), (3, 0), (3, 1), (3, 1), (3, 1), (3, 2), (4, 0), (4, 0), (3, 3), (4, 1), (5, 0), (5, 0), (5, 0), (5, 1), (5, 1), (5, 1)],
   [(3, 6), (6, 0), (6, 0), (6, 1), (4, 5), (7, 0), (7, 0), (7, 0), (7, 1), (7, 1), (7, 1), (7, 2), (8, 0), (8, 0), (7, 3), (8, 1)],
   [(9, 0), (9, 0), (9, 0), (9, 1), (9, 1), (9, 1), (7, 6), (10, 0), (10, 0), (10, 1), (8, 5), (11, 0), (11, 0), (11, 0), (11, 1), (11, 1)]]

/-- `OMatch5` as literal data (40_tables.md R167), rows 64 to 112. -/
def omatch5Rows1 : List (List (Nat × Nat)) :=
  [[(11, 1), (11, 2), (12, 0), (12, 0), (11, 3), (12, 1), (13, 0), (13, 0), (13, 0), (13, 1), (13, 1), (13, 1), (11, 6), (14, 0), (14, 0), (14, 1)],
   [(12, 5), (15, 0), (15, 0), (15, 0), (15, 1), (15, 1), (15, 1), (15, 2), (16, 0), (16, 0), (15, 3), (16, 1), (17, 0), (17, 0), (17, 0), (17, 1)],
   [(17, 1), (17, 1), (15, 6), (18, 0), (18, 0), (18, 1), (16, 5), (19, 0), (19, 0), (19, 0), (19, 1), (19, 1), (19, 1), (19, 2), (20, 0), (20, 0)],
   [(19, 3), (20, 1), (21, 0), (21, 0), (21, 0), (21, 1), (21, 1), (21, 1), (19, 6), (22, 0), (22, 0), (22, 1), (20, 5), (23, 0), (23, 0), (23, 0)]]

/-- `OMatch5` as literal data (40_tables.md R167), rows 128 to 176. -/
def omatch5Rows2 : List (List (Nat × Nat)) :=
  [[(23, 1), (23, 1), (23, 1), (23, 2), (24, 0), (24, 0), (23, 3), (24, 1), (25, 0), (25, 0), (25, 0), (25, 1), (25, 1), (25, 1), (23, 6), (26, 0)],
   [(26, 0), (26, 1), (24, 5), (27, 0), (27, 0), (27, 0), (27, 1), (27, 1), (27, 1), (27, 2), (28, 0), (28, 0), (27, 3), (28, 1), (29, 0), (29, 0)],
   [(29, 0), (29, 1), (29, 1), (29, 1), (27, 6), (30, 0), (30, 0), (30, 1), (28, 5), (31, 0), (31, 0), (31, 0), (31, 1), (31, 1), (31, 1), (31, 2)],
   [(30, 4), (31, 3), (31, 3), (28, 9), (31, 4), (31, 4), (31, 4), (31, 5), (31, 5), (31, 5), (31, 6), (30, 8), (31, 7), (31, 7), (28, 13), (31, 8)]]

/-- `OMatch5` as literal data (40_tables.md R167), rows 192 to 240. -/
def omatch5Rows3 : List (List (Nat × Nat)) :=
  [[(31, 8), (31, 8), (31, 9), (31, 9), (31, 9), (31, 10), (30, 12), (31, 11), (31, 11), (28, 17), (31, 12), (31, 12), (31, 12), (31, 13), (31, 13), (31, 13)],
   [(31, 14), (30, 16), (31, 15), (31, 15), (28, 21), (31, 16), (31, 16), (31, 16), (31, 17), (31, 17), (31, 17), (31, 18), (30, 20), (31, 19), (31, 19), (28, 25)],
   [(31, 20), (31, 20), (31, 20), (31, 21), (31, 21), (31, 21), (31, 22), (30, 24), (31, 23), (31, 23), (28, 29), (31, 24), (31, 24), (31, 24), (31, 25), (31, 25)],
   [(31, 25), (31, 26), (30, 28), (31, 27), (31, 27), (31, 27), (31, 28), (31, 28), (31, 28), (31, 29), (31, 29), (31, 29), (31, 30), (31, 30), (31, 31), (31, 31)]]

/-- `OMatch6` as literal data (40_tables.md R168), rows 0 to 48. -/
def omatch6Rows0 : List (List (Nat × Nat)) :=
  [[(0, 0), (0, 1), (1, 0), (1, 0), (1, 1), (2, 0), (2, 0), (2, 1), (3, 0), (3, 1), (4, 0), (4, 0), (4, 1), (5, 0), (5, 0), (5, 1)],
   [(6, 0), (6, 1), (7, 0), (7, 0), (7, 1), (8, 0), (0, 16), (8, 1), (9, 0), (9, 1), (1, 17), (10, 0), (10, 1), (11, 0), (3, 16), (11, 1)],
   [(12, 0), (12, 1), (4, 17), (13, 0), (13, 1), (14, 0), (6, 16), (14, 1), (15, 0), (15, 1), (7, 17), (16, 0), (15, 3), (16, 1), (17, 0), (17, 1)],
   [(15, 6), (18, 0), (18, 1), (19, 0), (15, 9), (19, 1), (20, 0), (20, 1), (15, 12), (21, 0), (21, 1), (22, 0), (15, 15), (22, 1), (23, 0), (23, 1)]]

/-- `OMatch6` as literal data (40_tables.md R168), rows 64 to 112. -/
def omatch6Rows1 : List (List (Nat × Nat)) :=
  [[(15, 18), (24, 0), (24, 1), (25, 0), (17, 16), (25, 1), (26, 0), (26, 1), (18, 17), (27, 0), (27, 1), (28, 0), (20, 16), (28, 1), (29, 0), (29, 1)],
   [(21, 17), (30, 0), (30, 1), (31, 0), (23, 16), (31, 1), (31, 2), (32, 0), (32, 1), (33, 0), (31, 5), (33, 1), (34, 0), (34, 1), (31, 8), (35, 0)],
   [(35, 1), (36, 0), (31, 11), (36, 1), (37, 0), (37, 1), (31, 14), (38, 0), (38, 1), (39, 0), (31, 17), (39, 1), (40, 0), (40, 1), (32, 17), (41, 0)],
   [(41, 1), (42, 0), (34, 16), (42, 1), (43, 0), (43, 1), (35, 17), (44, 0), (44, 1), (45, 0), (37, 16), (45, 1), (46, 0), (46, 1), (38, 17), (47, 0)]]

/-- `OMatch6` as literal data (40_tables.md R168), rows 128 to 176. -/
def omatch6Rows2 : List (List (Nat × Nat)) :=
  [[(47, 1), (47, 2), (48, 0), (48, 1), (47, 4), (49, 0), (49, 1), (50, 0), (47, 7), (50, 1), (51, 0), (51, 1), (47, 10), (52, 0), (52, 1), (53, 0)],
   [(47, 13), (53, 1), (54, 0), (54, 1), (47, 16), (55, 0), (55, 1), (56, 0), (48, 16), (56, 1), (57, 0), (57, 1), (49, 17), (58, 0), (58, 1), (59, 0)],
   [(51, 16), (59, 1), (60, 0), (60, 1), (52, 17), (61, 0), (61, 1), (62, 0), (54, 16), (62, 1), (63, 0), (63, 1), (55, 17), (63, 2), (63, 3), (63, 4)],
   [(57, 16), (63, 5), (63, 6), (63, 7), (58, 17), (63, 8), (63, 9), (63, 10), (60, 16), (63, 11), (63, 12), (63, 13), (61, 17), (63, 14), (63, 15), (54, 33)]]

/-- `OMatch6` as literal data (40_tables.md R168), rows 192 to 240. -/
def omatch6Rows3 : List (List (Nat × Nat)) :=
  [[(63, 16), (63, 17), (63, 18), (56, 32), (63, 19), (63, 20), (63, 21), (57, 33), (63, 22), (63, 23), (63, 24), (59, 32), (63, 25), (63, 26), (63, 27), (60, 33)],
   [(63, 28), (63, 29), (63, 30), (62, 32), (63, 31), (63, 32), (55, 48), (63, 33), (63, 34), (63, 35), (56, 49), (63, 36), (63, 37), (63, 38), (58, 48), (63, 39)],
   [(63, 40), (63, 41), (59, 49), (63, 42), (63, 43), (63, 44), (61, 48), (63, 45), (63, 46), (63, 47), (62, 49), (63, 48), (63, 49), (63, 49), (63, 50), (63, 51)],
   [(63, 52), (63, 52), (63, 53), (63, 54), (63, 55), (63, 55), (63, 56), (63, 57), (63, 58), (63, 58), (63, 59), (63, 60), (63, 61), (63, 61), (63, 62), (63, 63)]]

/-- `OMatch5` as pairs `(mx, mn)`, sixteen to a row. -/
def omatch5Rows : List (List (Nat × Nat)) := omatch5Rows0 ++ omatch5Rows1 ++ omatch5Rows2 ++ omatch5Rows3

/-- `OMatch6` as pairs `(mx, mn)`, sixteen to a row. -/
def omatch6Rows : List (List (Nat × Nat)) := omatch6Rows0 ++ omatch6Rows1 ++ omatch6Rows2 ++ omatch6Rows3

/-- Entry `v` of a table held sixteen to a row: "The row label plus the column offset gives `v`" (40_tables.md
R167). -/
def tableEntry (rows : List (List (Nat × Nat))) (v : Nat) : Nat × Nat :=
  (rows.getD (v / 16) []).getD (v % 16) (0, 0)

/-- `OMatch5[v]` as the pair `(mx, mn)` (40_tables.md R163, R167). -/
def omatch5 (v : Byte) : BitVec 5 × BitVec 5 :=
  let e := tableEntry omatch5Rows v.toNat
  (BitVec.ofNat 5 e.1, BitVec.ofNat 5 e.2)

/-- `OMatch6[v]` as the pair `(mx, mn)` (40_tables.md R163, R168). -/
def omatch6 (v : Byte) : BitVec 6 × BitVec 6 :=
  let e := tableEntry omatch6Rows v.toNat
  (BitVec.ofNat 6 e.1, BitVec.ofNat 6 e.2)

/-! ### The search that defines the optimal-match tables -/

/-- What the search holds: `best_err` and the pair `(mx, mn)` it belongs to (40_tables.md R163). -/
structure BestPair where
  err : Int
  mx  : Nat
  mn  : Nat
deriving DecidableEq, Repr

/-- The body of the search loop: "strict: a later pair with equal error never replaces" (40_tables.md R163). -/
def searchPair (E : Nat → Int) (v : Int) (mn mx : Nat) (best : BestPair) : BestPair :=
  let err : Int := ((E mx + mulShift8 (E mn - E mx) 0x55 - v).natAbs : Int)
  if err < best.err then ⟨err, mx, mn⟩ else best

/-- The search of 40_tables.md R163 over an expansion table `E` of `S` entries: `mn` in the outer loop, `mx` in
the inner loop, both increasing, from `best_err` 256. -/
def searchTable (E : Nat → Int) (S : Nat) (v : Int) : BestPair :=
  (List.range S).foldl (fun best mn => (List.range S).foldl (fun best mx => searchPair E v mn mx best) best)
    ⟨256, 0, 0⟩

/-- `OMatch5[v]` by the search of 40_tables.md R163. -/
def searchOmatch5 (v : Byte) : BestPair := searchTable (fun i => chan (expand5 (BitVec.ofNat 5 i))) 32 (chan v)

/-- `OMatch6[v]` by the search of 40_tables.md R163. -/
def searchOmatch6 (v : Byte) : BestPair := searchTable (fun i => chan (expand6 (BitVec.ofNat 6 i))) 64 (chan v)

/-! ### INIT -/

/-- `INIT`: mark the lookup tables built (40_tables.md R170). -/
def execInit (s : State) : Host.Outcome State Fault Refusal := .next s.buildTables.succeed

end Sys2Proof.Machine
end

