-- ==== Sys2Proof/Machine/Palette.lean ====
section
/-! DEFINITION. Palette interpolation and index selection (42_palette_match.md): the encoder palette, the plain and
the dithered matcher, the decoder palettes, and the commands PALC and MATCHC. -/

namespace Sys2Proof.Machine

open Sys2Proof

/-! ### Interpolation and the encoder palette -/

/-- `Lerp13(a, b)`, the 1/3 blend, in the form `cfg.lerp13` selects (42_palette_match.md R211). -/
def lerp13 (form : LerpForm) (a b : Byte) : Byte :=
  match form with
  | .mulShift8 => BitVec.ofInt 8 (chan a + mulShift8 (chan b - chan a) 0x55)
  | .div3 => BitVec.ofNat 8 ((2 * a.toNat + b.toNat) / 3)

/-- `Lerp13` per channel (42_palette_match.md R212). -/
def lerpRgb (form : LerpForm) (a b : RGB) : RGB :=
  ⟨lerp13 form a.r b.r, lerp13 form a.g b.g, lerp13 form a.b b.b⟩

/-- `EvalColors(e0, e1)`, always the 4-colour form (42_palette_match.md R212). -/
def evalColours (form : LerpForm) (e0 e1 : Half) : Quad RGB :=
  let p0 := from16 e0
  let p1 := from16 e1
  ⟨p0, p1, lerpRgb form p0 p1, lerpRgb form p1 p0⟩

/-! ### The nearest-index selector -/

/-- An integer vector with one component per colour channel. -/
structure Vec3 where
  r : Int
  g : Int
  b : Int
deriving DecidableEq, Repr

/-- `dot(p, v)` (00_scope.md R12). -/
def dot (c : RGB) (v : Vec3) : Int := chan c.r * v.r + chan c.g * v.g + chan c.b * v.b

/-- `dir` of the matcher, `pal[0] - pal[1]` per channel (42_palette_match.md R213). -/
def matchDir (pal : Quad RGB) : Vec3 :=
  ⟨chan pal.q0.r - chan pal.q1.r, chan pal.q0.g - chan pal.q1.g, chan pal.q0.b - chan pal.q1.b⟩

/-- `dots[i]` (42_palette_match.md R213). -/
def matchDots (blk : Tile RGB) (pal : Quad RGB) : Tile Int := blk.map fun c => dot c (matchDir pal)

/-- `stops[k]` (42_palette_match.md R213). -/
def matchStops (pal : Quad RGB) : Quad Int := pal.map fun c => dot c (matchDir pal)

/-- The three thresholds of the decision tree. -/
structure Thresholds where
  c0Point   : Int
  halfPoint : Int
  c3Point   : Int
deriving DecidableEq, Repr

/-- The thresholds of four stops; the shift is arithmetic (42_palette_match.md R214). -/
def thresholds (stops : Quad Int) : Thresholds where
  c0Point   := (stops.q1 + stops.q3) >>> 1
  halfPoint := (stops.q3 + stops.q2) >>> 1
  c3Point   := (stops.q2 + stops.q0) >>> 1

/-- The thresholds of the dithered path, `<< 4` (42_palette_match.md R217). -/
def Thresholds.scaled (t : Thresholds) : Thresholds where
  c0Point   := t.c0Point * 16
  halfPoint := t.halfPoint * 16
  c3Point   := t.c3Point * 16

/-- The decision tree `classify(d)` (42_palette_match.md R215). -/
def classify (t : Thresholds) (d : Int) : BitVec 2 :=
  if d < t.halfPoint then (if d < t.c0Point then 1 else 3)
  else (if d < t.c3Point then 2 else 0)

/-- The non-dithered path (42_palette_match.md R216). -/
def matchPlain (blk : Tile RGB) (pal : Quad RGB) : Word :=
  packMask ((matchDots blk pal).map (classify (thresholds (matchStops pal))))

/-- One row of the 7/3/5/1 error diffusion (42_palette_match.md R217): `cell` takes a pixel's source value and the
error `e` gathered for it, and gives the pixel's result and the error it stores; `prev` holds the stored errors of
the row above. -/
def diffuseRow {α : Type} (cell : Int → Int → α × Int) (prev row : Quad Int) : Quad α × Quad Int :=
  let c0 := cell row.q0 (3 * prev.q1 + 5 * prev.q0)
  let c1 := cell row.q1 (7 * c0.2 + 3 * prev.q2 + 5 * prev.q1 + prev.q0)
  let c2 := cell row.q2 (7 * c1.2 + 3 * prev.q3 + 5 * prev.q2 + prev.q1)
  let c3 := cell row.q3 (7 * c2.2 + 5 * prev.q3 + prev.q2)
  (⟨c0.1, c1.1, c2.1, c3.1⟩, ⟨c0.2, c1.2, c2.2, c3.2⟩)

/-- The error diffusion of a tile, row by row from zero errors; the `swap(e1, e2)` at each row's end makes the
row's errors those of "the previous row" (42_palette_match.md R217). -/
def diffuseTile {α : Type} (cell : Int → Int → α × Int) (t : Tile Int) : Tile α :=
  let d0 := diffuseRow cell (Quad.fill 0) t.r0
  let d1 := diffuseRow cell d0.2 t.r1
  let d2 := diffuseRow cell d1.2 t.r2
  let d3 := diffuseRow cell d2.2 t.r3
  ⟨d0.1, d1.1, d2.1, d3.1⟩

/-- One pixel of the dithered path: `d <- (dots << 4) + e`, its step, and the stored error
`dots - stops[step]` (42_palette_match.md R217). -/
def ditherCell (t : Thresholds) (stops : Quad Int) (d e : Int) : BitVec 2 × Int :=
  let step := classify t.scaled (d * 16 + e)
  (step, d - stops.get step.toFin)

/-- The dithered path under `cfg.ditherMatch = Ref` (42_palette_match.md R217). -/
def matchDitherRef (blk : Tile RGB) (pal : Quad RGB) : Word :=
  packMask (diffuseTile (ditherCell (thresholds (matchStops pal)) (matchStops pal)) (matchDots blk pal))

/-- The dithered path in the form `cfg.ditherMatch` selects: the loop of the rule, or the free value
(42_palette_match.md R217, log entry 9). -/
def matchDither (form : DitherForm) (blk : Tile RGB) (pal : Quad RGB) : Word :=
  match form with
  | .ref => matchDitherRef blk pal
  | .uninterpreted => Config.freeDitherMask blk pal

/-- `match(blk, pal, Q)` (42_palette_match.md R224, 45_block_codec.md R282). -/
def matchColours (cfg : Cfg) (q : Quality) (blk : Tile RGB) (pal : Quad RGB) : Word :=
  match q with
  | .fast => matchPlain blk pal
  | .dithered => matchDither cfg.ditherMatch blk pal

/-! ### The decoder palette -/

/-- 4-colour mode: `c0 > c1` as unsigned packed values, or a BC3 colour sub-block under `cfg.bc3Color4Only`
(42_palette_match.md R219). -/
def fourColourMode (cfg : Cfg) (bc3 : Bool) (c0 c1 : Half) : Bool :=
  (bc3 && cfg.bc3Color4Only) || decide (c1.toNat < c0.toNat)

/-- The floor midpoint of two channel values (42_palette_match.md R221). -/
def midpoint (a b : Byte) : Byte := BitVec.ofNat 8 ((a.toNat + b.toNat) / 2)

/-- A colour with an alpha. -/
def withAlpha (c : RGB) (a : Byte) : Pixel := ⟨c.r, c.g, c.b, a⟩

/-- The 4-colour decoder palette (42_palette_match.md R220, R222). -/
def palette4 (cfg : Cfg) (c0 c1 : Half) : Quad Pixel :=
  (evalColours cfg.lerp13 c0 c1).map (withAlpha · cfg.bc1OpaqueAlpha)

/-- The 3-colour decoder palette, whose entry 3 is transparent black (42_palette_match.md R221, R222). -/
def palette3 (cfg : Cfg) (c0 c1 : Half) : Quad Pixel :=
  let p0 := from16 c0
  let p1 := from16 c1
  ⟨withAlpha p0 cfg.bc1OpaqueAlpha, withAlpha p1 cfg.bc1OpaqueAlpha,
   ⟨midpoint p0.r p1.r, midpoint p0.g p1.g, midpoint p0.b p1.b, cfg.bc1OpaqueAlpha⟩,
   ⟨0, 0, 0, 0⟩⟩

/-- The decoder palette of a stored colour (sub-)block (42_palette_match.md R219 to R222). -/
def decoderPalette (cfg : Cfg) (bc3 : Bool) (c0 c1 : Half) : Quad Pixel :=
  if fourColourMode cfg bc3 c0 c1 then palette4 cfg c0 c1 else palette3 cfg c0 c1

/-! ### Commands -/

/-- `PALC`: evaluate the encoder palette of `EP` (42_palette_match.md R223). -/
def execPalc (s : State) : Host.Outcome State Fault Refusal :=
  let w := s.ep.value
  .next ((s.buildTables.putPalette (evalColours s.cfg.lerp13 (ep0 w) (ep1 w))).succeed)

/-- `MATCHC`: assign indices to the pixel registers against the palette registers (42_palette_match.md R224). -/
def execMatchc (q : Quality) (s : State) : Host.Outcome State Fault Refusal :=
  .next ((s.putMask (matchColours s.cfg q (s.pixels.map Pixel.rgb) s.palette)).succeed)

end Sys2Proof.Machine
end

