-- ==== Sys2Proof/Machine/Estimator.lean ====
section
/-! DEFINITION. Flat blocks, the principal-axis colour endpoint estimator and the pre-dither (41_estimator.md), and
the commands ESTC and FLATC. -/

namespace Sys2Proof.Machine

open Sys2Proof

/-! ### Flat blocks -/

/-- `is_flat(blk)` under `cfg.flatCompare` (41_estimator.md R180). -/
def isFlat (form : FlatCompare) (blk : Tile Pixel) : Bool :=
  match form with
  | .rgb => blk.toList.all fun p => p.rgb == blk.r0.q0.rgb
  | .rgba => blk.toList.all fun p => p == blk.r0.q0

/-- `max16` of `fast_path` for a colour (41_estimator.md R181). -/
def fastMax (c : RGB) : Half := rgb565 (omatch5 c.r).1 (omatch6 c.g).1 (omatch5 c.b).1

/-- `min16` of `fast_path` for a colour (41_estimator.md R181). -/
def fastMin (c : RGB) : Half := rgb565 (omatch5 c.r).2 (omatch6 c.g).2 (omatch5 c.b).2

/-- The mask of `fast_path` (41_estimator.md R181). -/
def fastMask : Word := 0xAAAAAAAA

/-! ### Steps 1 and 2: statistics and covariance -/

/-- The integers of one channel of a block. -/
def channel (f : RGB → Byte) (blk : Tile RGB) : Tile Int := blk.map fun c => chan (f c)

/-- `sum_i` of sixteen integers. -/
def tileSum (t : Tile Int) : Int := t.fold (· + ·)

/-- `mu[c]`, the rounded mean (41_estimator.md R182). -/
def tileMean (t : Tile Int) : Int := (tileSum t + 8) >>> 4

/-- `min[c]` (41_estimator.md R182). -/
def tileMin (t : Tile Int) : Int := t.fold min

/-- `max[c]` (41_estimator.md R182). -/
def tileMax (t : Tile Int) : Int := t.fold max

/-- The deviations of a channel from its mean (41_estimator.md R183). -/
def deviations (t : Tile Int) : Tile Int := t.map (· - tileMean t)

/-- `sum_i d_i * e_i`, an entry of the covariance (41_estimator.md R183). -/
def covariance (d e : Tile Int) : Int := tileSum (d.zipWith (· * ·) e)

/-- The six entries of the symmetric matrix, `covf[0]` to `covf[5]` (41_estimator.md R183). -/
structure Covariance where
  c0 : Flt
  c1 : Flt
  c2 : Flt
  c3 : Flt
  c4 : Flt
  c5 : Flt
deriving DecidableEq, Repr

/-- `f32(x)` of an integer. -/
def f32OfInt (x : Int) : Flt := f32 x 1 0

/-- `covf = f32(cov) /.32 f32(255.0)` (41_estimator.md R183). -/
def scaledCov (cov : Int) : Flt := div32 (f32OfInt cov) (f32OfInt 255)

/-- The scaled covariance of a block (41_estimator.md R183). -/
def blockCovariance (blk : Tile RGB) : Covariance :=
  let dr := deviations (channel RGB.r blk)
  let dg := deviations (channel RGB.g blk)
  let db := deviations (channel RGB.b blk)
  ⟨scaledCov (covariance dr dr), scaledCov (covariance dr dg), scaledCov (covariance dr db),
   scaledCov (covariance dg dg), scaledCov (covariance dg db), scaledCov (covariance db db)⟩

/-! ### Step 3: power iteration -/

/-- A direction in binary32. -/
structure FltVec where
  r : Flt
  g : Flt
  b : Flt
deriving DecidableEq, Repr

/-- The seed: the channel ranges (41_estimator.md R184). -/
def seedVector (blk : Tile RGB) : FltVec :=
  let range (t : Tile Int) : Flt := f32OfInt (tileMax t - tileMin t)
  ⟨range (channel RGB.r blk), range (channel RGB.g blk), range (channel RGB.b blk)⟩

/-- One row of `Cov · v`, in the order of the rule: `((vr * a) + (vg * b)) + (vb * c)` (41_estimator.md R184). -/
def powerRow (v : FltVec) (a b c : Flt) : Flt :=
  add32 (add32 (mul32 v.r a) (mul32 v.g b)) (mul32 v.b c)

/-- One iteration `v <- Cov · v`, every component from the previous vector (41_estimator.md R184). -/
def powerStep (m : Covariance) (v : FltVec) : FltVec :=
  ⟨powerRow v m.c0 m.c1 m.c2, powerRow v m.c1 m.c3 m.c4, powerRow v m.c2 m.c4 m.c5⟩

/-- The seed after four iterations (41_estimator.md R184). -/
def powerVector (blk : Tile RGB) : FltVec :=
  let m := blockCovariance blk
  powerStep m (powerStep m (powerStep m (powerStep m (seedVector blk))))

/-! ### Step 4: the integer direction -/

/-- `magn`, the greatest absolute component (41_estimator.md R185). -/
def magnitude (v : FltVec) : Flt := (v.r.abs.max v.g.abs).max v.b.abs

/-- The fixed fallback direction (41_estimator.md R185). -/
def fallbackDirection : Vec3 := ⟨148, 300, 58⟩

/-- `f64(x)` of a binary32 value, which is exact. -/
def f64OfFlt (x : Flt) : Flt := f64 x.sig 1 x.exp

/-- The direction of a vector: the fallback below magnitude 4.0, else the vector rescaled to 512 and truncated
(41_estimator.md R185). -/
def integerDirection (v : FltVec) : Vec3 :=
  let magn := magnitude v
  if magn.lt (Flt.ofInt 4) then fallbackDirection
  else
    let s := div64 (Flt.ofInt 512) (f64OfFlt magn)
    let scale (x : Flt) : Int := (mul64 (f64OfFlt x) s).trunc
    ⟨scale v.r, scale v.g, scale v.b⟩

/-- The direction of a block in the form `cfg.pcaNumerics` selects: steps 2 to 4, or the free value with components
in [-512, 512] (41_estimator.md R184, log entry 9). -/
def direction (form : Numerics) (blk : Tile RGB) : Vec3 :=
  match form with
  | .ref32 => integerDirection (powerVector blk)
  | .uninterpreted =>
    let d := Config.freeDirection blk
    ⟨(d.1.val : Int) - 512, (d.2.1.val : Int) - 512, (d.2.2.val : Int) - 512⟩

/-! ### Step 5: the extreme pixels -/

/-- What the scan of step 5 holds (41_estimator.md R186). -/
structure Extremes where
  mind : Int
  maxd : Int
  minp : Fin 16
  maxp : Fin 16
deriving DecidableEq, Repr

/-- The body of the scan, with strict comparisons (41_estimator.md R186). -/
def scanPixel (x : Extremes) (p : Fin 16 × Int) : Extremes :=
  let x := if p.2 < x.mind then { x with mind := p.2, minp := p.1 } else x
  if x.maxd < p.2 then { x with maxd := p.2, maxp := p.1 } else x

/-- The scan over i = 0..15 "starting from `mind = 0x7FFFFFFF` and `maxd = −0x7FFFFFFF`" (41_estimator.md R186). -/
def extremes (d : Tile Int) : Extremes :=
  (Tile.indices.toList.zip d.toList).foldl scanPixel ⟨0x7FFFFFFF, -0x7FFFFFFF, 0, 0⟩

/-- The projections `d_i` of a block on a direction (41_estimator.md R186). -/
def projections (blk : Tile RGB) (v : Vec3) : Tile Int := blk.map fun c => dot c v

/-! ### The estimator -/

/-- `As16Bit(r, g, b)` (41_estimator.md R187). -/
def as16 (c : RGB) : Half :=
  rgb565 (BitVec.ofInt 5 (mulShift8 (chan c.r) 31)) (BitVec.ofInt 6 (mulShift8 (chan c.g) 63))
    (BitVec.ofInt 5 (mulShift8 (chan c.b) 31))

/-- `estimate(blk)`: the pair (max16, min16) (41_estimator.md R188). -/
def estimate (cfg : Cfg) (blk : Tile RGB) : Half × Half :=
  let x := extremes (projections blk (direction cfg.pcaNumerics blk))
  (as16 (blk.get x.maxp), as16 (blk.get x.minp))

/-! ### Pre-dither -/

/-- `clamp(x) = min(max(x, 0), 255)` (41_estimator.md R197). -/
def clampByte (x : Int) : Int := min (max x 0) 255

/-- `quant_r` and `quant_b` (41_estimator.md R197). -/
def quant5 (x : Int) : Byte := expand5 (BitVec.ofInt 5 (mulShift8 (clampByte x) 31))

/-- `quant_g` (41_estimator.md R197). -/
def quant6 (x : Int) : Byte := expand6 (BitVec.ofInt 6 (mulShift8 (clampByte x) 63))

/-- One pixel of the pre-dither of one channel: the quantised value of `s + (e >> 4)` and the stored error
(41_estimator.md R196). -/
def preDitherCell (quant : Int → Byte) (s e : Int) : Byte × Int :=
  let v := quant (s + (e >>> 4))
  (v, s - chan v)

/-- `dither_block(blk)`, colour only: alpha is not used by the estimator or the refiner (41_estimator.md R196). -/
def ditherBlock (blk : Tile RGB) : Tile RGB :=
  let r := diffuseTile (preDitherCell quant5) (channel RGB.r blk)
  let g := diffuseTile (preDitherCell quant6) (channel RGB.g blk)
  let b := diffuseTile (preDitherCell quant5) (channel RGB.b blk)
  (r.zipWith Prod.mk g).zipWith (fun rg b => ⟨rg.1, rg.2, b⟩) b

/-! ### Commands -/

/-- `ESTC`: run the estimator on the pixel registers (41_estimator.md R189). -/
def execEstc (s : State) : Host.Outcome State Fault Refusal :=
  let e := estimate s.cfg (s.pixels.map Pixel.rgb)
  .next ((s.putEndpoints e.1 e.2).succeed)

/-- `FLATC`: flat test and fast-path endpoints of pixel 0 (41_estimator.md R190). -/
def execFlatc (s : State) : Host.Outcome State Fault Refusal :=
  let blk := s.pixels
  let c := blk.r0.q0.rgb
  .next ((((s.buildTables.putEndpoints (fastMax c) (fastMin c)).putMask fastMask).mapStatus
    (·.withFlat (isFlat s.cfg.flatCompare blk))).succeed)

end Sys2Proof.Machine
end

