-- ==== Sys2Proof/Machine/Refine.lean ====
section
/-! DEFINITION. Endpoint refinement (43_refine.md) and the command REFC. -/

namespace Sys2Proof.Machine

open Sys2Proof

/-- `W1[k]` with `W1 = {3, 0, 2, 1}` (43_refine.md R240). -/
def weight1 (k : BitVec 2) : Int :=
  match k.toNat with
  | 0 => 3
  | 1 => 0
  | 2 => 2
  | _ => 1

/-- The weights `w1_i` of a mask (43_refine.md R240). -/
def weights1 (mask : Word) : Tile Int := (unpackMask mask).map weight1

/-- The weights `w2_i = 3 - w1_i` (43_refine.md R240). -/
def weights2 (mask : Word) : Tile Int := (weights1 mask).map (3 - ·)

/-- The terms of the normal equations (43_refine.md R241). -/
structure NormalTerms where
  xx : Int
  yy : Int
  xy : Int
deriving DecidableEq, Repr

/-- `xx`, `yy` and `xy` of a mask, as plain sums (43_refine.md R241). -/
def normalTerms (mask : Word) : NormalTerms :=
  let w1 := weights1 mask
  let w2 := weights2 mask
  ⟨covariance w1 w1, covariance w2 w2, covariance w1 w2⟩

/-- `xx*yy - xy*xy` (43_refine.md R242). -/
def NormalTerms.det (n : NormalTerms) : Int := n.xx * n.yy - n.xy * n.xy

/-- The skip condition (43_refine.md R242). -/
def NormalTerms.degenerate (n : NormalTerms) : Bool := n.xx == 0 || n.yy == 0 || n.det == 0

/-- `frb` (43_refine.md R243). -/
def scaleRb (det : Int) : Flt := div32 (div32 (f32OfInt 93) (f32OfInt 255)) (f32OfInt det)

/-- `fg` (43_refine.md R243). -/
def scaleG (det : Int) : Flt := div32 (mul32 (scaleRb det) (f32OfInt 63)) (f32OfInt 31)

/-- The binary32 number 0.5. -/
def half32 : Flt := ⟨1, -1⟩

/-- `q(n, f, hi)` (43_refine.md R244). -/
def solveField (n : Int) (f : Flt) (hi : Int) : Int :=
  min (max (add32 (mul32 (f32OfInt n) f) half32).trunc 0) hi

/-- `At1[c]` or `At2[c]`: the weighted sum of a channel (43_refine.md R240). -/
def weightedSum (w t : Tile Int) : Int := covariance w t

/-- `nmax_c = At1*yy - At2*xy` (43_refine.md R244). -/
def solveMax (mask : Word) (t : Tile Int) : Int :=
  let n := normalTerms mask
  weightedSum (weights1 mask) t * n.yy - weightedSum (weights2 mask) t * n.xy

/-- `nmin_c = At2*xx - At1*xy` (43_refine.md R244). -/
def solveMin (mask : Word) (t : Tile Int) : Int :=
  let n := normalTerms mask
  weightedSum (weights2 mask) t * n.xx - weightedSum (weights1 mask) t * n.xy

/-- One solved endpoint: the three numerators quantised and packed (43_refine.md R244). -/
def solvedEndpoint (det nr ng nb : Int) : Half :=
  rgb565 (BitVec.ofInt 5 (solveField nr (scaleRb det) 31)) (BitVec.ofInt 6 (solveField ng (scaleG det) 63))
    (BitVec.ofInt 5 (solveField nb (scaleRb det) 31))

/-- (max16', min16') under `cfg.refineNumerics = Ref32` (43_refine.md R243, R244). -/
def solveRef (blk : Tile RGB) (mask : Word) : Half × Half :=
  let det := (normalTerms mask).det
  let r := channel RGB.r blk
  let g := channel RGB.g blk
  let b := channel RGB.b blk
  (solvedEndpoint det (solveMax mask r) (solveMax mask g) (solveMax mask b),
   solvedEndpoint det (solveMin mask r) (solveMin mask g) (solveMin mask b))

/-- (max16', min16') in the form `cfg.refineNumerics` selects: the rules, or the free value (43_refine.md R243, log
entry 9). -/
def solvePair (form : Numerics) (blk : Tile RGB) (mask : Word) : Half × Half :=
  match form with
  | .ref32 => solveRef blk mask
  | .uninterpreted => Config.freeRefined blk mask

/-- What `refine` returns (43_refine.md R245). -/
structure Refined where
  mx      : Half
  mn      : Half
  changed : Bool
  skipped : Bool
deriving DecidableEq, Repr

/-- `refine(blk, max16, min16, mask)` (43_refine.md R245). -/
def refine (form : Numerics) (blk : Tile RGB) (mx mn : Half) (mask : Word) : Refined :=
  if (normalTerms mask).degenerate then ⟨mx, mn, false, true⟩
  else
    let e := solvePair form blk mask
    ⟨e.1, e.2, e.1 != mx || e.2 != mn, false⟩

/-- `REFC`: refine `EP` against the pixel registers and `MASK` (43_refine.md R246). -/
def execRefc (s : State) : Host.Outcome State Fault Refusal :=
  let w := s.ep.value
  let x := refine s.cfg.refineNumerics (s.pixels.map Pixel.rgb) (ep0 w) (ep1 w) s.mask.value
  .next (((s.putEndpoints x.mx x.mn).mapStatus (·.withRefine x.changed x.skipped)).succeed)

end Sys2Proof.Machine
end

