-- ==== Sys2Proof/Machine/Codec.lean ====
section
/-! DEFINITION. The block encoder, endpoint ordering and the block decoder (45_block_codec.md), and the commands
ENC, DEC and ORDC. -/

namespace Sys2Proof.Machine

open Sys2Proof

/-! ### Endpoint ordering -/

/-- What `order` returns (45_block_codec.md R280). -/
structure Ordered where
  c0      : Half
  c1      : Half
  mask    : Word
  swapped : Bool
deriving DecidableEq, Repr

/-- `order(max16, min16, mask)`, an unsigned comparison of packed values (45_block_codec.md R280). -/
def orderEndpoints (mx mn : Half) (mask : Word) : Ordered :=
  if mx.toNat < mn.toNat then ⟨mn, mx, mask ^^^ 0x55555555, true⟩ else ⟨mx, mn, mask, false⟩

/-- The colour sub-block of an ordered pair and its mask (45_block_codec.md R281). -/
def Ordered.block (o : Ordered) : SubBlock := packColourBlock o.c0 o.c1 o.mask

/-! ### The block encoder -/

/-- What `encode_color` returns beside the sub-block, which is `ordered.block` (45_block_codec.md R282). -/
structure ColourResult where
  ordered : Ordered
  flat    : Bool
  changed : Bool
  skipped : Bool
deriving DecidableEq, Repr

/-- `eblk`: the block the estimator and the refiner see (45_block_codec.md R282, 41_estimator.md R196). -/
def estimatorInput (cfg : Cfg) (q : Quality) (blk : Tile RGB) : Tile RGB :=
  if q = .dithered ∧ cfg.preDither = true then ditherBlock blk else blk

/-- The path of a block that is not flat: estimate, match, refine, and the single re-match (45_block_codec.md
R282). -/
def encodeGeneral (cfg : Cfg) (q : Quality) (blk : Tile RGB) : ColourResult :=
  let eblk := estimatorInput cfg q blk
  let e := estimate cfg eblk
  let mask := matchColours cfg q blk (evalColours cfg.lerp13 e.1 e.2)
  let x := refine cfg.refineNumerics eblk e.1 e.2 mask
  let mask := if x.changed then matchColours cfg q blk (evalColours cfg.lerp13 x.mx x.mn) else mask
  ⟨orderEndpoints x.mx x.mn mask, false, x.changed, x.skipped⟩

/-- The fast path of a flat block (45_block_codec.md R282, 41_estimator.md R181). -/
def encodeFlat (c : RGB) : ColourResult :=
  ⟨orderEndpoints (fastMax c) (fastMin c) fastMask, true, false, false⟩

/-- `encode_color(blk, Q)` (45_block_codec.md R282). -/
def encodeColour (cfg : Cfg) (q : Quality) (blk : Tile Pixel) : ColourResult :=
  if isFlat cfg.flatCompare blk then encodeFlat blk.r0.q0.rgb else encodeGeneral cfg q (blk.map Pixel.rgb)

/-- `encode_block(blk, M, Q)` (45_block_codec.md R283). -/
def encodeBlock (cfg : Cfg) (m : Mode) (q : Quality) (blk : Tile Pixel) : Block :=
  let col := (encodeColour cfg q blk).ordered.block
  match m with
  | .bc1 => .bc1 col
  | .bc3 => .bc3 (encodeAlpha cfg.alphaBitOrder blk) col

/-! ### The decoder -/

/-- `decode_color(bytes8, bc3)` (45_block_codec.md R284). -/
def decodeColour (cfg : Cfg) (bc3 : Bool) (sb : SubBlock) : Tile Pixel :=
  let pal := decoderPalette cfg bc3 sb.c0 sb.c1
  (unpackMask sb.mask).map fun k => pal.get k.toFin

/-- `decode_block(bytes, M)` (45_block_codec.md R285). -/
def decodeBlock (cfg : Cfg) : Block → Tile Pixel
  | .bc1 c => decodeColour cfg false c
  | .bc3 a c => (decodeColour cfg true c).zipWith (fun p x => withAlpha p.rgb x) (decodeAlpha cfg.alphaBitOrder a)

/-- The block bytes a mode reads from the block registers (45_block_codec.md R287, 10_state.md R49). -/
def State.blockOf (s : State) : Mode → Block
  | .bc1 => .bc1 s.lowBlock
  | .bc3 => .bc3 s.lowBlock s.highBlock

/-! ### Commands -/

/-- `ENC`: encode the pixel registers as one block (45_block_codec.md R286). -/
def execEnc (m : Mode) (q : Quality) (s : State) : Host.Outcome State Fault Refusal :=
  let x := encodeColour s.cfg q s.pixels
  .next (((((s.buildTables.putBlock (encodeBlock s.cfg m q s.pixels)).putEndpoints x.ordered.c0 x.ordered.c1).putMask
    x.ordered.mask).mapStatus
      fun st => ((st.withFlat x.flat).withRefine x.changed x.skipped).withSwapped x.ordered.swapped).succeed)

/-- `DEC`: decode the block registers into the pixel registers (45_block_codec.md R287). -/
def execDec (m : Mode) (s : State) : Host.Outcome State Fault Refusal :=
  .next ((s.buildTables.putPixels (decodeBlock s.cfg (s.blockOf m))).succeed)

/-- `ORDC`: order `EP` and `MASK` and pack them into the block registers (45_block_codec.md R288). -/
def execOrdc (m : Mode) (s : State) : Host.Outcome State Fault Refusal :=
  let w := s.ep.value
  let o := orderEndpoints (ep0 w) (ep1 w) s.mask.value
  let s := match m with
    | .bc1 => s.putLowBlock o.block
    | .bc3 => s.putHighBlock o.block
  .next ((((s.putEndpoints o.c0 o.c1).putMask o.mask).mapStatus (·.withSwapped o.swapped)).succeed)

end Sys2Proof.Machine
end

