-- ==== Sys2Proof/Machine/Frame.lean ====
section
/-! DEFINITION. Frame geometry, the frame checks, tiles in the pixel buffer (46_frame.md, 60_exceptions.md R343),
and the commands ENCIMG, DECIMG, GETBLK and PUTBLK. -/

namespace Sys2Proof.Machine

open Sys2Proof

/-! ### Geometry -/

/-- The width and height of a frame in pixels (46_frame.md R310). -/
structure Frame where
  w : Nat
  h : Nat
deriving DecidableEq, Repr

/-- `BW`, tiles in a row (46_frame.md R310). -/
def Frame.bw (f : Frame) : Nat := (f.w + 3) / 4

/-- `BH`, rows of tiles (46_frame.md R310). -/
def Frame.bh (f : Frame) : Nat := (f.h + 3) / 4

/-- `NB`, the number of tiles (46_frame.md R310). -/
def Frame.nb (f : Frame) : Nat := f.bw * f.bh

/-- `BS`, the bytes of a block (46_frame.md R310). -/
def Mode.blockSize (m : Mode) : Nat :=
  match m with
  | .bc1 => 8
  | .bc3 => 16

/-- `PBSIZE` (46_frame.md R310). -/
def Frame.pbSize (f : Frame) : Nat := 4 * f.w * f.h

/-- `CBSIZE` (46_frame.md R310). -/
def Frame.cbSize (f : Frame) (m : Mode) : Nat := f.nb * Mode.blockSize m

/-- The offset in `PB` of pixel (x, y), `4·(y·W + x)` (20_memory.md R82). -/
def Frame.pixelAddr (f : Frame) (x y : Nat) : Nat := 4 * (y * f.w + x)

/-! ### The frame checks -/

/-- The commands that run `check_frame` (60_exceptions.md R343). -/
inductive FrameCommand where
  | encimg (m : Mode)
  | decimg (m : Mode)
  | getblk
  | putblk
deriving DecidableEq, Repr

/-- The mode of a command that works between both buffers, ENCIMG or DECIMG (60_exceptions.md R343, steps 3, 5). -/
def FrameCommand.wholeFrame : FrameCommand → Option Mode
  | .encimg m => some m
  | .decimg m => some m
  | .getblk => none
  | .putblk => none

/-- The largest size a u32 length describes, 2^32 − 1 (60_exceptions.md R346). -/
def maxLength : Nat := 2 ^ 32 - 1

/-- `W` and `H` as s32 values (10_state.md R41). -/
def State.frame (s : State) : Frame := ⟨s.imgW.toInt.toNat, s.imgH.toInt.toNat⟩

/-- Step 3 (60_exceptions.md R343, R344): a buffer the command needs is not supplied. -/
def nullBuffer (c : FrameCommand) (s : State) : Bool :=
  !s.pbValid || (c.wholeFrame.isSome && !s.cbValid)

/-- Step 4 (60_exceptions.md R343, R345): a dimension that is 0 or less as an s32. -/
def badDimension (s : State) : Bool := decide (s.imgW.toInt ≤ 0) || decide (s.imgH.toInt ≤ 0)

/-- Step 5 (60_exceptions.md R343, R346): a size above 2^32 − 1. -/
def sizeOverflow (c : FrameCommand) (f : Frame) : Bool :=
  decide (maxLength < f.pbSize) ||
    match c.wholeFrame with
    | some m => decide (maxLength < f.cbSize m)
    | none => false

/-- Step 6 (60_exceptions.md R343, R347): `PB_LEN < PBSIZE`. -/
def pbUndersize (s : State) (f : Frame) : Bool := decide (s.pbLen.toNat < f.pbSize)

/-- Step 7 (60_exceptions.md R343, R348): ENCIMG with `CB_LEN < CBSIZE`. -/
def cbUndersize (c : FrameCommand) (s : State) (f : Frame) : Bool :=
  match c with
  | .encimg m => decide (s.cbLen.toNat < f.cbSize m)
  | .decimg _ => false
  | .getblk => false
  | .putblk => false

/-- `BX >= 0 and BY >= 0 and 4*BX+3 < W and 4*BY+3 < H` (46_frame.md R311, 60_exceptions.md R343 step 8). -/
def tileInside (s : State) : Bool :=
  decide (0 ≤ s.bX.toInt) && decide (0 ≤ s.bY.toInt) &&
    decide (4 * s.bX.toInt + 3 < s.imgW.toInt) && decide (4 * s.bY.toInt + 3 < s.imgH.toInt)

/-- Step 8 (60_exceptions.md R343, R349): a tile not wholly in the frame, or under `cfg.edgePolicy = Reject` a
frame that is not a multiple of 4 each way. -/
def outOfRange (c : FrameCommand) (s : State) (f : Frame) : Bool :=
  match c.wholeFrame with
  | none => !tileInside s
  | some _ => s.cfg.edgePolicy == .reject && (f.w % 4 != 0 || f.h % 4 != 0)

/-- Step 9 (60_exceptions.md R343, R350): DECIMG with `CB_LEN < CBSIZE`. -/
def cbShort (c : FrameCommand) (s : State) (f : Frame) : Bool :=
  match c with
  | .decimg m => decide (s.cbLen.toNat < f.cbSize m)
  | .encimg _ => false
  | .getblk => false
  | .putblk => false

/-- `check_frame`: steps 3 to 9 in their fixed order, the first failing check or none (60_exceptions.md R343).
It reads no data register and no buffer byte. -/
def checkFrame (c : FrameCommand) (s : State) : Option CmdError :=
  let f := s.frame
  if nullBuffer c s then some .nullBuffer
  else if badDimension s then some .badDimension
  else if sizeOverflow c f then some .sizeOverflow
  else if pbUndersize s f then some .pbUndersize
  else if cbUndersize c s f then some .cbUndersize
  else if outOfRange c s f then some .blockOutOfRange
  else if cbShort c s f then some .cbShort
  else none

/-! ### Tiles of the pixel buffer -/

/-- The offsets of the pixels of a tile: pixel `i = 4·dy + dx` is the frame's pixel (4·bx + dx, 4·by + dy)
(46_frame.md R311). -/
def tileAddrs (f : Frame) (bx bY : Nat) : Tile Nat :=
  .tabulate fun dx dy => f.pixelAddr (4 * bx + dx) (4 * bY + dy)

/-- The offsets of the pixels of an edge tile with the coordinates clamped to the frame (46_frame.md R312). -/
def clampedAddrs (f : Frame) (bx bY : Nat) : Tile Nat :=
  .tabulate fun dx dy => f.pixelAddr (min (4 * bx + dx) (f.w - 1)) (min (4 * bY + dy) (f.h - 1))

/-- The offsets of the pixels of a tile that lie inside the frame; the others are discarded (46_frame.md R314). -/
def insideAddrs (f : Frame) (bx bY : Nat) : Tile (Option Nat) :=
  .tabulate fun dx dy =>
    if 4 * bx + dx < f.w ∧ 4 * bY + dy < f.h then some (f.pixelAddr (4 * bx + dx) (4 * bY + dy)) else none

/-- The pixel at an offset of `PB` (20_memory.md R83). -/
def readPixel (m : Memory) (a : Nat) : Except Fault Pixel :=
  match readQuad .pb m a with
  | .error e => .error e
  | .ok q => .ok (bytesPixel q)

/-- The pixels at sixteen offsets of `PB`. -/
def readTile (m : Memory) (addrs : Tile Nat) : Except Fault (Tile Pixel) := addrs.traverse (readPixel m)

/-- A pixel written at an offset of `PB`, or discarded where there is none (20_memory.md R83). -/
def writePixel (m : Memory) (x : Option Nat × Pixel) : Memory :=
  match x.1 with
  | some a => m.writeBytes a (pixelBytes x.2).toList
  | none => m

/-- The pixels of a tile written at their offsets of `PB`, those that have one. -/
def writeTile (m : Memory) (addrs : Tile (Option Nat)) (t : Tile Pixel) : Memory :=
  (addrs.toList.zip t.toList).foldl writePixel m

/-! ### Loops over the tiles -/

/-- The block of tile number `n` in raster order, (n mod BW, n div BW), read from `PB` as ENCIMG reads it
(46_frame.md R312, R313). -/
def frameTile (f : Frame) (pb : Memory) (n : Nat) : Except Fault (Tile Pixel) :=
  readTile pb (clampedAddrs f (n % f.bw) (n / f.bw))

/-- The loop of ENCIMG over `count` tiles from tile number `n`: the blocks are written to `CB` in tile raster
order (46_frame.md R313, 20_memory.md R84). -/
def encodeTiles (cfg : Cfg) (m : Mode) (q : Quality) (f : Frame) (pb : Memory) :
    (count n : Nat) → (cb : Memory) → Except Fault Memory
  | 0, _, cb => .ok cb
  | count + 1, n, cb =>
    match frameTile f pb n with
    | .error e => .error e
    | .ok t =>
      encodeTiles cfg m q f pb count (n + 1) (cb.writeBytes (n * Mode.blockSize m) (encodeBlock cfg m q t).toList)

/-- A sub-block read from `CB` at an offset. -/
def readSubBlock (cb : Memory) (a : Nat) : Except Fault SubBlock :=
  match readQuad .cb cb a with
  | .error e => .error e
  | .ok lo =>
    match readQuad .cb cb (a + 4) with
    | .error e => .error e
    | .ok hi => .ok ⟨lo, hi⟩

/-- `MemRead(CB, n·BS, BS)` as a block (46_frame.md R315, 20_memory.md R84). -/
def readBlock (m : Mode) (cb : Memory) (n : Nat) : Except Fault Block :=
  match m with
  | .bc1 =>
    match readSubBlock cb (n * 8) with
    | .error e => .error e
    | .ok c => .ok (.bc1 c)
  | .bc3 =>
    match readSubBlock cb (n * 16) with
    | .error e => .error e
    | .ok a =>
      match readSubBlock cb (n * 16 + 8) with
      | .error e => .error e
      | .ok c => .ok (.bc3 a c)

/-- The loop of DECIMG over `count` tiles from tile number `n` (46_frame.md R314, R315). -/
def decodeTiles (cfg : Cfg) (m : Mode) (f : Frame) (cb : Memory) :
    (count n : Nat) → (pb : Memory) → Except Fault Memory
  | 0, _, pb => .ok pb
  | count + 1, n, pb =>
    match readBlock m cb n with
    | .error e => .error e
    | .ok b =>
      decodeTiles cfg m f cb count (n + 1)
        (writeTile pb (insideAddrs f (n % f.bw) (n / f.bw)) (decodeBlock cfg b))

/-! ### Commands -/

/-- `ENCIMG`: compress the frame in `PB` into `CB` (46_frame.md R313). -/
def execEncimg (m : Mode) (q : Quality) (s : State) : Host.Outcome State Fault Refusal :=
  match checkFrame (.encimg m) s with
  | some e => .next (s.raise e)
  | none =>
    match encodeTiles s.cfg m q s.frame s.pb s.frame.nb 0 s.cb with
    | .error e => .fault e
    | .ok cb => .next ((s.buildTables.setBuffer .cb cb).succeed)

/-- `DECIMG`: decompress `CB` into the frame in `PB` (46_frame.md R315). -/
def execDecimg (m : Mode) (s : State) : Host.Outcome State Fault Refusal :=
  match checkFrame (.decimg m) s with
  | some e => .next (s.raise e)
  | none =>
    match decodeTiles s.cfg m s.frame s.cb s.frame.nb 0 s.pb with
    | .error e => .fault e
    | .ok pb => .next ((s.buildTables.setBuffer .pb pb).succeed)

/-- The offsets of the tile that `BX` and `BY` select (10_state.md R42, 46_frame.md R311). -/
def State.selectedTile (s : State) : Tile Nat := tileAddrs s.frame s.bX.toInt.toNat s.bY.toInt.toNat

/-- `GETBLK`: load one tile of `PB` into the pixel registers (46_frame.md R316). -/
def execGetblk (s : State) : Host.Outcome State Fault Refusal :=
  match checkFrame .getblk s with
  | some e => .next (s.raise e)
  | none =>
    match readTile s.pb s.selectedTile with
    | .error e => .fault e
    | .ok t => .next ((s.putPixels t).succeed)

/-- `PUTBLK`: store the pixel registers as one tile of `PB` (46_frame.md R317). -/
def execPutblk (s : State) : Host.Outcome State Fault Refusal :=
  match checkFrame .putblk s with
  | some e => .next (s.raise e)
  | none => .next ((s.setBuffer .pb (writeTile s.pb (s.selectedTile.map some) s.pixels)).succeed)

end Sys2Proof.Machine
end

