-- ==== Sys2Proof/Machine/Dispatch.lean ====
section
/-! DEFINITION. One arm per command, each one call of its meaning. -/

namespace Sys2Proof.Machine

open Sys2Proof

/-- What a legal command does: the opcode map's semantics column (30_encoding.md R119). -/
def exec (i : Instr) (s : State) : Host.Outcome State Fault Refusal :=
  match i with
  | .init => Sys2Proof.Machine.execInit s
  | .enc m q => Sys2Proof.Machine.execEnc m q s
  | .dec m => Sys2Proof.Machine.execDec m s
  | .encimg m q => Sys2Proof.Machine.execEncimg m q s
  | .decimg m => Sys2Proof.Machine.execDecimg m s
  | .getblk => Sys2Proof.Machine.execGetblk s
  | .putblk => Sys2Proof.Machine.execPutblk s
  | .estc => Sys2Proof.Machine.execEstc s
  | .palc => Sys2Proof.Machine.execPalc s
  | .matchc q => Sys2Proof.Machine.execMatchc q s
  | .refc => Sys2Proof.Machine.execRefc s
  | .enca => Sys2Proof.Machine.execEnca s
  | .flatc => Sys2Proof.Machine.execFlatc s
  | .ordc m => Sys2Proof.Machine.execOrdc m s

end Sys2Proof.Machine
end

