-- ==== Sys2Proof/Machine/Bus.lean ====
section
/-! DEFINITION. What one host access does to the unit: register reads and writes (10_state.md R33), the command a
`CMD` write runs (R34), buffer accesses (20_memory.md R81), and the two resets (70_reset_and_hazards.md R370). -/

namespace Sys2Proof.Machine

open Sys2Proof

/-- The architectural error of a rejected word (30_encoding.md R120, 60_exceptions.md R342). -/
def decodeErrorOf : DecodeError → CmdError
  | .reservedOpcode => .reservedOpcode
  | .reservedField => .reservedField

/-- A host write of `CMD`: the whole word is stored, then the command runs once to completion, or the reserved
word raises its error (10_state.md R34, 30_encoding.md R120, 70_reset_and_hazards.md R374). -/
def runCommand (w : Word) (s : State) : Host.Outcome State Fault Refusal :=
  match decode w with
  | .error e => .next ((s.write .cmd w).raise (decodeErrorOf e))
  | .ok i => exec i (s.write .cmd w)

/-- The check of a register access: an aligned offset inside the window, or why it is refused (10_state.md R32,
R33, 60_exceptions.md R361). -/
def refusedOffset (offset : Nat) : Option Refusal :=
  if offset % 4 ≠ 0 then some (.misaligned offset)
  else if regWindow ≤ offset then some (.outsideWindow offset)
  else none

/-- `WR`: a 32-bit register write; "A write to a reserved offset has no effect" (10_state.md R33). -/
def hostWrite (offset : Nat) (v : Word) (s : State) : Host.Outcome State Fault Refusal :=
  match refusedOffset offset with
  | some r => .refused r
  | none =>
    match regOfWordNumber (offset / 4) with
    | none => .next s
    | some .cmd => runCommand v s
    | some r => .next (s.write r v)

/-- `RD`: a 32-bit register read; "A read of a reserved offset returns 0x00000000" (10_state.md R33). -/
def hostRead (offset : Nat) (s : State) : Host.Outcome State Fault Refusal :=
  match refusedOffset offset with
  | some r => .refused r
  | none =>
    match regOfWordNumber (offset / 4) with
    | none => .next { s with rdata := .word 0 }
    | some r => .next { s with rdata := .word (s.read r) }

/-- `WRB`: buffer bytes written directly (20_memory.md R81), at offsets that exist (R80). -/
def hostWriteBuf (buf : Buf) (offset : Nat) (bytes : List Byte) (s : State) : Host.Outcome State Fault Refusal :=
  if bufferSize < offset + bytes.length then .fault (.noSuchByte buf (max offset bufferSize))
  else .next (s.setBuffer buf ((s.buffer buf).writeBytes offset bytes))

/-- `RDB`: buffer bytes read directly (20_memory.md R81), at offsets that exist (R80). -/
def hostReadBuf (buf : Buf) (offset count : Nat) (s : State) : Host.Outcome State Fault Refusal :=
  if bufferSize < offset + count then .fault (.noSuchByte buf (max offset bufferSize))
  else
    match readBytes buf (s.buffer buf) offset count with
    | .error e => .fault e
    | .ok bs => .next { s with rdata := .bytes bs }

/-- The platform reset input: the unit's registers and `LUT_READY` go to their reset values and the contents of
`PB` and `CB` are unchanged (10_state.md R52, 70_reset_and_hazards.md R370, R371). -/
def State.platformReset (s : State) : State :=
  { State.reset with cfg := s.cfg, pb := s.pb, cb := s.cb, host := s.host, rdata := s.rdata }

/-- Power-on reset: as the platform reset, with every buffer byte unspecified (20_memory.md R81). -/
def State.powerOn (s : State) : State :=
  { State.reset with cfg := s.cfg, host := s.host, rdata := s.rdata }

/-- One host access, or one reset event. -/
def access (a : HostAccess) (s : State) : Host.Outcome State Fault Refusal :=
  match a with
  | .write offset v => hostWrite offset v s
  | .read offset => hostRead offset s
  | .narrow offset => .refused (.narrow offset)
  | .writeBuf buf offset bytes => hostWriteBuf buf offset bytes s
  | .readBuf buf offset count => hostReadBuf buf offset count s
  | .platformReset => .next s.platformReset
  | .powerOn => .next s.powerOn

/-- The state with its oldest pending access taken off, for that access to run in. -/
def State.dropAccess (s : State) : State := { s with host := s.host.tail }

end Sys2Proof.Machine
end

