-- ==== Sys2Proof/Machine/Step.lean ====
section
/-! DEFINITION. One step of a unit: the oldest pending host access takes effect (20_memory.md R89). With none pending
the unit is idle (60_exceptions.md R359). -/

namespace Sys2Proof.Machine

open Sys2Proof

/-- One step (log entry 2). -/
def step (s : State) : Host.Outcome State Fault Refusal :=
  match s.host with
  | [] => .next s
  | a :: _ => access a s.dropAccess

/-- `s` with the host's next access a `CMD` write of the word `w`, so that the next step runs exactly that command
(10_state.md R34, log entry 2). -/
def State.withFetchWord (s : State) (nbits w : Nat) : State :=
  { s with host := .write (Reg.offset .cmd) (BitVec.ofNat 32 (w % 2 ^ nbits)) :: s.host }

end Sys2Proof.Machine
end

