-- ==== Sys2Proof/Machine/Assembler.lean ====
section
/-! DEFINITION. The assembler syntax of 30_encoding.md R123: the text of a command, assembly and disassembly, and the
host programs written with the host pseudo-instructions, run over a unit (log entries 17 and 20). -/

namespace Sys2Proof.Machine

open Sys2Proof

/-- The mnemonic of a command (30_encoding.md R119). -/
def mnemonic : Instr → String
  | .init => "INIT"
  | .enc _ _ => "ENC"
  | .dec _ => "DEC"
  | .encimg _ _ => "ENCIMG"
  | .decimg _ => "DECIMG"
  | .getblk => "GETBLK"
  | .putblk => "PUTBLK"
  | .estc => "ESTC"
  | .palc => "PALC"
  | .matchc _ => "MATCHC"
  | .refc => "REFC"
  | .enca => "ENCA"
  | .flatc => "FLATC"
  | .ordc _ => "ORDC"

/-- A command as text: "its mnemonic, then `.BC3` if M = 1, then `.D` if Q = 1" (30_encoding.md R123). -/
def commandText (i : Instr) : String :=
  mnemonic i ++ (if i.fields.m then ".BC3" else "") ++ (if i.fields.q then ".D" else "")

/-- The other spelling of a command with M = 0: "The suffix `.BC1` is accepted as the same as no suffix"
(30_encoding.md R123). -/
def commandTextBc1 (i : Instr) : Option String :=
  if i.fields.m then none else some (mnemonic i ++ ".BC1" ++ (if i.fields.q then ".D" else ""))

/-- Every command with every M and Q it accepts: the legal words of 30_encoding.md R121. -/
def allCommands : List Instr :=
  [.init, .getblk, .putblk, .estc, .palc, .refc, .enca, .flatc,
   .dec .bc1, .dec .bc3, .decimg .bc1, .decimg .bc3, .ordc .bc1, .ordc .bc3] ++
  [.enc .bc1 .fast, .enc .bc3 .fast, .enc .bc1 .dithered, .enc .bc3 .dithered,
   .encimg .bc1 .fast, .encimg .bc3 .fast, .encimg .bc1 .dithered, .encimg .bc3 .dithered,
   .matchc .fast, .matchc .dithered]

/-- A command line assembled to the word of its `WR CMD, word` (30_encoding.md R123). -/
def assemble (line : String) : Option Word :=
  (allCommands.find? fun i => line == commandText i || some line == commandTextBc1 i).map encode

/-- A hexadecimal digit. -/
def hexDigit (n : Nat) : Char :=
  ['0', '1', '2', '3', '4', '5', '6', '7', '8', '9', 'a', 'b', 'c', 'd', 'e', 'f'].getD n '0'

/-- The eight hexadecimal digits of a word. -/
def hexWord (w : Word) : String :=
  String.ofList ([7, 6, 5, 4, 3, 2, 1, 0].map fun k => hexDigit (w.toNat / 16 ^ k % 16))

/-- Disassembly, "the inverse map": a rejected word is `.word 0x........` (30_encoding.md R123). -/
def disassemble (w : Word) : String :=
  match decode w with
  | .ok i => commandText i
  | .error _ => ".word 0x" ++ hexWord w

/-- A line of a host program, its labels resolved to line numbers (30_encoding.md R123). -/
inductive HostOp where
  /-- A command line, or `.word` for any other word: one `WR CMD, word`. -/
  | command (w : Word)
  /-- `WR <reg>, <imm32>`. -/
  | wr (r : Reg) (v : Word)
  /-- `RD <reg>`. -/
  | rd (r : Reg)
  /-- `WRB PB|CB, <offset>, <hex bytes>`. -/
  | wrb (buf : Buf) (offset : Nat) (bytes : List Byte)
  /-- `RDB PB|CB, <offset>, <n>`. -/
  | rdb (buf : Buf) (offset count : Nat)
  /-- `IF <reg>.<field> == <v> GOTO <label>`, the field being `width` bits from bit `lo`. -/
  | ifGoto (r : Reg) (lo width v target : Nat)
deriving DecidableEq, Repr

/-- A host running a program over a unit: the lines, the line to run next, and the unit. -/
structure HostRun where
  lines  : List HostOp
  cursor : Nat
  unit   : State
deriving DecidableEq, Repr

/-- The line after the outcome of an access. -/
def HostRun.after (h : HostRun) (o : Host.Outcome State Fault Refusal) : Host.Outcome HostRun Fault Refusal :=
  match o with
  | .next s => .next { h with cursor := h.cursor + 1, unit := s }
  | .fault e => .fault e
  | .refused r => .refused r

/-- One line of a host program (30_encoding.md R123, 10_state.md R31: "The host's own program does all sequencing,
repetition and branching"). Past the last line nothing happens. -/
def HostRun.step (h : HostRun) : Host.Outcome HostRun Fault Refusal :=
  match h.lines[h.cursor]? with
  | none => .next h
  | some (.command w) => h.after (access (.write (Reg.offset .cmd) w) h.unit)
  | some (.wr r v) => h.after (access (.write r.offset v) h.unit)
  | some (.rd r) => h.after (access (.read r.offset) h.unit)
  | some (.wrb buf offset bytes) => h.after (access (.writeBuf buf offset bytes) h.unit)
  | some (.rdb buf offset count) => h.after (access (.readBuf buf offset count) h.unit)
  | some (.ifGoto r lo width v target) =>
    if (h.unit.read r).toNat / 2 ^ lo % 2 ^ width = v then .next { h with cursor := target }
    else .next { h with cursor := h.cursor + 1 }

end Sys2Proof.Machine
end

