-- ==== Sys2Proof/Machine/Units.lean ====
section
/-! DEFINITION. A system of `N_UNITS` units (00_scope.md R6, 10_state.md R54, 60_exceptions.md R357). The units share
only the constant tables, so a system is a list of unit states and a step of it is a step of one unit (log entry
13). -/

namespace Sys2Proof.Machine

open Sys2Proof

/-- The units of a system. -/
structure System where
  units : List State
deriving DecidableEq, Repr

/-- `N_UNITS` is at least 1 (00_scope.md R6). -/
def System.wf (sys : System) : Bool := sys.units.length != 0

/-- `n` units after power-on reset. -/
def System.reset (n : Nat) : System := ⟨List.replicate n State.reset⟩

/-- A step of unit `k` of a system; the others are as they were (10_state.md R54). -/
def System.stepUnit (sys : System) (k : Fin sys.units.length) : Host.Outcome System Fault Refusal :=
  match step (sys.units.get k) with
  | .next s => .next ⟨sys.units.set k.val s⟩
  | .fault e => .fault e
  | .refused r => .refused r

end Sys2Proof.Machine
end

