-- ==== Sys2Proof/Safety.lean ====
section
/-! DEFINITION. The terms claims are stated in: the invariant of a unit, the data registers a command reads and the
runs the spec defines (60_exceptions.md R360), what a command may write, and what a frame leaves unchanged. -/

namespace Sys2Proof.Machine

open Sys2Proof

/-! ### The invariant -/

/-- The pairs of `STATUS.ERR` and `STATUS.DETAIL` that are produced: no error, or a row of the table of detail codes
(60_exceptions.md R342). -/
def Status.codesLegal (st : Status) : Bool :=
  (st.err == 0 && st.detail == 0) ||
    (st.err == 1 && decide (1 ≤ st.detail.toNat) && decide (st.detail.toNat ≤ 8)) ||
    (st.err == 2 && st.detail == 1)

/-- The invariant of a unit: both buffers are in canonical form (20_memory.md R80), the reserved bits of `BUFCFG`
are 0 (10_state.md R43), and `STATUS` holds a pair of codes that is produced (60_exceptions.md R342), which is an
error only where `ERR_SEEN` is set (10_state.md R37). -/
structure State.Inv (s : State) : Prop where
  pbForm   : s.pb.wf
  cbForm   : s.cb.wf
  bufcfg   : s.bufcfg.toNat < 4
  codes    : s.status.codesLegal = true
  seen     : s.status.err ≠ 0 → s.status.errSeen = true

/-! ### Unspecified registers -/

/-- The value of a register as the spec's model holds it, `Option u32`: none while it is unspecified
(10_state.md R53). -/
def State.option (s : State) (r : Reg) : Option Word := if s.specified r then some (s.read r) else none

/-- `PIX0`–`PIX15`. -/
def pixRegs : List Reg := Tile.indices.toList.map .pix

/-- The data registers a command reads as operands: the "Operands" line of its rule. -/
def operandRegs : Instr → List Reg
  | .init => []
  | .enc _ _ => pixRegs
  | .dec .bc1 => [.blk 0, .blk 1]
  | .dec .bc3 => [.blk 0, .blk 1, .blk 2, .blk 3]
  | .encimg _ _ => []
  | .decimg _ => []
  | .getblk => []
  | .putblk => pixRegs
  | .estc => pixRegs
  | .palc => [.ep]
  | .matchc _ => pixRegs ++ [.pal 0, .pal 1, .pal 2, .pal 3]
  | .refc => pixRegs ++ [.ep, .mask]
  | .enca => pixRegs
  | .flatc => pixRegs
  | .ordc _ => [.ep, .mask]

/-- The check of a frame command before it reads its operands, "Validation (rule R343) runs before any operand is
read" (60_exceptions.md R360); none for the other commands. -/
def validation (i : Instr) (s : State) : Option CmdError :=
  match i with
  | .encimg m _ => checkFrame (.encimg m) s
  | .decimg m => checkFrame (.decimg m) s
  | .getblk => checkFrame .getblk s
  | .putblk => checkFrame .putblk s
  | .init => none
  | .enc _ _ => none
  | .dec _ => none
  | .estc => none
  | .palc => none
  | .matchc _ => none
  | .refc => none
  | .enca => none
  | .flatc => none
  | .ordc _ => none

/-- The spec defines what a command does in this state: it fails validation, or every data register it reads is
specified. Where this is false the spec's model stops with `UNINIT` (60_exceptions.md R360) and this model goes on
with the value it holds (log entry 3). -/
def commandDefined (i : Instr) (s : State) : Bool :=
  (validation i s).isSome || (operandRegs i).all s.specified

/-- The spec defines what a host access does in this state: it reads no unspecified data register
(60_exceptions.md R360). -/
def accessDefined (a : HostAccess) (s : State) : Bool :=
  match a with
  | .write offset w =>
    if offset = Reg.offset .cmd then
      match decode w with
      | .ok i => commandDefined i s
      | .error _ => true
    else true
  | .read offset =>
    match regOfWordNumber (offset / 4) with
    | some r => s.specified r
    | none => true
  | .narrow _ => true
  | .writeBuf _ _ _ => true
  | .readBuf _ _ _ => true
  | .platformReset => true
  | .powerOn => true

/-- The spec defines the next step: the run has not reached a point from which "the host program is outside this
spec" (10_state.md R53). -/
def SpecDefined (s : State) : Prop :=
  match s.host with
  | [] => True
  | a :: _ => accessDefined a s.dropAccess = true

/-- The state without its data registers. -/
def State.control (s : State) : State :=
  { s with ep := .afterReset, mask := .afterReset, pix := .fill .afterReset, pal := .fill .afterReset,
           blk := .fill .afterReset }

/-- Two states the spec's model does not tell apart: they differ at most in the bits this model holds for
unspecified data registers (10_state.md R53). -/
def SpecEqual (s t : State) : Prop := s.control = t.control ∧ ∀ r : Reg, s.option r = t.option r

/-- Two outcomes the spec's model does not tell apart. -/
def OutcomeEqual (x y : Host.Outcome State Fault Refusal) : Prop :=
  match x, y with
  | .next s, .next t => SpecEqual s t
  | .fault e, .fault e' => e = e'
  | .refused r, .refused r' => r = r'
  | _, _ => False

/-! ### Frames -/

/-- The data registers a command writes: the "writes" of its rule's "Operands" line. -/
def writtenRegs : Instr → List Reg
  | .init => []
  | .enc .bc1 _ => [.blk 0, .blk 1, .ep, .mask]
  | .enc .bc3 _ => [.blk 0, .blk 1, .blk 2, .blk 3, .ep, .mask]
  | .dec _ => pixRegs
  | .encimg _ _ => []
  | .decimg _ => []
  | .getblk => pixRegs
  | .putblk => []
  | .estc => [.ep]
  | .palc => [.pal 0, .pal 1, .pal 2, .pal 3]
  | .matchc _ => [.mask]
  | .refc => [.ep]
  | .enca => [.blk 0, .blk 1]
  | .flatc => [.ep, .mask]
  | .ordc .bc1 => [.ep, .mask, .blk 0, .blk 1]
  | .ordc .bc3 => [.ep, .mask, .blk 2, .blk 3]

/-- The four flags of `STATUS` that single-block commands report (10_state.md R39). -/
inductive Flag where
  | refChanged
  | refSkipped
  | flat
  | swapped
deriving DecidableEq, Repr

/-- The value of a flag. -/
def Status.flag (st : Status) : Flag → Bool
  | .refChanged => st.refChanged
  | .refSkipped => st.refSkipped
  | .flat => st.flat
  | .swapped => st.swapped

/-- The flags a command writes when it succeeds, by the last column of the table of `STATUS` fields (10_state.md
R35, R39). -/
def writtenFlags : Instr → List Flag
  | .enc _ _ => [.refChanged, .refSkipped, .flat, .swapped]
  | .refc => [.refChanged, .refSkipped]
  | .flatc => [.flat]
  | .ordc _ => [.swapped]
  | .init => []
  | .dec _ => []
  | .encimg _ _ => []
  | .decimg _ => []
  | .getblk => []
  | .putblk => []
  | .estc => []
  | .palc => []
  | .matchc _ => []
  | .enca => []

/-- A command that uses the tables, or INIT: "uses" or "builds" in the LUT column (30_encoding.md R119). -/
def usesTables : Instr → Bool
  | .init => true
  | .enc _ _ => true
  | .dec _ => true
  | .encimg _ _ => true
  | .decimg _ => true
  | .palc => true
  | .flatc => true
  | .getblk => false
  | .putblk => false
  | .estc => false
  | .matchc _ => false
  | .refc => false
  | .enca => false
  | .ordc _ => false

/-- Every register but `STATUS` and those listed holds what it held, and is specified as it was. -/
def KeepsRegsExcept (regs : List Reg) (s t : State) : Prop :=
  ∀ r : Reg, r ≠ .status → r ∉ regs → t.read r = s.read r ∧ t.specified r = s.specified r

/-- Every flag but those listed is as it was, and so is `ERR_SEEN`. -/
def KeepsFlagsExcept (flags : List Flag) (s t : State) : Prop :=
  (∀ f : Flag, f ∉ flags → t.status.flag f = s.status.flag f) ∧ t.status.errSeen = s.status.errSeen

/-- The configuration, the host's pending accesses and its last answer are as they were. -/
def KeepsOutside (s t : State) : Prop := t.cfg = s.cfg ∧ t.host = s.host ∧ t.rdata = s.rdata

/-- Every byte of a buffer at an offset for which `inside` does not hold reads as before. -/
def KeepsBytesExcept (inside : Nat → Prop) (m m' : Memory) : Prop := ∀ a : Nat, ¬ inside a → m'.read a = m.read a

/-- Every byte of a buffer reads as before. -/
def KeepsBytes (m m' : Memory) : Prop := ∀ a : Nat, m'.read a = m.read a

/-- The offsets of the 64 bytes of a tile: four from the offset of each of its pixels (20_memory.md R82). -/
def inTile (addrs : Tile Nat) (a : Nat) : Prop := ∃ i : Fin 16, addrs.get i ≤ a ∧ a < addrs.get i + 4

/-- Every byte of the frame's pixels in `PB` has been written. -/
def PbWritten (s : State) : Prop := ∀ a : Nat, a < s.frame.pbSize → (s.pb.read a).isSome = true

/-- Every byte of the frame's blocks in `CB` has been written. -/
def CbWritten (m : Mode) (s : State) : Prop := ∀ a : Nat, a < s.frame.cbSize m → (s.cb.read a).isSome = true

end Sys2Proof.Machine
end

