-- ==== Sys2Proof/Certificates/Slice0/Obligations.lean ====
section
/-! DEFINITION. The statements for the provers. Each docstring names the rule of the spec it formalises.

Statements about a command hold in every state, also where a data register it reads is unspecified: that the command
then runs on the value the register holds is the model's choice (log entry 3), since the spec's model stops there with
`UNINIT` (60_exceptions.md R360). No statement rests on what that value is. A `CMD` write stands at the head of the
host's pending accesses, which is the model's own form of it (log entry 2). -/

open Sys2Proof Sys2Proof.Machine

/-! ### Reset, the step and the invariant -/

/-- 10_state.md R52: what a reset leaves, for the platform reset and for power-on reset. The registers the spec
leaves unspecified read as `none` in the spec's own view (R53). -/
def Obligations.ResetLeavesTheStatedValues : Prop :=
  ∀ (s : State) (rest : List HostAccess) (ev : HostAccess), ev = .platformReset ∨ ev = .powerOn →
    s.host = ev :: rest →
    ∃ t : State, step s = .next t ∧
      (∀ r ∈ [Reg.cmd, .status, .imgW, .imgH, .bX, .bY, .bufcfg, .pbLen, .cbLen], t.read r = 0) ∧
      t.lutReady = false ∧ t.option .ep = none ∧ t.option .mask = none ∧
      (∀ i : Fin 16, t.option (.pix i) = none) ∧ (∀ k : Fin 4, t.option (.pal k) = none) ∧
      (∀ j : Fin 4, t.option (.blk j) = none) ∧
      (ev = .platformReset → t.pb = s.pb ∧ t.cb = s.cb) ∧
      (ev = .powerOn → ∀ a : Nat, t.pb.read a = none ∧ t.cb.read a = none)

/-- The invariant holds after power-on reset. -/
def Obligations.ResetStateMeetsTheInvariant : Prop := State.reset.Inv

/-- Every step keeps the invariant: canonical buffers below 2^32 (20_memory.md R80), zero reserved bits of `BUFCFG`
(10_state.md R43), and only the pairs of codes of 60_exceptions.md R342, an error pair only with `ERR_SEEN` set. -/
def Obligations.EveryStepKeepsTheInvariant : Prop :=
  ∀ s t : State, s.Inv → step s = .next t → t.Inv

/-- A host write of `CMD` whose word decodes runs exactly that command, with the word stored (10_state.md R34) and
the access taken off the host's queue; with no access pending the unit is idle (log entry 2). -/
def Obligations.StepRunsTheDecodedCommand : Prop :=
  (∀ (s : State) (w : Word) (rest : List HostAccess) (i : Instr),
    s.host = .write 0 w :: rest → decode w = .ok i → step s = exec i { s with host := rest, cmd := w }) ∧
  ∀ s : State, s.host = [] → step s = .next s

/-- 10_state.md R37, R50, R53 and 00_scope.md R7: outside a reset event, no step clears `ERR_SEEN` or `LUT_READY`, or
makes a data register unspecified that was written, and no step at all changes the configuration. -/
def Obligations.StickyBitsClearOnlyAtReset : Prop :=
  ∀ s t : State, step s = .next t →
    t.cfg = s.cfg ∧
    (s.host.head? ≠ some .platformReset → s.host.head? ≠ some .powerOn →
      (s.status.errSeen = true → t.status.errSeen = true) ∧ (s.lutReady = true → t.lutReady = true) ∧
      ∀ r : Reg, s.specified r = true → t.specified r = true)

/-- 10_state.md R39: a flag of the four changes only by a successful command that R35 names for it, or by reset. -/
def Obligations.FlagsChangeOnlyByNamedCommands : Prop :=
  ∀ (s t : State) (f : Flag), step s = .next t → t.status.flag f ≠ s.status.flag f →
    s.host.head? = some .platformReset ∨ s.host.head? = some .powerOn ∨
    ∃ (w : Word) (i : Instr), s.host.head? = some (.write 0 w) ∧ decode w = .ok i ∧ f ∈ writtenFlags i ∧
      t.status.err = 0 ∧ t.status.detail = 0

/-- The choice of log entry 3 is not seen by any run the spec defines: two states that differ only in the bits held
for unspecified registers step to outcomes that differ only so, where the step reads no unspecified register. -/
def Obligations.UnspecifiedBitsDoNotReachDefinedRuns : Prop :=
  ∀ s t : State, SpecEqual s t → SpecDefined s → OutcomeEqual (step s) (step t)

/-! ### Encoding -/

/-- A few words written out from 30_encoding.md R118 and R119. -/
def Obligations.SampleWordsDecode : Prop :=
  decode 0x00000001 = .ok .init ∧ decode 0x00000032 = .ok (.enc .bc3 .dithered) ∧
  decode 0x00000013 = .ok (.dec .bc3) ∧ decode 0x00000024 = .ok (.encimg .bc1 .dithered) ∧
  decode 0x0000002A = .ok (.matchc .dithered) ∧ decode 0x0000001E = .ok (.ordc .bc3) ∧
  decode 0x00000007 = .ok .putblk ∧ decode 0x0000000F = .error .reservedOpcode ∧
  decode 0x00000041 = .error .reservedField

/-- Decoding and encoding agree, both ways and over all 2^32 words: a word decodes to a command exactly when it is
the word of that command. -/
def Obligations.DecodeAndEncodeAgree : Prop :=
  ∀ (w : Word) (i : Instr), decode w = .ok i ↔ encode i = w

/-- 30_encoding.md R121: the legal words of each command, and no others. -/
def Obligations.LegalCommandWords : Prop :=
  ∀ w : Word,
    (decode w = .ok .init ↔ w = 0x01) ∧ (decode w = .ok .getblk ↔ w = 0x06) ∧ (decode w = .ok .putblk ↔ w = 0x07) ∧
    (decode w = .ok .estc ↔ w = 0x08) ∧ (decode w = .ok .palc ↔ w = 0x09) ∧ (decode w = .ok .refc ↔ w = 0x0B) ∧
    (decode w = .ok .enca ↔ w = 0x0C) ∧ (decode w = .ok .flatc ↔ w = 0x0D) ∧
    ((∃ m, decode w = .ok (.dec m)) ↔ w = 0x03 ∨ w = 0x13) ∧
    ((∃ m, decode w = .ok (.decimg m)) ↔ w = 0x05 ∨ w = 0x15) ∧
    ((∃ m, decode w = .ok (.ordc m)) ↔ w = 0x0E ∨ w = 0x1E) ∧
    ((∃ m q, decode w = .ok (.enc m q)) ↔ w = 0x02 ∨ w = 0x12 ∨ w = 0x22 ∨ w = 0x32) ∧
    ((∃ m q, decode w = .ok (.encimg m q)) ↔ w = 0x04 ∨ w = 0x14 ∨ w = 0x24 ∨ w = 0x34) ∧
    ((∃ q, decode w = .ok (.matchc q)) ↔ w = 0x0A ∨ w = 0x2A)

/-- 30_encoding.md R120: the reserved encodings and their errors, through the step that a `CMD` write is; every other
word runs a command. -/
def Obligations.ReservedWordsFail : Prop :=
  ∀ (s : State) (w : Word) (rest : List HostAccess), s.host = .write 0 w :: rest →
    let op := w.extractLsb' 0 4
    let m := w.getLsbD 4
    let q := w.getLsbD 5
    let rsv := w.extractLsb' 6 26
    let s0 : State := { s with host := rest, cmd := w }
    let badField := rsv ≠ 0 ∨ (m = true ∧ op ∉ [0x2, 0x3, 0x4, 0x5, 0xE]) ∨ (q = true ∧ op ∉ [0x2, 0x4, 0xA])
    ((op = 0x0 ∨ op = 0xF) → step s = .next (s0.raise .reservedOpcode)) ∧
    (¬ (op = 0x0 ∨ op = 0xF) → badField → step s = .next (s0.raise .reservedField)) ∧
    (¬ (op = 0x0 ∨ op = 0xF) → ¬ badField → ∃ i : Instr, decode w = .ok i ∧ step s = exec i s0)

/-- The bits of the six data formats stand where 30_encoding.md R111 to R116 and 10_state.md R45 and R49 put them, and
come out as they went in. RGB565: fields of the packed value. Colour block: eight bytes, `c0` and `c1` low byte first,
the mask low byte first. Mask: pixel `i` in bits 2i+1:2i. BC3 block: the alpha sub-block in bytes 0–7, the colour
sub-block, which is the BC1 block, in bytes 8–15. Alpha sub-block: the endpoints, then sixteen 3-bit indices in the
48-bit number read little-endian, or big-endian from the top. Pixel word: R, G, B, A from the low byte up, which is the
little-endian reading of the pixel's bytes. `EP`: `EP0` low. Block registers: byte `k` in register `k >> 2`, low byte
first. -/
def Obligations.DataFormatsRoundTrip : Prop :=
  (∀ (r : BitVec 5) (g : BitVec 6) (b : BitVec 5),
    red5 (rgb565 r g b) = r ∧ green6 (rgb565 r g b) = g ∧ blue5 (rgb565 r g b) = b ∧
    (rgb565 r g b).toNat = r.toNat * 2 ^ 11 + g.toNat * 2 ^ 5 + b.toNat) ∧
  (∀ (c0 c1 : Half) (mask : Word),
    (packColourBlock c0 c1 mask).toList.map BitVec.toNat =
      [c0.toNat % 256, c0.toNat / 256, c1.toNat % 256, c1.toNat / 256, mask.toNat % 256, mask.toNat / 2 ^ 8 % 256,
       mask.toNat / 2 ^ 16 % 256, mask.toNat / 2 ^ 24] ∧
    (packColourBlock c0 c1 mask).c0 = c0 ∧ (packColourBlock c0 c1 mask).c1 = c1 ∧
    (packColourBlock c0 c1 mask).mask = mask) ∧
  (∀ (mask : Word) (i : Fin 16), (maskIndex mask i).toNat = mask.toNat / 4 ^ i.val % 4) ∧
  (∀ (t : Tile (BitVec 2)) (i : Fin 16), maskIndex (packMask t) i = t.get i) ∧
  (∀ (cfg : Cfg) (q : Quality) (blk : Tile Pixel),
    (encodeBlock cfg .bc3 q blk).toList =
      (encodeAlpha cfg.alphaBitOrder blk).toList ++ (encodeBlock cfg .bc1 q blk).toList) ∧
  (∀ (sb : SubBlock) (i : Fin 16),
    let byte (k : Nat) : Nat := (sb.toList.getD k 0).toNat
    let F := byte 2 + byte 3 * 2 ^ 8 + byte 4 * 2 ^ 16 + byte 5 * 2 ^ 24 + byte 6 * 2 ^ 32 + byte 7 * 2 ^ 40
    let G := byte 2 * 2 ^ 40 + byte 3 * 2 ^ 32 + byte 4 * 2 ^ 24 + byte 5 * 2 ^ 16 + byte 6 * 2 ^ 8 + byte 7
    (sb.alphaIndex .lsbFirst i).toNat = F / 2 ^ (3 * i.val) % 8 ∧
    (sb.alphaIndex .msbFirst i).toNat = G / 2 ^ (45 - 3 * i.val) % 8) ∧
  (∀ (order : BitOrder) (a0 a1 : Byte) (t : Tile (BitVec 3)),
    (packAlphaBlock order a0 a1 t).toList[0]? = some a0 ∧ (packAlphaBlock order a0 a1 t).toList[1]? = some a1 ∧
    ∀ i : Fin 16, (packAlphaBlock order a0 a1 t).alphaIndex order i = t.get i) ∧
  (∀ p : Pixel,
    (packPixel p).toNat = p.r.toNat + p.g.toNat * 2 ^ 8 + p.b.toNat * 2 ^ 16 + p.a.toNat * 2 ^ 24 ∧
    bytesWord (pixelBytes p) = packPixel p ∧ unpackPixel (packPixel p) = p) ∧
  (∀ w : Word, packPixel (unpackPixel w) = w) ∧
  (∀ e0 e1 : Half, (epWord e0 e1).toNat = e0.toNat + e1.toNat * 2 ^ 16 ∧
    ep0 (epWord e0 e1) = e0 ∧ ep1 (epWord e0 e1) = e1) ∧
  (∀ w : Word, bytesWord (wordBytes w) = w) ∧ (∀ q : Quad Byte, wordBytes (bytesWord q) = q) ∧
  (∀ (s : State) (m : Mode),
    (s.blockOf m).toList.map BitVec.toNat = (List.range (Mode.blockSize m)).map fun k =>
      (s.read (.blk (Fin.ofNat 4 (k / 4)))).toNat / 2 ^ (8 * (k % 4)) % 256) ∧
  ∀ (s : State) (a c : SubBlock),
    ((s.putBlock (.bc1 c)).blockOf .bc1).toList = c.toList ∧
    ((s.putBlock (.bc3 a c)).blockOf .bc3).toList = a.toList ++ c.toList

/-- 30_encoding.md R123: every command's text assembles to its word and its word disassembles to its text, the suffix
`.BC1` is the same as none, and a rejected word disassembles as `.word`. That `.BC1` is accepted on every command with
M = 0, also on those that take no mode, and that the digits of `.word` are lower case, is the model's choice (log entry
17), not R123's. -/
def Obligations.AssemblyRoundTrips : Prop :=
  (∀ i : Instr, assemble (commandText i) = some (encode i) ∧ disassemble (encode i) = commandText i ∧
    ∀ t, commandTextBc1 i = some t → assemble t = some (encode i)) ∧
  ∀ (w : Word) (e : DecodeError), decode w = .error e → disassemble w = ".word 0x" ++ hexWord w

/-! ### Errors -/

/-- 60_exceptions.md R341 and R342: a failing command writes ERR, DETAIL and ERR_SEEN and nothing else, `CMD` keeping
its word; for a word that is rejected and for a frame command that fails validation, with the codes of the table. -/
def Obligations.FailingCommandWritesOnlyStatus : Prop :=
  [CmdError.reservedOpcode, .reservedField, .nullBuffer, .badDimension, .sizeOverflow, .pbUndersize, .cbUndersize,
    .blockOutOfRange, .cbShort].map (fun e => (e.kind.toNat, e.detail.toNat)) =
    [(1, 1), (1, 2), (1, 3), (1, 4), (1, 5), (1, 6), (1, 7), (1, 8), (2, 1)] ∧
  (∀ (s : State) (w : Word) (d : DecodeError), decode w = .error d →
    runCommand w s = .next { s with
      cmd := w
      status := { s.status with
        err := 1, detail := (if d = .reservedOpcode then 1 else 2), errSeen := true } }) ∧
  ∀ (i : Instr) (s : State) (e : CmdError), validation i s = some e →
    exec i s = .next { s with status := { s.status with err := e.kind, detail := e.detail, errSeen := true } }

/-- 60_exceptions.md R343: the nine checks in their fixed order, with every quantity written out from the registers; the
first that fails is raised. 10_state.md R36: where none fails the command runs, and where it completes ERR and DETAIL are
0; no event but a command and a reset changes either field. -/
def Obligations.CommandsValidateInTheFixedOrder : Prop :=
  (∀ s t : State, step s = .next t → (∀ w : Word, s.host.head? ≠ some (.write 0 w)) →
    s.host.head? ≠ some .platformReset → s.host.head? ≠ some .powerOn →
    t.status.err = s.status.err ∧ t.status.detail = s.status.detail) ∧
  ∀ (s : State) (w : Word) (rest : List HostAccess), s.host = .write 0 w :: rest →
    let op := (w.extractLsb' 0 4).toNat
    let m := w.getLsbD 4
    let q := w.getLsbD 5
    let frame := op = 4 ∨ op = 5 ∨ op = 6 ∨ op = 7
    let whole := op = 4 ∨ op = 5
    let W := s.imgW.toInt
    let H := s.imgH.toInt
    let BX := s.bX.toInt
    let BY := s.bY.toInt
    let PBSIZE : Int := 4 * W * H
    let CBSIZE : Int := ((W + 3) / 4) * ((H + 3) / 4) * (if m then 16 else 8)
    let pbLen : Int := s.pbLen.toNat
    let cbLen : Int := s.cbLen.toNat
    let failing : Option CmdError :=
      if op = 0 ∨ op = 15 then some .reservedOpcode
      else if (w.extractLsb' 6 26).toNat ≠ 0 ∨ (m = true ∧ op ∉ [2, 3, 4, 5, 14]) ∨ (q = true ∧ op ∉ [2, 4, 10]) then
        some .reservedField
      else if ¬ frame then none
      else if s.bufcfg.getLsbD 0 = false ∨ (whole ∧ s.bufcfg.getLsbD 1 = false) then some .nullBuffer
      else if W ≤ 0 ∨ H ≤ 0 then some .badDimension
      else if PBSIZE > 2 ^ 32 - 1 ∨ (whole ∧ CBSIZE > 2 ^ 32 - 1) then some .sizeOverflow
      else if pbLen < PBSIZE then some .pbUndersize
      else if op = 4 ∧ cbLen < CBSIZE then some .cbUndersize
      else if ¬ whole ∧ ¬ (BX ≥ 0 ∧ BY ≥ 0 ∧ 4 * BX + 3 < W ∧ 4 * BY + 3 < H) then some .blockOutOfRange
      else if whole ∧ s.cfg.edgePolicy = .reject ∧ (W % 4 ≠ 0 ∨ H % 4 ≠ 0) then some .blockOutOfRange
      else if op = 5 ∧ cbLen < CBSIZE then some .cbShort
      else none
    (∀ e : CmdError, failing = some e → step s = .next ({ s with host := rest, cmd := w }.raise e)) ∧
    (failing = none → ∃ i : Instr, decode w = .ok i ∧ step s = exec i { s with host := rest, cmd := w } ∧
      ∀ t : State, step s = .next t → t.status.err = 0 ∧ t.status.detail = 0)

/-- 60_exceptions.md R360 and 20_memory.md R81: a command that passes validation and reads a buffer byte nothing has
written stops with `UNINIT` at such a byte, one of those the command reads: the selected tile, the frame's pixels, the
frame's blocks. -/
def Obligations.UnwrittenBytesStopTheReaders : Prop :=
  (∀ s : State, checkFrame .getblk s = none →
    (∃ a : Nat, inTile s.selectedTile a ∧ s.pb.read a = none) →
    ∃ a : Nat, exec .getblk s = .fault (.uninit .pb a) ∧ inTile s.selectedTile a ∧ s.pb.read a = none) ∧
  (∀ (m : Mode) (q : Quality) (s : State), checkFrame (.encimg m) s = none →
    (∃ a : Nat, a < s.frame.pbSize ∧ s.pb.read a = none) →
    ∃ a : Nat, exec (.encimg m q) s = .fault (.uninit .pb a) ∧ a < s.frame.pbSize ∧ s.pb.read a = none) ∧
  (∀ (m : Mode) (s : State), checkFrame (.decimg m) s = none →
    (∃ a : Nat, a < s.frame.cbSize m ∧ s.cb.read a = none) →
    ∃ a : Nat, exec (.decimg m) s = .fault (.uninit .cb a) ∧ a < s.frame.cbSize m ∧ s.cb.read a = none)

/-! ### The register map and the buffers -/

/-- 10_state.md R32 and R33: the offset of each register, written out, the state it reads, and host accesses to the
register space; that a read of an unspecified register answers the value it holds is log entry 3. What the command that a
write of `CMD` runs does is said elsewhere. -/
def Obligations.RegisterAccessFollowsTheMap : Prop :=
  ([Reg.cmd, .status, .imgW, .imgH, .bX, .bY, .bufcfg, .pbLen, .cbLen, .ep, .mask].map Reg.offset =
    [0x00, 0x04, 0x08, 0x0C, 0x10, 0x14, 0x18, 0x1C, 0x20, 0x24, 0x28]) ∧
  (∀ i : Fin 16, (Reg.pix i).offset = 0x40 + 4 * i.val) ∧ (∀ k : Fin 4, (Reg.pal k).offset = 0x80 + 4 * k.val) ∧
  (∀ j : Fin 4, (Reg.blk j).offset = 0x90 + 4 * j.val) ∧
  (∀ s : State, s.read .cmd = s.cmd ∧ s.read .imgW = s.imgW ∧ s.read .imgH = s.imgH ∧ s.read .bX = s.bX ∧
    s.read .bY = s.bY ∧ s.read .bufcfg = s.bufcfg &&& 3 ∧ s.read .pbLen = s.pbLen ∧ s.read .cbLen = s.cbLen ∧
    s.read .ep = s.ep.value ∧ s.read .mask = s.mask.value ∧ (∀ i : Fin 16, s.read (.pix i) = (s.pix.get i).value) ∧
    (∀ k : Fin 4, s.read (.pal k) = (s.pal.get k).value) ∧ ∀ j : Fin 4, s.read (.blk j) = (s.blk.get j).value) ∧
  (∀ (s : State) (r : Reg) (v : Word), r ≠ .cmd → r ≠ .status →
    ∃ t : State, access (.write r.offset v) s = .next t ∧
      t.read r = (if r = .bufcfg then v &&& 3 else v) ∧ t.specified r = true ∧
      (∀ r' : Reg, r' ≠ r → t.read r' = s.read r' ∧ t.specified r' = s.specified r') ∧
      t.pb = s.pb ∧ t.cb = s.cb ∧ t.cfg = s.cfg ∧ t.host = s.host ∧ t.rdata = s.rdata) ∧
  (∀ (s t : State) (v : Word), access (.write (Reg.offset .cmd) v) s = .next t → t.read .cmd = v) ∧
  (∀ (s : State) (v : Word), access (.write (Reg.offset .status) v) s = .next s) ∧
  (∀ s : State, s.read .status &&& 0xFFFF600C = 0 ∧ s.read .bufcfg &&& 0xFFFFFFFC = 0) ∧
  (∀ (s : State) (r : Reg), access (.read r.offset) s = .next { s with rdata := .word (s.read r) }) ∧
  (∀ (s : State) (n : Nat) (v : Word), (0x2C ≤ 4 * n ∧ 4 * n < 0x40) ∨ (0xA0 ≤ 4 * n ∧ 4 * n < 0x100) →
    access (.read (4 * n)) s = .next { s with rdata := .word 0 } ∧ access (.write (4 * n) v) s = .next s) ∧
  (∀ (s : State) (offset : Nat) (v : Word), offset % 4 ≠ 0 →
    access (.read offset) s = .refused (.misaligned offset) ∧
    access (.write offset v) s = .refused (.misaligned offset)) ∧
  (∀ (s : State) (offset : Nat), access (.narrow offset) s = .refused (.narrow offset))

/-- 10_state.md R35, R38 and R40: the fields of the word the host reads from `STATUS`, and its reserved bits. -/
def Obligations.StatusWordHasTheStatedFields : Prop :=
  ∀ s : State,
    let w := s.read .status
    w.extractLsb' 0 2 = s.status.err ∧ w.extractLsb' 2 2 = 0 ∧ w.extractLsb' 4 4 = s.status.detail ∧
    w.getLsbD 8 = s.lutReady ∧ w.getLsbD 9 = s.status.refChanged ∧ w.getLsbD 10 = s.status.refSkipped ∧
    w.getLsbD 11 = s.status.flat ∧ w.getLsbD 12 = s.status.swapped ∧ w.extractLsb' 13 2 = 0 ∧
    w.getLsbD 15 = s.status.errSeen ∧ w.extractLsb' 16 16 = 0

/-- 20_memory.md R81 and R89 for buffer bytes the host accesses. A write puts its bytes at its offsets and leaves every
other byte of both buffers, and every register, alone. A read of any range whose bytes have all been written returns them
in order and changes nothing else, so after a write it returns what was written; a read of a range with a byte nothing
has written stops at such a byte (log entry 4), and an access beyond offset 2^32 - 1 stops too (log entry 5). -/
def Obligations.BufferReadReturnsTheLastWrite : Prop :=
  (∀ (s : State) (buf : Buf) (offset : Nat) (bytes : List Byte), offset + bytes.length ≤ 2 ^ 32 →
    ∃ t u : State, access (.writeBuf buf offset bytes) s = .next t ∧
      access (.readBuf buf offset bytes.length) t = .next u ∧ u.rdata = .bytes bytes ∧
      (∀ k : Nat, k < bytes.length → (t.buffer buf).read (offset + k) = bytes[k]?) ∧
      (∀ a : Nat, a < offset ∨ offset + bytes.length ≤ a → (t.buffer buf).read a = (s.buffer buf).read a) ∧
      (∀ other : Buf, other ≠ buf → t.buffer other = s.buffer other) ∧
      ∀ r : Reg, t.read r = s.read r ∧ t.specified r = s.specified r) ∧
  (∀ (s : State) (buf : Buf) (offset count : Nat), offset + count ≤ 2 ^ 32 →
    ((∀ a : Nat, offset ≤ a → a < offset + count → ((s.buffer buf).read a).isSome = true) →
      ∃ bs : List Byte, access (.readBuf buf offset count) s = .next { s with rdata := .bytes bs } ∧
        bs.length = count ∧ ∀ k : Nat, k < count → bs[k]? = (s.buffer buf).read (offset + k)) ∧
    ((∃ a : Nat, offset ≤ a ∧ a < offset + count ∧ (s.buffer buf).read a = none) →
      ∃ a : Nat, offset ≤ a ∧ a < offset + count ∧ (s.buffer buf).read a = none ∧
        access (.readBuf buf offset count) s = .fault (.uninit buf a))) ∧
  ∀ (s : State) (buf : Buf) (offset count : Nat) (bytes : List Byte), 2 ^ 32 < offset + count → bytes.length = count →
    ∃ a : Nat, 2 ^ 32 ≤ a ∧ access (.readBuf buf offset count) s = .fault (.noSuchByte buf a) ∧
      access (.writeBuf buf offset bytes) s = .fault (.noSuchByte buf a)

/-! ### Tables and arithmetic -/

/-- 40_tables.md R160: the formula, the range of the intermediate value over the three domains, and rounding to
nearest with halves rounded up. -/
def Obligations.MulShift8Rounds : Prop :=
  (∀ a b : Int, mulShift8 a b = ((a * b + 128) + ((a * b + 128) / 256)) / 256) ∧
  (∀ a b : Int, 0 ≤ a → a ≤ 255 → 0 ≤ b → b ≤ 255 →
    mulShift8 a b = (2 * a * b + 255) / 510 ∧ |a * b + 128| ≤ 65153) ∧
  ∀ a : Int, -255 ≤ a → a ≤ 255 → mulShift8 a 85 = (2 * a * 85 + 255) / 510 ∧ |a * 85 + 128| ≤ 65153

/-- 40_tables.md R161 and R162: bit replication, the end points, and strict increase. -/
def Obligations.ExpansionTables : Prop :=
  (∀ i : BitVec 5, (expand5 i).toNat = i.toNat * 8 + i.toNat / 4) ∧ expand5 0 = 0 ∧ expand5 31 = 255 ∧
  (∀ i j : BitVec 5, i.toNat < j.toNat → (expand5 i).toNat < (expand5 j).toNat) ∧
  (∀ i : BitVec 6, (expand6 i).toNat = i.toNat * 4 + i.toNat / 16) ∧ expand6 0 = 0 ∧ expand6 63 = 255 ∧
  ∀ i j : BitVec 6, i.toNat < j.toNat → (expand6 i).toNat < (expand6 j).toNat

/-- 40_tables.md R163 for `OMatch5`: each literal entry is the pair the search finds first in increasing (mn, mx)
order among those of least error, an error below 256. -/
def Obligations.OMatch5IsTheFirstBestPair : Prop :=
  ∀ v : Byte,
    let err (mn mx : BitVec 5) : Int :=
      |chan (expand5 mx) + mulShift8 (chan (expand5 mn) - chan (expand5 mx)) 0x55 - chan v|
    let best := err (omatch5 v).2 (omatch5 v).1
    best < 256 ∧ (∀ mn mx : BitVec 5, best ≤ err mn mx) ∧
    (∀ mn mx : BitVec 5, mn.toNat < (omatch5 v).2.toNat → best < err mn mx) ∧
    (∀ mx : BitVec 5, mx.toNat < (omatch5 v).1.toNat → best < err (omatch5 v).2 mx) ∧
    searchOmatch5 v = ⟨best, (omatch5 v).1.toNat, (omatch5 v).2.toNat⟩

/-- 40_tables.md R163 for `OMatch6`, as for `OMatch5`. -/
def Obligations.OMatch6IsTheFirstBestPair : Prop :=
  ∀ v : Byte,
    let err (mn mx : BitVec 6) : Int :=
      |chan (expand6 mx) + mulShift8 (chan (expand6 mn) - chan (expand6 mx)) 0x55 - chan v|
    let best := err (omatch6 v).2 (omatch6 v).1
    best < 256 ∧ (∀ mn mx : BitVec 6, best ≤ err mn mx) ∧
    (∀ mn mx : BitVec 6, mn.toNat < (omatch6 v).2.toNat → best < err mn mx) ∧
    (∀ mx : BitVec 6, mx.toNat < (omatch6 v).1.toNat → best < err (omatch6 v).2 mx) ∧
    searchOmatch6 v = ⟨best, (omatch6 v).1.toNat, (omatch6 v).2.toNat⟩

/-- 40_tables.md R169: the residual is 0 or 1 with the counts given, and where `mx < mn` and `mx = mn`. -/
def Obligations.OMatchTableProperties : Prop :=
  let all : List Byte := (List.range 256).map (BitVec.ofNat 8)
  let res5 (v : Byte) : Int := |chan (lerp13 .mulShift8 (expand5 (omatch5 v).1) (expand5 (omatch5 v).2)) - chan v|
  let res6 (v : Byte) : Int := |chan (lerp13 .mulShift8 (expand6 (omatch6 v).1) (expand6 (omatch6 v).2)) - chan v|
  (∀ v : Byte, (res5 v = 0 ∨ res5 v = 1) ∧ (res6 v = 0 ∨ res6 v = 1)) ∧
  (all.filter fun v => res5 v = 0).length = 136 ∧ (all.filter fun v => res5 v = 1).length = 120 ∧
  (all.filter fun v => res6 v = 0).length = 246 ∧ (all.filter fun v => res6 v = 1).length = 10 ∧
  (all.filter fun v => (omatch5 v).1.toNat < (omatch5 v).2.toNat) = [2, 3, 14, 32, 36, 234] ∧
  (all.filter fun v => (omatch6 v).1.toNat < (omatch6 v).2.toNat) = [1, 22, 26, 30, 34, 38, 42, 64] ∧
  (all.filter fun v => (omatch5 v).1 = (omatch5 v).2) = [0, 1, 7, 8, 9, 24, 254, 255] ∧
  (all.filter fun v => (omatch6 v).1 = (omatch6 v).2) = [0, 4, 60, 255]

/-- 40_tables.md R170: INIT completes in every state and changes `LUT_READY`, ERR and DETAIL only. -/
def Obligations.InitMarksTheTablesBuilt : Prop :=
  ∀ s : State, exec .init s = .next { s with lutReady := true, status := { s.status with err := 0, detail := 0 } }

/-! ### Floating point -/

/-- 00_scope.md R10: `f32` and `f64` are the correctly rounded values. For every exact number `x`, the result is a
`p`-bit number with unit at least `2^emin`, no such number is nearer to `x`, and where another one is equally near
the result's significand is even. Exponents are unbounded above (log entry 10). -/
def Obligations.RoundingIsToNearestEven : Prop :=
  (∀ (num : Int) (den : Nat) (e : Int), f32 num den e = roundBinary 24 (-149) num den e ∧
    f64 num den e = roundBinary 53 (-1074) num den e) ∧
  ∀ (p : Nat) (emin num : Int) (den : Nat) (e : Int), 0 < p → 0 < den →
    let x : ℚ := (num : ℚ) / (den : ℚ) * (2 : ℚ) ^ e
    let r := roundBinary p emin num den e
    let v : ℚ := (r.sig : ℚ) * (2 : ℚ) ^ r.exp
    let isValue (y : ℚ) : Prop := ∃ m k : Int, |m| < 2 ^ p ∧ emin ≤ k ∧ y = (m : ℚ) * (2 : ℚ) ^ k
    isValue v ∧ (∀ y : ℚ, isValue y → |x - v| ≤ |x - y|) ∧
    ∀ y : ℚ, isValue y → y ≠ v → |x - v| = |x - y| → r.sig % 2 = 0

/-- 41_estimator.md R184: `|covf| <= 4080.1`, the seed is at most 255, and every component stays below 255·12241^4, so
that no overflow can arise (log entry 10): the vector after `k` iterations is bounded by 255·12241^k for `k` from 0 to 4,
and every product and partial sum inside iteration `k + 1` by 255·12241^(k+1). -/
def Obligations.PowerIterationStaysInRange : Prop :=
  ∀ blk : Tile RGB,
    let value (x : Flt) : ℚ := (x.sig : ℚ) * (2 : ℚ) ^ x.exp
    let m := blockCovariance blk
    let v (k : Nat) : FltVec := (powerStep m)^[k] (seedVector blk)
    v 4 = powerVector blk ∧
    (∀ c ∈ [m.c0, m.c1, m.c2, m.c3, m.c4, m.c5], |value c| ≤ 4080.1) ∧
    (∀ x ∈ [(v 0).r, (v 0).g, (v 0).b], |value x| ≤ 255) ∧
    (∀ k : Nat, k < 4 → ∀ row ∈ [(m.c0, m.c1, m.c2), (m.c1, m.c3, m.c4), (m.c2, m.c4, m.c5)],
      let p := mul32 (v k).r row.1
      let q := mul32 (v k).g row.2.1
      let w := mul32 (v k).b row.2.2
      ∀ x ∈ [p, q, w, add32 p q, add32 (add32 p q) w], |value x| < 255 * 12241 ^ (k + 1)) ∧
    ∀ k : Nat, 1 ≤ k → k ≤ 4 → ∀ x ∈ [(v k).r, (v k).g, (v k).b], |value x| < 255 * 12241 ^ k

/-- 41_estimator.md R182 to R185. Every component of the direction is an integer in [-512, 512], for the binary32 rules
and for the free value alike (log entry 9). Under the binary32 rules: the rounded means, the six covariance sums scaled by
1/255, the channel ranges as the seed and the four iterations are written out from the pixels; the direction is the
fallback (148, 300, 58) exactly where the greatest absolute component is below 4, and otherwise each component is rescaled
and truncated toward zero, the greatest in magnitude becoming 511 or 512 in magnitude. -/
def Obligations.DirectionComponentsAreBounded : Prop :=
  (∀ (form : Numerics) (blk : Tile RGB),
    let d := direction form blk
    |d.r| ≤ 512 ∧ |d.g| ≤ 512 ∧ |d.b| ≤ 512) ∧
  ∀ blk : Tile RGB,
    let x (c : RGB → Byte) (i : Fin 16) : Int := (c (blk.get i)).toNat
    let mu (c : RGB → Byte) : Int := ((∑ i : Fin 16, x c i) + 8) / 16
    let cov (c e : RGB → Byte) : Int := ∑ i : Fin 16, (x c i - mu c) * (x e i - mu e)
    let covf (c e : RGB → Byte) : Flt := div32 (f32 (cov c e) 1 0) (f32 255 1 0)
    let range (c : RGB → Byte) : Int :=
      Finset.univ.sup' ⟨0, Finset.mem_univ 0⟩ (x c) - Finset.univ.inf' ⟨0, Finset.mem_univ 0⟩ (x c)
    let seed : FltVec := ⟨f32 (range RGB.r) 1 0, f32 (range RGB.g) 1 0, f32 (range RGB.b) 1 0⟩
    let row (w : FltVec) (c : RGB → Byte) : Flt :=
      add32 (add32 (mul32 w.r (covf RGB.r c)) (mul32 w.g (covf RGB.g c))) (mul32 w.b (covf RGB.b c))
    let next (w : FltVec) : FltVec := ⟨row w RGB.r, row w RGB.g, row w RGB.b⟩
    let v := next (next (next (next seed)))
    let value (y : Flt) : ℚ := (y.sig : ℚ) * (2 : ℚ) ^ y.exp
    let M := magnitude v
    let scaled (y : Flt) : ℚ := value (mul64 (f64 y.sig 1 y.exp) (div64 (f64 512 1 0) (f64 M.sig 1 M.exp)))
    let truncated (q : ℚ) : Int := if 0 ≤ q then ⌊q⌋ else ⌈q⌉
    let d := direction .ref32 blk
    (∀ c ∈ [RGB.r, RGB.g, RGB.b], 0 ≤ mu c ∧ mu c ≤ 255 ∧
      ∀ e ∈ [RGB.r, RGB.g, RGB.b], |cov c e| ≤ 1040400 ∧ value (f32 (cov c e) 1 0) = cov c e) ∧
    blockCovariance blk = ⟨covf RGB.r RGB.r, covf RGB.r RGB.g, covf RGB.r RGB.b, covf RGB.g RGB.g, covf RGB.g RGB.b,
      covf RGB.b RGB.b⟩ ∧
    seedVector blk = seed ∧ powerVector blk = v ∧ value M = max (max |value v.r| |value v.g|) |value v.b| ∧
    (value M < 4 ↔ d = ⟨148, 300, 58⟩) ∧
    (4 ≤ value M →
      d = ⟨truncated (scaled v.r), truncated (scaled v.g), truncated (scaled v.b)⟩ ∧
      (|value v.r| = value M → |d.r| = 511 ∨ |d.r| = 512) ∧ (|value v.g| = value M → |d.g| = 511 ∨ |d.g| = 512) ∧
      (|value v.b| = value M → |d.b| = 511 ∨ |d.b| = 512))

/-! ### Flat blocks and the estimator -/

/-- 41_estimator.md R186 to R189: ESTC completes in every state and writes the endpoints of the pixels of greatest and
least projection, the lowest index winning each tie; of `STATUS` it clears ERR and DETAIL. -/
def Obligations.EstcTakesTheExtremePixels : Prop :=
  ∀ s : State,
    let blk := s.pixels.map Pixel.rgb
    let v := direction s.cfg.pcaNumerics blk
    let d (i : Fin 16) : Int := dot (blk.get i) v
    ∃ (maxp minp : Fin 16) (t : State),
      (∀ j : Fin 16, d j ≤ d maxp) ∧ (∀ j : Fin 16, j < maxp → d j < d maxp) ∧
      (∀ j : Fin 16, d minp ≤ d j) ∧ (∀ j : Fin 16, j < minp → d minp < d j) ∧
      exec .estc s = .next t ∧ t.specified .ep = true ∧
      ep0 (t.read .ep) = as16 (blk.get maxp) ∧ ep1 (t.read .ep) = as16 (blk.get minp) ∧
      t.status = { s.status with err := 0, detail := 0 } ∧ t.lutReady = s.lutReady

/-- 41_estimator.md R187 and 42_palette_match.md R210: narrowing undoes widening on every RGB565 value, and narrowing
rounds each channel to the nearest multiple of 255/31 or 255/63. -/
def Obligations.NarrowingUndoesWidening : Prop :=
  (∀ v : Half, as16 (from16 v) = v) ∧
  ∀ c : RGB, (red5 (as16 c)).toNat = (2 * c.r.toNat * 31 + 255) / 510 ∧
    (green6 (as16 c)).toNat = (2 * c.g.toNat * 63 + 255) / 510 ∧
    (blue5 (as16 c)).toNat = (2 * c.b.toNat * 31 + 255) / 510

/-- 41_estimator.md R180, R181 and R190: FLATC completes in every state; `FLAT` says whether every pixel has pixel 0's
colour (or is pixel 0, under `Rgba`), and `EP` and `MASK` are the fast path of pixel 0 whether or not it does. -/
def Obligations.FlatcTestsAndWritesTheFastPath : Prop :=
  ∀ s : State,
    let p0 := s.pixels.get 0
    let same (p : Pixel) : Prop :=
      p.r = p0.r ∧ p.g = p0.g ∧ p.b = p0.b ∧ (s.cfg.flatCompare = .rgba → p.a = p0.a)
    ∃ t : State, exec .flatc s = .next t ∧
      (t.status.flat = true ↔ ∀ i : Fin 16, same (s.pixels.get i)) ∧
      ep0 (t.read .ep) = rgb565 (omatch5 p0.r).1 (omatch6 p0.g).1 (omatch5 p0.b).1 ∧
      ep1 (t.read .ep) = rgb565 (omatch5 p0.r).2 (omatch6 p0.g).2 (omatch5 p0.b).2 ∧
      t.read .mask = 0xAAAAAAAA ∧ t.specified .ep = true ∧ t.specified .mask = true ∧
      t.lutReady = true ∧ t.status.err = 0 ∧ t.status.detail = 0

/-! ### Palette and matching -/

/-- 42_palette_match.md R211: both forms of the 1/3 blend, as exact roundings of (2a + b)/3. -/
def Obligations.Lerp13Rounds : Prop :=
  ∀ a b : Byte,
    (lerp13 .mulShift8 a b).toNat = (2 * (2 * a.toNat + b.toNat) + 3) / 6 ∧
    (lerp13 .div3 a b).toNat = (2 * a.toNat + b.toNat) / 3

/-- 42_palette_match.md R212 and R223: PALC completes in every state and writes the 4-colour palette of `EP`, whatever
the order of its fields, with alpha bytes 0. -/
def Obligations.PalcWritesTheEncoderPalette : Prop :=
  ∀ s : State,
    let p0 := from16 (ep0 (s.read .ep))
    let p1 := from16 (ep1 (s.read .ep))
    let third (a b : RGB) : Pixel :=
      ⟨lerp13 s.cfg.lerp13 a.r b.r, lerp13 s.cfg.lerp13 a.g b.g, lerp13 s.cfg.lerp13 a.b b.b, 0⟩
    ∃ t : State, exec .palc s = .next t ∧
      unpackPixel (t.read (.pal 0)) = ⟨p0.r, p0.g, p0.b, 0⟩ ∧ unpackPixel (t.read (.pal 1)) = ⟨p1.r, p1.g, p1.b, 0⟩ ∧
      unpackPixel (t.read (.pal 2)) = third p0 p1 ∧ unpackPixel (t.read (.pal 3)) = third p1 p0 ∧
      (∀ k : Fin 4, t.specified (.pal k) = true) ∧ t.lutReady = true ∧
      t.status = { s.status with err := 0, detail := 0 }

/-- 42_palette_match.md R213 to R216 and R224: plain MATCHC completes in every state and gives each pixel the index of
the decision tree, with every quantity written out from the registers. -/
def Obligations.MatchcPlainFollowsTheDecisionTree : Prop :=
  ∀ s : State,
    let x (i : Fin 16) : Pixel := unpackPixel (s.read (.pix i))
    let p (k : Fin 4) : Pixel := unpackPixel (s.read (.pal k))
    let dirR : Int := (p 0).r.toNat - (p 1).r.toNat
    let dirG : Int := (p 0).g.toNat - (p 1).g.toNat
    let dirB : Int := (p 0).b.toNat - (p 1).b.toNat
    let proj (c : Pixel) : Int := c.r.toNat * dirR + c.g.toNat * dirG + c.b.toNat * dirB
    let c0Point : Int := (proj (p 1) + proj (p 3)) / 2
    let halfPoint : Int := (proj (p 3) + proj (p 2)) / 2
    let c3Point : Int := (proj (p 2) + proj (p 0)) / 2
    ∃ t : State, exec (.matchc .fast) s = .next t ∧ t.specified .mask = true ∧
      t.status = { s.status with err := 0, detail := 0 } ∧ t.lutReady = s.lutReady ∧
      ∀ i : Fin 16, (maskIndex (t.read .mask) i).toNat =
        if proj (x i) < halfPoint then (if proj (x i) < c0Point then 1 else 3)
        else (if proj (x i) < c3Point then 2 else 0)

/-- 42_palette_match.md R217 and R224: dithered MATCHC completes in every state; under `Ref` there are stored errors,
zero outside the tile, so that each pixel's index is the decision tree on `16·dot` plus 7, 3, 5 and 1 times the
errors of its left, upper right, upper and upper left neighbours, against thresholds scaled by 16; otherwise the mask
is the free value (log entry 9). -/
def Obligations.MatchcDitheredDiffusesTheError : Prop :=
  ∀ s : State,
    let blk := s.pixels.map Pixel.rgb
    let pal := s.palette
    let dots := matchDots blk pal
    let stops := matchStops pal
    let th := thresholds stops
    ∃ t : State, exec (.matchc .dithered) s = .next t ∧ t.specified .mask = true ∧
      t.status = { s.status with err := 0, detail := 0 } ∧ t.lutReady = s.lutReady ∧
      (s.cfg.ditherMatch = .uninterpreted → t.read .mask = Config.freeDitherMask blk pal) ∧
      (s.cfg.ditherMatch = .ref → ∃ err : Int → Int → Int,
        (∀ x y : Int, x < 0 ∨ 3 < x ∨ y < 0 ∨ 3 < y → err x y = 0) ∧
        ∀ i : Fin 16,
          let x : Int := (i.val % 4 : Nat)
          let y : Int := (i.val / 4 : Nat)
          let e := 7 * err (x - 1) y + 3 * err (x + 1) (y - 1) + 5 * err x (y - 1) + err (x - 1) (y - 1)
          let d := 16 * dots.get i + e
          let step : BitVec 2 :=
            if d < 16 * th.halfPoint then (if d < 16 * th.c0Point then 1 else 3)
            else (if d < 16 * th.c3Point then 2 else 0)
          maskIndex (t.read .mask) i = step ∧ err x y = dots.get i - stops.get step.toFin)

/-- The nearest-index selector selects the nearest: against an encoder palette, the stop of the index a pixel gets on
the plain path is as near to the pixel's projection as any stop, to within the half that the floor of R214 drops. -/
def Obligations.PlainMatchIsNearestAlongTheAxis : Prop :=
  ∀ (form : LerpForm) (e0 e1 : Half) (blk : Tile RGB) (i : Fin 16) (k : Fin 4),
    let pal := evalColours form e0 e1
    let d := (matchDots blk pal).get i
    let stops := matchStops pal
    |d - stops.get (maskIndex (matchPlain blk pal) i).toFin| ≤ |d - stops.get k| + 1

/-- 42_palette_match.md R218(b): a palette whose entries 0 and 1 agree in R, G and B matches to mask 0 on both
paths. -/
def Obligations.EqualEndpointsMatchToZero : Prop :=
  ∀ (blk : Tile RGB) (pal : Quad RGB), pal.q0 = pal.q1 → matchPlain blk pal = 0 ∧ matchDitherRef blk pal = 0

/-! ### Refinement -/

/-- 43_refine.md R241: the three sums and the fields of the packed accumulator are the same numbers, in the ranges
given. -/
def Obligations.AccumulatorHoldsTheNormalTerms : Prop :=
  ∀ mask : Word,
    let n := normalTerms mask
    let akku : Int := tileSum ((unpackMask mask).map fun k =>
      match k.toNat with
      | 0 => 0x090000
      | 1 => 0x000900
      | 2 => 0x040102
      | _ => 0x010402)
    n.xx = tileSum ((weights1 mask).map fun w => w * w) ∧ n.yy = tileSum ((weights2 mask).map fun w => w * w) ∧
    n.xy = tileSum ((weights1 mask).zipWith (· * ·) (weights2 mask)) ∧
    n.xx = akku / 65536 ∧ n.yy = akku / 256 % 256 ∧ n.xy = akku % 256 ∧
    0 ≤ n.xx ∧ n.xx ≤ 144 ∧ 0 ≤ n.yy ∧ n.yy ≤ 144 ∧ 0 ≤ n.xy ∧ n.xy ≤ 32

/-- 43_refine.md R242: the skip condition and what a skipped refinement returns; the determinant is never negative, and
it is zero, and refinement skipped, exactly when every pixel has the same index. -/
def Obligations.RefinementSkippedIffOneIndex : Prop :=
  ∀ mask : Word,
    ((normalTerms mask).degenerate = true ↔
      (normalTerms mask).xx = 0 ∨ (normalTerms mask).yy = 0 ∨
        (normalTerms mask).xx * (normalTerms mask).yy - (normalTerms mask).xy * (normalTerms mask).xy = 0) ∧
    ((normalTerms mask).degenerate = true → ∀ (form : Numerics) (blk : Tile RGB) (mx mn : Half),
      refine form blk mx mn mask = ⟨mx, mn, false, true⟩) ∧
    0 ≤ (normalTerms mask).det ∧ (normalTerms mask).det ≤ 20736 ∧
    ((normalTerms mask).degenerate = true ↔ ∀ i : Fin 16, maskIndex mask i = maskIndex mask 0) ∧
    ((normalTerms mask).det = 0 ↔ ∀ i : Fin 16, maskIndex mask i = maskIndex mask 0)

/-- 43_refine.md R242, R245 and R246: REFC completes in every state. When every pixel has the same index it leaves
`EP` as it is and reports a skip; otherwise `EP` receives the solved pair and `REF_CHANGED` says whether it differs. -/
def Obligations.RefcSolvesOrSkips : Prop :=
  ∀ s : State,
    let e := solvePair s.cfg.refineNumerics (s.pixels.map Pixel.rgb) (s.read .mask)
    let oneIndex := ∀ i : Fin 16, maskIndex (s.read .mask) i = maskIndex (s.read .mask) 0
    ∃ t : State, exec .refc s = .next t ∧ t.specified .ep = true ∧
      t.status.err = 0 ∧ t.status.detail = 0 ∧ t.lutReady = s.lutReady ∧
      (oneIndex → t.read .ep = s.read .ep ∧ t.status.refChanged = false ∧ t.status.refSkipped = true) ∧
      (¬ oneIndex → t.read .ep = epWord e.1 e.2 ∧
        (t.status.refChanged = true ↔ t.read .ep ≠ s.read .ep) ∧ t.status.refSkipped = false)

/-- 43_refine.md R243 and R244: each field of a solved endpoint is the Cramer numerator times the scale factor, each
operation rounded once, plus one half, truncated and clamped; a numerator of 0 or less gives the field 0. -/
def Obligations.SolvedFieldsAreClamped : Prop :=
  ∀ (blk : Tile RGB) (mask : Word), (normalTerms mask).degenerate = false →
    let n := normalTerms mask
    let at1 (f : RGB → Byte) : Int := tileSum ((weights1 mask).zipWith (· * ·) (channel f blk))
    let at2 (f : RGB → Byte) : Int := tileSum ((weights2 mask).zipWith (· * ·) (channel f blk))
    let nmax (f : RGB → Byte) : Int := at1 f * n.yy - at2 f * n.xy
    let nmin (f : RGB → Byte) : Int := at2 f * n.xx - at1 f * n.xy
    let field (x : Int) (f : Flt) (hi : Int) : Int := min (max (add32 (mul32 (f32 x 1 0) f) ⟨1, -1⟩).trunc 0) hi
    let frb := div32 (div32 (f32 93 1 0) (f32 255 1 0)) (f32 n.det 1 0)
    let fg := div32 (mul32 frb (f32 63 1 0)) (f32 31 1 0)
    let e := solveRef blk mask
    ((red5 e.1).toNat : Int) = field (nmax RGB.r) frb 31 ∧ ((green6 e.1).toNat : Int) = field (nmax RGB.g) fg 63 ∧
    ((blue5 e.1).toNat : Int) = field (nmax RGB.b) frb 31 ∧ ((red5 e.2).toNat : Int) = field (nmin RGB.r) frb 31 ∧
    ((green6 e.2).toNat : Int) = field (nmin RGB.g) fg 63 ∧ ((blue5 e.2).toNat : Int) = field (nmin RGB.b) frb 31 ∧
    (nmax RGB.r ≤ 0 → red5 e.1 = 0) ∧ (nmax RGB.g ≤ 0 → green6 e.1 = 0) ∧ (nmax RGB.b ≤ 0 → blue5 e.1 = 0) ∧
    (nmin RGB.r ≤ 0 → red5 e.2 = 0) ∧ (nmin RGB.g ≤ 0 → green6 e.2 = 0) ∧ (nmin RGB.b ≤ 0 → blue5 e.2 = 0)

/-! ### Alpha -/

/-- 44_alpha.md R266: the two alpha ramps, with the divisions spelled out, and the level each pixel decodes to. -/
def Obligations.AlphaRampLevels : Prop :=
  (∀ (order : BitOrder) (sb : SubBlock) (i : Fin 16),
    (decodeAlpha order sb).get i = alphaRamp sb.lo.q0 sb.lo.q1 (sb.alphaIndex order i)) ∧
  ∀ (a0 a1 : Byte) (i : BitVec 3),
    let n := i.toNat
    let L := (alphaRamp a0 a1 i).toNat
    (n = 0 → L = a0.toNat) ∧ (n = 1 → L = a1.toNat) ∧
    (2 ≤ n → a0.toNat > a1.toNat → L = ((8 - n) * a0.toNat + (n - 1) * a1.toNat) / 7) ∧
    (2 ≤ n → n ≤ 5 → a0.toNat ≤ a1.toNat → L = ((6 - n) * a0.toNat + (n - 1) * a1.toNat) / 5) ∧
    (n = 6 → a0.toNat ≤ a1.toNat → L = 0) ∧ (n = 7 → a0.toNat ≤ a1.toNat → L = 255)

/-- 44_alpha.md R260 to R263, R267 and R268: ENCA completes in every state; bytes 0 and 1 are the greatest and the least
alpha; each stored index is the permutation of the position the three strict comparisons give; every alpha decodes to
within 19 of itself in the order the configuration selects, and exactly where all are equal; `BLK2` and `BLK3` are
unchanged. -/
def Obligations.EncaEncodesWithinNineteen : Prop :=
  ∀ s : State,
    let a (i : Fin 16) : Nat := (s.pixels.get i).a.toNat
    let position (amax amin x : Int) : Nat :=
      let dist := amax - amin
      let v4 := 7 * x - (7 * amin - dist / 2)
      let v2 := if v4 > 4 * dist then v4 - 4 * dist else v4
      let v1 := if v2 > 2 * dist then v2 - 2 * dist else v2
      (if v4 > 4 * dist then 4 else 0) + (if v2 > 2 * dist then 2 else 0) + (if v1 > dist then 1 else 0)
    ∃ t : State, exec .enca s = .next t ∧
      (∀ i : Fin 16, (t.lowBlock.alphaIndex s.cfg.alphaBitOrder i).toNat =
        [1, 7, 6, 5, 4, 3, 2, 0].getD (position t.lowBlock.lo.q0.toNat t.lowBlock.lo.q1.toNat (a i)) 0) ∧
      (∀ i : Fin 16, a i ≤ t.lowBlock.lo.q0.toNat) ∧ (∃ i : Fin 16, a i = t.lowBlock.lo.q0.toNat) ∧
      (∀ i : Fin 16, t.lowBlock.lo.q1.toNat ≤ a i) ∧ (∃ i : Fin 16, a i = t.lowBlock.lo.q1.toNat) ∧
      (∀ i : Fin 16,
        |(((decodeAlpha s.cfg.alphaBitOrder t.lowBlock).get i).toNat : Int) - (a i : Int)| ≤ 19) ∧
      ((∀ i : Fin 16, a i = a 0) →
        ∀ i : Fin 16, ((decodeAlpha s.cfg.alphaBitOrder t.lowBlock).get i).toNat = a i) ∧
      t.specified (.blk 0) = true ∧ t.specified (.blk 1) = true ∧
      t.read (.blk 2) = s.read (.blk 2) ∧ t.read (.blk 3) = s.read (.blk 3) ∧
      t.status = { s.status with err := 0, detail := 0 } ∧ t.lutReady = s.lutReady

/-! ### The block codec -/

/-- 45_block_codec.md R280: ordering gives `c0 >= c1`, swaps exactly when `max16 < min16`, and every pixel keeps the
colour it was matched to. -/
def Obligations.OrderingKeepsTheColours : Prop :=
  ∀ (form : LerpForm) (mx mn : Half) (mask : Word),
    let o := orderEndpoints mx mn mask
    o.c1.toNat ≤ o.c0.toNat ∧ (o.swapped = true ↔ mx.toNat < mn.toNat) ∧
    (o.swapped = true → o.c0 = mn ∧ o.c1 = mx ∧ o.mask = mask ^^^ 0x55555555) ∧
    (o.swapped = false → o.c0 = mx ∧ o.c1 = mn ∧ o.mask = mask) ∧
    ∀ i : Fin 16, (evalColours form o.c0 o.c1).get (maskIndex o.mask i).toFin =
      (evalColours form mx mn).get (maskIndex mask i).toFin

/-- 45_block_codec.md R288: ORDC completes in every state, packs the ordered pair and mask, which are also what the
two block registers then hold, and a second ORDC swaps nothing and changes nothing but `SWAPPED`. 10_state.md R53: the
registers it writes become specified. -/
def Obligations.OrdcOrdersAndIsIdempotent : Prop :=
  ∀ (m : Mode) (s : State),
    let j0 : Fin 4 := match m with
      | .bc1 => 0
      | .bc3 => 2
    let e0 := ep0 (s.read .ep)
    let e1 := ep1 (s.read .ep)
    ∃ t u : State, exec (.ordc m) s = .next t ∧ exec (.ordc m) t = .next u ∧
      t.read .ep = (if e0.toNat < e1.toNat then epWord e1 e0 else epWord e0 e1) ∧
      t.read .mask = (if e0.toNat < e1.toNat then s.read .mask ^^^ 0x55555555 else s.read .mask) ∧
      t.status.swapped = decide (e0.toNat < e1.toNat) ∧
      t.read (.blk j0) = t.read .ep ∧ t.read (.blk (j0 + 1)) = t.read .mask ∧
      t.specified .ep = true ∧ t.specified .mask = true ∧
      t.specified (.blk j0) = true ∧ t.specified (.blk (j0 + 1)) = true ∧
      t.status.err = 0 ∧ t.status.detail = 0 ∧ t.lutReady = s.lutReady ∧
      u = { t with status := { t.status with swapped := false } }

/-- 45_block_codec.md R281 to R283 and R286: ENC completes in every state. The colour sub-block's two words are `EP`
and `MASK`, ordered; the flags are those of `encode_color`, and on the fast path `REF_CHANGED` and `REF_SKIPPED` are
0; with M = 0, `BLK2` and `BLK3` are unchanged. 10_state.md R53: `EP`, `MASK` and the block registers the mode writes
become specified. -/
def Obligations.EncWritesTheBlockAndReports : Prop :=
  ∀ (m : Mode) (q : Quality) (s : State),
    let x := encodeColour s.cfg q s.pixels
    let j0 : Fin 4 := match m with
      | .bc1 => 0
      | .bc3 => 2
    ∃ t : State, exec (.enc m q) s = .next t ∧
      (t.blockOf m).toList = (encodeBlock s.cfg m q s.pixels).toList ∧
      t.read (.blk j0) = t.read .ep ∧ t.read (.blk (j0 + 1)) = t.read .mask ∧
      ep0 (t.read .ep) = x.ordered.c0 ∧ ep1 (t.read .ep) = x.ordered.c1 ∧ t.read .mask = x.ordered.mask ∧
      (ep1 (t.read .ep)).toNat ≤ (ep0 (t.read .ep)).toNat ∧
      t.status.flat = isFlat s.cfg.flatCompare s.pixels ∧ t.status.swapped = x.ordered.swapped ∧
      t.status.refChanged = x.changed ∧ t.status.refSkipped = x.skipped ∧
      (t.status.flat = true → t.status.refChanged = false ∧ t.status.refSkipped = false) ∧
      t.status.err = 0 ∧ t.status.detail = 0 ∧ t.lutReady = true ∧
      t.specified .ep = true ∧ t.specified .mask = true ∧
      (∀ j : Fin 4, m = .bc3 ∨ j.val < 2 → t.specified (.blk j) = true) ∧
      (m = .bc1 → t.read (.blk 2) = s.read (.blk 2) ∧ t.read (.blk 3) = s.read (.blk 3) ∧
        t.specified (.blk 2) = s.specified (.blk 2) ∧ t.specified (.blk 3) = s.specified (.blk 3))

/-- 45_block_codec.md R282: on a block that is not flat, FLATC, ESTC, PALC, MATCHC, REFC, then PALC and MATCHC again
exactly when REFC reports a change, then ORDC, leave the same endpoints, mask and block as ENC, and the whole of `STATUS`
with all four flags. Where the estimator input is pre-dithered (Q = 1 under `cfg.preDither`) they do so with the pixel
registers holding the dithered block for ESTC and REFC, and the original for PALC, MATCHC and ORDC. 41_estimator.md R196
and R197: the dithered block, channel by channel, is the quantised value of the source plus a sixteenth, rounded down, of
7, 3, 5 and 1 times the stored errors of the left, upper right, upper and upper left neighbours, zero outside the tile. -/
def Obligations.EncIsThePipelineOfItsStages : Prop :=
  (∀ (q : Quality) (s s0 s1 s2 s3 s4 s5 s6 s7 t : State), (q = .fast ∨ s.cfg.preDither = false) →
    exec .flatc s = .next s0 → s0.status.flat = false →
    exec .estc s0 = .next s1 → exec .palc s1 = .next s2 → exec (.matchc q) s2 = .next s3 →
    exec .refc s3 = .next s4 →
    (s4.status.refChanged = true → exec .palc s4 = .next s5 ∧ exec (.matchc q) s5 = .next s6) →
    (s4.status.refChanged = false → s6 = s4) →
    exec (.ordc .bc1) s6 = .next s7 → exec (.enc .bc1 q) s = .next t →
    t.read .ep = s7.read .ep ∧ t.read .mask = s7.read .mask ∧ t.read (.blk 0) = s7.read (.blk 0) ∧
    t.read (.blk 1) = s7.read (.blk 1) ∧ t.status = s7.status) ∧
  (∀ (s s0 s1 s2 s3 s4 s5 s6 s7 t : State) (dblk : Tile Pixel), s.cfg.preDither = true →
    dblk.map Pixel.rgb = ditherBlock (s.pixels.map Pixel.rgb) →
    exec .flatc s = .next s0 → s0.status.flat = false →
    exec .estc (s0.putPixels dblk) = .next s1 → exec .palc (s1.putPixels s.pixels) = .next s2 →
    exec (.matchc .dithered) s2 = .next s3 → exec .refc (s3.putPixels dblk) = .next s4 →
    (s4.status.refChanged = true →
      exec .palc (s4.putPixels s.pixels) = .next s5 ∧ exec (.matchc .dithered) s5 = .next s6) →
    (s4.status.refChanged = false → s6 = s4) →
    exec (.ordc .bc1) s6 = .next s7 → exec (.enc .bc1 .dithered) s = .next t →
    t.read .ep = s7.read .ep ∧ t.read .mask = s7.read .mask ∧ t.read (.blk 0) = s7.read (.blk 0) ∧
    t.read (.blk 1) = s7.read (.blk 1) ∧ t.status = s7.status) ∧
  ∀ blk : Tile RGB,
    let out := ditherBlock blk
    let clamp (x : Int) : Int := min (max x 0) 255
    let quantRb (x : Int) : Byte := expand5 (BitVec.ofInt 5 (mulShift8 (clamp x) 31))
    let quantG (x : Int) : Byte := expand6 (BitVec.ofInt 6 (mulShift8 (clamp x) 63))
    let diffused (c : RGB → Byte) (quant : Int → Byte) : Prop := ∃ err : Int → Int → Int,
      (∀ x y : Int, x < 0 ∨ 3 < x ∨ y < 0 ∨ 3 < y → err x y = 0) ∧
      ∀ i : Fin 16,
        let x : Int := (i.val % 4 : Nat)
        let y : Int := (i.val / 4 : Nat)
        let e := 7 * err (x - 1) y + 3 * err (x + 1) (y - 1) + 5 * err x (y - 1) + err (x - 1) (y - 1)
        c (out.get i) = quant (chan (c (blk.get i)) + e / 16) ∧
        err x y = chan (c (blk.get i)) - chan (c (out.get i))
    diffused RGB.r quantRb ∧ diffused RGB.g quantG ∧ diffused RGB.b quantRb

/-- 45_block_codec.md R282 and R283: on a flat block FLATC and ORDC leave what ENC leaves, and a BC3 block is the alpha
sub-block of ENCA followed by the BC1 block of ENC. -/
def Obligations.FlatAndBc3BlocksAreAssembledFromStages : Prop :=
  (∀ (q : Quality) (s s1 s2 t : State), isFlat s.cfg.flatCompare s.pixels = true →
    exec .flatc s = .next s1 → exec (.ordc .bc1) s1 = .next s2 → exec (.enc .bc1 q) s = .next t →
    t.read .ep = s2.read .ep ∧ t.read .mask = s2.read .mask ∧ t.read (.blk 0) = s2.read (.blk 0) ∧
    t.read (.blk 1) = s2.read (.blk 1) ∧ t.status.swapped = s2.status.swapped ∧ t.status.flat = s2.status.flat) ∧
  ∀ (q : Quality) (s a c t : State),
    exec .enca s = .next a → exec (.enc .bc1 q) s = .next c → exec (.enc .bc3 q) s = .next t →
    t.read (.blk 0) = a.read (.blk 0) ∧ t.read (.blk 1) = a.read (.blk 1) ∧
    t.read (.blk 2) = c.read (.blk 0) ∧ t.read (.blk 3) = c.read (.blk 1) ∧
    t.read .ep = c.read .ep ∧ t.read .mask = c.read .mask ∧ t.status = c.status

/-- 45_block_codec.md R284, R285 and R287 with 42_palette_match.md R219 to R222 and 44_alpha.md R266: DEC completes in
every state, and each pixel is the palette entry and alpha level its indices select, with the palette mode, the
entries and the alphas written out. -/
def Obligations.DecLooksUpPaletteAndRamp : Prop :=
  ∀ (m : Mode) (s : State),
    let bc3 := m = .bc3
    let cb := match m with
      | .bc1 => s.lowBlock
      | .bc3 => s.highBlock
    let c0 := from16 cb.c0
    let c1 := from16 cb.c1
    let four := cb.c1.toNat < cb.c0.toNat ∨ (bc3 ∧ s.cfg.bc3Color4Only = true)
    ∃ t : State, exec (.dec m) s = .next t ∧ t.lutReady = true ∧
      t.status = { s.status with err := 0, detail := 0 } ∧
      ∀ i : Fin 16,
        let k := (maskIndex cb.mask i).toNat
        let p := unpackPixel (t.read (.pix i))
        t.specified (.pix i) = true ∧
        (k = 0 → p.rgb = c0) ∧ (k = 1 → p.rgb = c1) ∧
        (k = 2 → four → p.rgb = lerpRgb s.cfg.lerp13 c0 c1) ∧ (k = 3 → four → p.rgb = lerpRgb s.cfg.lerp13 c1 c0) ∧
        (k = 2 → ¬ four → p.r.toNat = (c0.r.toNat + c1.r.toNat) / 2 ∧ p.g.toNat = (c0.g.toNat + c1.g.toNat) / 2 ∧
          p.b.toNat = (c0.b.toNat + c1.b.toNat) / 2) ∧
        (k = 3 → ¬ four → p.rgb = ⟨0, 0, 0⟩) ∧
        (¬ bc3 → p.a = if k = 3 ∧ ¬ four then 0 else s.cfg.bc1OpaqueAlpha) ∧
        (bc3 → p.a = alphaRamp s.lowBlock.lo.q0 s.lowBlock.lo.q1 (s.lowBlock.alphaIndex s.cfg.alphaBitOrder i))

/-- 45_block_codec.md R289(b): under the default 1/3 blend a flat block round-trips through ENC and DEC to within 1 in
each colour channel, in both modes and at both qualities; a BC1 block decodes with the opaque alpha everywhere. -/
def Obligations.FlatBlocksRoundTripWithinOne : Prop :=
  ∀ (m : Mode) (q : Quality) (s t u : State), s.cfg.lerp13 = .mulShift8 →
    isFlat s.cfg.flatCompare s.pixels = true → exec (.enc m q) s = .next t → exec (.dec m) t = .next u →
    ∀ i : Fin 16,
      |chan (u.pixels.get i).r - chan (s.pixels.get i).r| ≤ 1 ∧
      |chan (u.pixels.get i).g - chan (s.pixels.get i).g| ≤ 1 ∧
      |chan (u.pixels.get i).b - chan (s.pixels.get i).b| ≤ 1 ∧
      (m = .bc1 → (u.pixels.get i).a = s.cfg.bc1OpaqueAlpha)

/-- 45_block_codec.md R283: the encoder never emits index 3 with `c0 = c1`, so `cfg.bc3Color4Only` cannot change how
its output decodes; where the dithered matcher is not the free value (log entry 9). -/
def Obligations.EncoderOutputDecodesAlikeInBothPaletteRules : Prop :=
  ∀ (cfg : Cfg) (q : Quality) (blk : Tile Pixel), (q = .fast ∨ cfg.ditherMatch = .ref) →
    let o := (encodeColour cfg q blk).ordered
    (o.c0 = o.c1 → ∀ i : Fin 16, maskIndex o.mask i ≠ 3) ∧
    decodeBlock { cfg with bc3Color4Only := true } (encodeBlock cfg .bc3 q blk) =
      decodeBlock { cfg with bc3Color4Only := false } (encodeBlock cfg .bc3 q blk)

/-! ### The frame commands -/

/-- 46_frame.md R311 and R316 with 20_memory.md R82 and R83: GETBLK completes where its checks pass and the tile's
bytes are written; pixel register `i = 4·dy + dx` holds the four bytes of the frame's pixel (4·BX + dx, 4·BY + dy). -/
def Obligations.GetblkLoadsTheTile : Prop :=
  ∀ s : State, checkFrame .getblk s = none → (∀ a : Nat, inTile s.selectedTile a → (s.pb.read a).isSome = true) →
    ∃ t : State, exec .getblk s = .next t ∧
      (∀ i : Fin 16,
        let a := 4 * ((4 * s.bY.toInt.toNat + i.val / 4) * s.imgW.toInt.toNat + (4 * s.bX.toInt.toNat + i.val % 4))
        let p := unpackPixel (t.read (.pix i))
        s.pb.read a = some p.r ∧ s.pb.read (a + 1) = some p.g ∧ s.pb.read (a + 2) = some p.b ∧
        s.pb.read (a + 3) = some p.a ∧ t.specified (.pix i) = true) ∧
      t.pb = s.pb ∧ t.cb = s.cb ∧ t.status = { s.status with err := 0, detail := 0 } ∧ t.lutReady = s.lutReady

/-- 46_frame.md R317: PUTBLK completes where its checks pass; the tile's 64 bytes are the pixel registers' channels in
order R, G, B, A, and every other byte of both buffers is as before. -/
def Obligations.PutblkStoresTheTile : Prop :=
  ∀ s : State, checkFrame .putblk s = none →
    ∃ t : State, exec .putblk s = .next t ∧
      (∀ i : Fin 16,
        let a := 4 * ((4 * s.bY.toInt.toNat + i.val / 4) * s.imgW.toInt.toNat + (4 * s.bX.toInt.toNat + i.val % 4))
        let p := unpackPixel (s.read (.pix i))
        s.selectedTile.get i = a ∧ t.pb.read a = some p.r ∧ t.pb.read (a + 1) = some p.g ∧
        t.pb.read (a + 2) = some p.b ∧ t.pb.read (a + 3) = some p.a) ∧
      KeepsBytesExcept (inTile s.selectedTile) s.pb t.pb ∧ KeepsBytes s.cb t.cb ∧
      t.status = { s.status with err := 0, detail := 0 } ∧ t.lutReady = s.lutReady

/-- 46_frame.md R317, corner case: PUTBLK followed by GETBLK of the same tile returns the same registers. -/
def Obligations.PutblkThenGetblkReturnsTheRegisters : Prop :=
  ∀ s t : State, checkFrame .putblk s = none → exec .putblk s = .next t →
    ∃ u : State, exec .getblk t = .next u ∧ ∀ i : Fin 16, u.read (.pix i) = s.read (.pix i)

/-- 46_frame.md R310, R312 and R313 with 20_memory.md R84: ENCIMG completes where its checks pass and the frame's
pixels are written. Block (bx, by) of `CB` is `encode_block` of the tile whose pixel `i = 4·dy + dx` is the frame's
pixel at the coordinates clamped to the frame; `PB` and the bytes of `CB` past CBSIZE are as before. -/
def Obligations.EncimgEncodesEveryTile : Prop :=
  ∀ (m : Mode) (q : Quality) (s : State), checkFrame (.encimg m) s = none → PbWritten s →
    let W := s.imgW.toInt.toNat
    let H := s.imgH.toInt.toNat
    let BW := (W + 3) / 4
    let BS := match m with
      | .bc1 => 8
      | .bc3 => 16
    ∃ t : State, exec (.encimg m q) s = .next t ∧
      (∀ bx bY : Nat, bx < BW → bY < (H + 3) / 4 →
        ∃ blk : Tile Pixel,
          (∀ i : Fin 16,
            let a := 4 * (min (4 * bY + i.val / 4) (H - 1) * W + min (4 * bx + i.val % 4) (W - 1))
            s.pb.read a = some (blk.get i).r ∧ s.pb.read (a + 1) = some (blk.get i).g ∧
            s.pb.read (a + 2) = some (blk.get i).b ∧ s.pb.read (a + 3) = some (blk.get i).a) ∧
          ∀ k : Nat, k < BS →
            t.cb.read ((bY * BW + bx) * BS + k) = (encodeBlock s.cfg m q blk).toList[k]?) ∧
      KeepsBytesExcept (· < s.frame.cbSize m) s.cb t.cb ∧ KeepsBytes s.pb t.pb ∧
      t.status = { s.status with err := 0, detail := 0 } ∧ t.lutReady = true

/-- 46_frame.md R314 and R315: DECIMG completes where its checks pass and the frame's blocks are written. Pixel (x, y)
of the frame is pixel `4·(y mod 4) + x mod 4` of `decode_block` of block (x div 4, y div 4); `CB` and every byte of
`PB` outside the frame are as before. -/
def Obligations.DecimgDecodesEveryTile : Prop :=
  ∀ (m : Mode) (s : State), checkFrame (.decimg m) s = none → CbWritten m s →
    let W := s.imgW.toInt.toNat
    let H := s.imgH.toInt.toNat
    let BW := (W + 3) / 4
    let BS := match m with
      | .bc1 => 8
      | .bc3 => 16
    ∃ t : State, exec (.decimg m) s = .next t ∧
      (∀ x y : Nat, x < W → y < H →
        ∃ b : Block, b.toList.length = BS ∧
          (∀ k : Nat, k < BS → b.toList[k]? = s.cb.read ((y / 4 * BW + x / 4) * BS + k)) ∧
          let p := (decodeBlock s.cfg b).get (Fin.ofNat 16 (4 * (y % 4) + x % 4))
          let a := 4 * (y * W + x)
          t.pb.read a = some p.r ∧ t.pb.read (a + 1) = some p.g ∧ t.pb.read (a + 2) = some p.b ∧
          t.pb.read (a + 3) = some p.a) ∧
      KeepsBytesExcept (· < s.frame.pbSize) s.pb t.pb ∧ KeepsBytes s.cb t.cb ∧
      t.status = { s.status with err := 0, detail := 0 } ∧ t.lutReady = true

/-- 46_frame.md R318: the tiles of a frame are independent. A unit that runs GETBLK and ENC on a tile wholly inside the
frame gets, in its block registers, the bytes ENCIMG writes for that tile, whether in the same unit or in another whose
`PB` holds the same tile. A unit that runs DEC and PUTBLK on such a tile, its block registers holding the tile's bytes of
`CB`, writes the bytes DECIMG writes for that tile. Different tiles have no byte of `PB` and no byte of `CB` in common, so
neither order nor division among units is seen. -/
def Obligations.BlockCommandsAgreeWithEncimg : Prop :=
  (∀ (m : Mode) (q : Quality) (s x g e t : State),
    x.cfg = s.cfg → x.imgW = s.imgW → x.imgH = s.imgH →
    checkFrame .getblk x = none → checkFrame (.encimg m) s = none →
    (∀ a : Nat, inTile x.selectedTile a → x.pb.read a = s.pb.read a) →
    exec .getblk x = .next g → exec (.enc m q) g = .next e → exec (.encimg m q) s = .next t →
    let n := x.bY.toInt.toNat * s.frame.bw + x.bX.toInt.toNat
    ∀ k : Nat, k < Mode.blockSize m → t.cb.read (n * Mode.blockSize m + k) = (e.blockOf m).toList[k]?) ∧
  (∀ (m : Mode) (s x d p t : State),
    x.cfg = s.cfg → x.imgW = s.imgW → x.imgH = s.imgH →
    checkFrame .putblk x = none → checkFrame (.decimg m) s = none →
    let n := x.bY.toInt.toNat * s.frame.bw + x.bX.toInt.toNat
    (∀ k : Nat, k < Mode.blockSize m → (x.blockOf m).toList[k]? = s.cb.read (n * Mode.blockSize m + k)) →
    exec (.dec m) x = .next d → exec .putblk d = .next p → exec (.decimg m) s = .next t →
    ∀ a : Nat, inTile x.selectedTile a → p.pb.read a = t.pb.read a) ∧
  ∀ (f : Frame) (m : Mode) (bx bY bx' bY' : Nat), 4 * bx + 3 < f.w → 4 * bY + 3 < f.h → 4 * bx' + 3 < f.w →
    4 * bY' + 3 < f.h → (bx ≠ bx' ∨ bY ≠ bY') →
    (∀ a : Nat, ¬ (inTile (tileAddrs f bx bY) a ∧ inTile (tileAddrs f bx' bY') a)) ∧
    ∀ k k' : Nat, k < Mode.blockSize m → k' < Mode.blockSize m →
      (bY * f.bw + bx) * Mode.blockSize m + k ≠ (bY' * f.bw + bx') * Mode.blockSize m + k'

/-! ### Frames -/

/-- What INIT, ESTC, FLATC, PALC, MATCHC, REFC, ENCA, ENC, DEC and ORDC leave unchanged: every register but those
their rules write, every flag but those R35 names, `ERR_SEEN`, all of both buffers, the configuration; ERR and DETAIL
are cleared, and `LUT_READY` is set by the table users and left alone by the others. -/
def Obligations.RegisterCommandsKeepTheRest : Prop :=
  ∀ (i : Instr) (s t : State),
    (i = .init ∨ i = .estc ∨ i = .flatc ∨ i = .palc ∨ i = .refc ∨ i = .enca ∨ (∃ q, i = .matchc q) ∨
      (∃ m q, i = .enc m q) ∨ (∃ m, i = .dec m) ∨ ∃ m, i = .ordc m) →
    exec i s = .next t →
    KeepsRegsExcept (writtenRegs i) s t ∧ KeepsFlagsExcept (writtenFlags i) s t ∧ KeepsOutside s t ∧
    KeepsBytes s.pb t.pb ∧ KeepsBytes s.cb t.cb ∧ t.status.err = 0 ∧ t.status.detail = 0 ∧
    t.lutReady = (s.lutReady || usesTables i)

/-- What GETBLK, PUTBLK, ENCIMG and DECIMG leave unchanged, whether they succeed or fail: every register but
`PIX0`–`PIX15` of a successful GETBLK, the four flags, the configuration, the buffer they do not write, and every byte
of `PB` or `CB` outside the tile or frame they store to. -/
def Obligations.FrameCommandsKeepTheRest : Prop :=
  ∀ (i : Instr) (s t : State),
    (i = .getblk ∨ i = .putblk ∨ (∃ m q, i = .encimg m q) ∨ ∃ m, i = .decimg m) → exec i s = .next t →
    KeepsRegsExcept (if t.status.err = 0 then writtenRegs i else []) s t ∧ KeepsOutside s t ∧
    (∀ f : Flag, t.status.flag f = s.status.flag f) ∧
    (t.status.errSeen = true ↔ s.status.errSeen = true ∨ t.status.err ≠ 0) ∧
    t.lutReady = (s.lutReady || (usesTables i && t.status.err == 0)) ∧
    (i = .putblk → KeepsBytesExcept (inTile s.selectedTile) s.pb t.pb) ∧
    ((∃ m, i = .decimg m) → KeepsBytesExcept (· < s.frame.pbSize) s.pb t.pb) ∧
    (i = .getblk ∨ (∃ m q, i = .encimg m q) → KeepsBytes s.pb t.pb) ∧
    (∀ m q, i = .encimg m q → KeepsBytesExcept (· < s.frame.cbSize m) s.cb t.cb) ∧
    (i = .getblk ∨ i = .putblk ∨ (∃ m, i = .decimg m) → KeepsBytes s.cb t.cb) ∧
    (t.status.err ≠ 0 → t.pb = s.pb ∧ t.cb = s.cb)

/-! ### Several units -/

/-- 10_state.md R54: a step of one unit of a system is that unit's own step and leaves every other unit as it was, and
steps of two different units give the same system in either order. -/
def Obligations.UnitsDoNotInterfere : Prop :=
  ∀ (sys sys1 : System) (k : Fin sys.units.length), sys.stepUnit k = .next sys1 →
    sys1.units.length = sys.units.length ∧
    (∀ s : State, sys1.units[k.val]? = some s → step (sys.units.get k) = .next s) ∧
    (∀ j : Nat, j ≠ k.val → sys1.units[j]? = sys.units[j]?) ∧
    ∀ (l : Fin sys1.units.length) (sys2 : System), l.val ≠ k.val → sys1.stepUnit l = .next sys2 →
      ∃ (l' : Fin sys.units.length) (sys1' : System) (k' : Fin sys1'.units.length),
        l'.val = l.val ∧ k'.val = k.val ∧ sys.stepUnit l' = .next sys1' ∧ sys1'.stepUnit k' = .next sys2
end

