-- ==== Sys2Proof/Laws/Word.lean ====
section
/-! SUPPORT. Reading the containers of four and sixteen things, and taking the packed data formats apart. -/

namespace Sys2Proof

/-! ### Four things -/

/-- A statement about all four numbers, number by number. -/
theorem forall_fin4 {P : Fin 4 → Prop} : (∀ i, P i) ↔ P 0 ∧ P 1 ∧ P 2 ∧ P 3 := by
  constructor
  · intro h
    exact ⟨h 0, h 1, h 2, h 3⟩
  · rintro ⟨h0, h1, h2, h3⟩ i
    fin_cases i <;> assumption

@[simp] theorem Quad.get_fill {α : Type} (a : α) (i : Fin 4) : (Quad.fill a).get i = a := by
  fin_cases i <;> rfl

@[simp] theorem Quad.get_map {α β : Type} (f : α → β) (q : Quad α) (i : Fin 4) : (q.map f).get i = f (q.get i) := by
  fin_cases i <;> rfl

@[simp] theorem Quad.get_zipWith {α β γ : Type} (f : α → β → γ) (p : Quad α) (q : Quad β) (i : Fin 4) :
    (p.zipWith f q).get i = f (p.get i) (q.get i) := by
  fin_cases i <;> rfl

theorem Quad.get_set {α : Type} (q : Quad α) (i j : Fin 4) (a : α) :
    (q.set i a).get j = if j = i then a else q.get j := by
  fin_cases i <;> fin_cases j <;> rfl

/-- Two containers of four are equal when all their things are. -/
theorem Quad.ext_get {α : Type} {p q : Quad α} (h : ∀ i : Fin 4, p.get i = q.get i) : p = q := by
  cases p; cases q
  have h0 := h 0; have h1 := h 1; have h2 := h 2; have h3 := h 3
  simp only [Quad.get] at h0 h1 h2 h3
  simp_all

/-- A traversal succeeds with `r` exactly when each of its four calls gives the thing `r` holds. -/
theorem Quad.traverse_eq_ok {α β ε : Type} (f : α → Except ε β) (q : Quad α) (r : Quad β) :
    q.traverse f = .ok r ↔ ∀ i : Fin 4, f (q.get i) = .ok (r.get i) := by
  cases q with | mk a b c d =>
  cases r with | mk a' b' c' d' =>
  simp only [forall_fin4, Quad.traverse, Quad.get]
  cases h0 : f a with
  | error e => simp
  | ok x0 =>
  cases h1 : f b with
  | error e => simp
  | ok x1 =>
  cases h2 : f c with
  | error e => simp
  | ok x2 => cases h3 : f d <;> simp

/-- A traversal that fails fails with what one of its calls failed with. -/
theorem Quad.traverse_eq_error {α β ε : Type} (f : α → Except ε β) (q : Quad α) (e : ε) (h : q.traverse f = .error e) :
    ∃ i : Fin 4, f (q.get i) = .error e := by
  cases q with | mk a b c d =>
  simp only [Quad.traverse] at h
  split at h
  · exact ⟨0, by simp_all [Quad.get]⟩
  split at h
  · exact ⟨1, by simp_all [Quad.get]⟩
  split at h
  · exact ⟨2, by simp_all [Quad.get]⟩
  split at h
  · exact ⟨3, by simp_all [Quad.get]⟩
  · cases h

/-! ### Sixteen things -/

@[simp] theorem Tile.get_fill {α : Type} (a : α) (i : Fin 16) : (Tile.fill a).get i = a := by
  fin_cases i <;> rfl

@[simp] theorem Tile.get_map {α β : Type} (f : α → β) (t : Tile α) (i : Fin 16) : (t.map f).get i = f (t.get i) := by
  fin_cases i <;> rfl

@[simp] theorem Tile.get_zipWith {α β γ : Type} (f : α → β → γ) (s : Tile α) (t : Tile β) (i : Fin 16) :
    (s.zipWith f t).get i = f (s.get i) (t.get i) := by
  fin_cases i <;> rfl

@[simp] theorem Tile.get_indices (i : Fin 16) : Tile.indices.get i = i := by
  fin_cases i <;> rfl

@[simp] theorem Tile.get_tabulate {α : Type} (f : Nat → Nat → α) (i : Fin 16) :
    (Tile.tabulate f).get i = f (i.val % 4) (i.val / 4) := by
  fin_cases i <;> rfl

theorem Tile.get_set {α : Type} (t : Tile α) (i j : Fin 16) (a : α) :
    (t.set i a).get j = if j = i then a else t.get j := by
  fin_cases i <;> fin_cases j <;> rfl

/-- Two tiles are equal when all their things are. -/
theorem Tile.ext_get {α : Type} {s t : Tile α} (h : ∀ i : Fin 16, s.get i = t.get i) : s = t := by
  have hr : ∀ y x : Fin 4, (s.row y).get x = (t.row y).get x := by
    intro y x
    have := h ⟨4 * y.val + x.val, by omega⟩
    have e1 : Tile.rowOf ⟨4 * y.val + x.val, by omega⟩ = y := Fin.ext (by simp only [Tile.rowOf]; omega)
    have e2 : Tile.colOf ⟨4 * y.val + x.val, by omega⟩ = x := Fin.ext (by simp only [Tile.colOf]; omega)
    simpa only [Tile.get, e1, e2] using this
  have h0 := Quad.ext_get (hr 0)
  have h1 := Quad.ext_get (hr 1)
  have h2 := Quad.ext_get (hr 2)
  have h3 := Quad.ext_get (hr 3)
  cases s; cases t
  simp only [Tile.row] at h0 h1 h2 h3
  simp_all

/-- Thing number `i` in raster order. -/
theorem Tile.getElem?_toList {α : Type} (t : Tile α) (i : Fin 16) : t.toList[i.val]? = some (t.get i) := by
  fin_cases i <;> rfl

@[simp] theorem Tile.length_toList {α : Type} (t : Tile α) : t.toList.length = 16 := rfl

/-- A thing is listed exactly when it has a number. -/
theorem Tile.mem_toList {α : Type} (t : Tile α) (a : α) : a ∈ t.toList ↔ ∃ i : Fin 16, t.get i = a := by
  constructor
  · intro h
    obtain ⟨n, hn, rfl⟩ := List.getElem_of_mem h
    refine ⟨⟨n, hn⟩, ?_⟩
    have := t.getElem?_toList ⟨n, hn⟩
    rw [List.getElem?_eq_getElem hn] at this
    exact (Option.some.inj this).symm
  · rintro ⟨i, rfl⟩
    exact List.mem_of_getElem? (t.getElem?_toList i)

/-- A traversal succeeds with `r` exactly when each of its sixteen calls gives the thing `r` holds. -/
theorem Tile.traverse_eq_ok {α β ε : Type} (f : α → Except ε β) (t : Tile α) (r : Tile β) :
    t.traverse f = .ok r ↔ ∀ i : Fin 16, f (t.get i) = .ok (r.get i) := by
  have rows : t.traverse f = .ok r ↔ ∀ y : Fin 4, (t.row y).traverse f = .ok (r.row y) := by
    cases t with | mk a b c d =>
    cases r with | mk a' b' c' d' =>
    simp only [forall_fin4, Tile.traverse, Tile.row]
    cases h0 : a.traverse f with
    | error e => simp
    | ok x0 =>
    cases h1 : b.traverse f with
    | error e => simp
    | ok x1 =>
    cases h2 : c.traverse f with
    | error e => simp
    | ok x2 => cases h3 : d.traverse f <;> simp
  rw [rows]
  simp only [Quad.traverse_eq_ok]
  constructor
  · intro h i
    exact h _ _
  · intro h y x
    have := h ⟨4 * y.val + x.val, by omega⟩
    have e1 : Tile.rowOf ⟨4 * y.val + x.val, by omega⟩ = y := Fin.ext (by simp only [Tile.rowOf]; omega)
    have e2 : Tile.colOf ⟨4 * y.val + x.val, by omega⟩ = x := Fin.ext (by simp only [Tile.colOf]; omega)
    simpa only [Tile.get, e1, e2] using this

/-- A traversal that fails fails with what one of its calls failed with. -/
theorem Tile.traverse_eq_error {α β ε : Type} (f : α → Except ε β) (t : Tile α) (e : ε)
    (h : t.traverse f = .error e) : ∃ i : Fin 16, f (t.get i) = .error e := by
  have row : ∀ y : Fin 4, (t.row y).traverse f = .error e → ∃ i : Fin 16, f (t.get i) = .error e := by
    intro y hy
    obtain ⟨x, hx⟩ := Quad.traverse_eq_error f _ e hy
    refine ⟨⟨4 * y.val + x.val, by omega⟩, ?_⟩
    have e1 : Tile.rowOf ⟨4 * y.val + x.val, by omega⟩ = y := Fin.ext (by simp only [Tile.rowOf]; omega)
    have e2 : Tile.colOf ⟨4 * y.val + x.val, by omega⟩ = x := Fin.ext (by simp only [Tile.colOf]; omega)
    simpa only [Tile.get, e1, e2] using hx
  simp only [Tile.traverse] at h
  split at h
  · exact row 0 (by simp_all [Tile.row])
  split at h
  · exact row 1 (by simp_all [Tile.row])
  split at h
  · exact row 2 (by simp_all [Tile.row])
  split at h
  · exact row 3 (by simp_all [Tile.row])
  · cases h

end Sys2Proof

namespace Sys2Proof.Machine

open Sys2Proof

/-! ### Joins of bits -/

/-- The low part of a join of bits. -/
theorem extract_append_low {m n : Nat} (x : BitVec m) (y : BitVec n) : (x ++ y).extractLsb' 0 n = y := by
  ext i hi
  simp [BitVec.getLsbD_append, hi]

/-- A field of the high part of a join of bits. -/
theorem extract_append_high {m n : Nat} (x : BitVec m) (y : BitVec n) (k l : Nat) :
    (x ++ y).extractLsb' (n + k) l = x.extractLsb' k l := by
  ext i hi
  have h : ¬ n + k + i < n := by omega
  have e : n + k + i - n = k + i := by omega
  simp [BitVec.getLsbD_append, h, e]

/-- A field of the low part of a join of bits. -/
theorem extract_append_within {m n : Nat} (x : BitVec m) (y : BitVec n) (k l : Nat) (h : k + l ≤ n) :
    (x ++ y).extractLsb' k l = y.extractLsb' k l := by
  ext i hi
  have h : k + i < n := by omega
  simp [BitVec.getLsbD_append, h]

/-- All of a word. -/
theorem extract_self {n : Nat} (x : BitVec n) : x.extractLsb' 0 n = x := by
  ext i hi
  simp

/-- A word is the join of its high and low parts. -/
theorem join_extract {m n : Nat} (x : BitVec (m + n)) : x.extractLsb' n m ++ x.extractLsb' 0 n = x := by
  simp

/-- A field of a field. -/
theorem extract_extract {n : Nat} (x : BitVec n) (k l k' l' : Nat) (h : k' + l' ≤ l) :
    (x.extractLsb' k l).extractLsb' k' l' = x.extractLsb' (k + k') l' := by
  ext i hi
  have h1 : k' + i < l := by omega
  have h2 : k + (k' + i) = k + k' + i := by omega
  simp [h1, h2]

/-- A field within one of four joined parts of `n` bits. -/
theorem extract_join4 {n : Nat} (q : Quad (BitVec n)) (j : Fin 4) (k l : Nat) (h : k + l ≤ n) :
    (q.q3 ++ q.q2 ++ q.q1 ++ q.q0).extractLsb' (n * j.val + k) l = (q.get j).extractLsb' k l := by
  fin_cases j
  · simpa [Quad.get] using extract_append_within (q.q3 ++ q.q2 ++ q.q1) q.q0 k l h
  · have e1 := extract_append_high (q.q3 ++ q.q2 ++ q.q1) q.q0 k l
    have e2 := extract_append_within (q.q3 ++ q.q2) q.q1 k l h
    simpa [Quad.get] using e1.trans e2
  · have e1 := extract_append_high (q.q3 ++ q.q2 ++ q.q1) q.q0 (n + k) l
    have e2 := extract_append_high (q.q3 ++ q.q2) q.q1 k l
    have e3 := extract_append_within q.q3 q.q2 k l h
    have e : n * 2 + k = n + (n + k) := by omega
    simpa [Quad.get, e] using e1.trans (e2.trans e3)
  · have e1 := extract_append_high (q.q3 ++ q.q2 ++ q.q1) q.q0 (n + (n + k)) l
    have e2 := extract_append_high (q.q3 ++ q.q2) q.q1 (n + k) l
    have e3 := extract_append_high q.q3 q.q2 k l
    have e : n * 3 + k = n + (n + (n + k)) := by omega
    simpa [Quad.get, e] using e1.trans (e2.trans e3)

/-! ### Packed formats -/

/-- Byte `j` of a word of four bytes. -/
theorem extract_bytes (q : Quad Byte) (j : Fin 4) :
    (q.q3 ++ q.q2 ++ q.q1 ++ q.q0 : Word).extractLsb' (8 * j.val) 8 = q.get j :=
  (extract_join4 q j 0 8 (by omega)).trans (extract_self _)

@[simp] theorem unpackPixel_packPixel (p : Pixel) : unpackPixel (packPixel p) = p :=
  have f := extract_bytes ⟨p.r, p.g, p.b, p.a⟩
  (Pixel.mk.injEq ..).mpr ⟨f 0, f 1, f 2, f 3⟩

@[simp] theorem rgb_unpackPixel_packColour (c : RGB) : (unpackPixel (packColour c)).rgb = c := by
  simp only [packColour, unpackPixel_packPixel, Pixel.rgb]

@[simp] theorem wordBytes_bytesWord (q : Quad Byte) : wordBytes (bytesWord q) = q :=
  have f := extract_bytes q
  (Quad.mk.injEq ..).mpr ⟨f 0, f 1, f 2, f 3⟩

@[simp] theorem ep0_epWord (e0 e1 : Half) : ep0 (epWord e0 e1) = e0 := extract_append_low _ _

@[simp] theorem ep1_epWord (e0 e1 : Half) : ep1 (epWord e0 e1) = e1 :=
  (extract_append_high e1 e0 0 16).trans (extract_self e1)

/-- The indices of a packed mask are those packed. -/
@[simp] theorem unpackMask_packMask (t : Tile (BitVec 2)) : unpackMask (packMask t) = t := by
  have row (q : Quad (BitVec 2)) (x : Fin 4) : (packMaskRow q).extractLsb' (2 * x.val) 2 = q.get x :=
    (extract_join4 q x 0 2 (by omega)).trans (extract_self _)
  have index (y x : Fin 4) :
      (packMask t).extractLsb' (8 * y.val + 2 * x.val) 2 = ((t.row y).get x) := by
    have h := extract_join4 ⟨packMaskRow t.r0, packMaskRow t.r1, packMaskRow t.r2, packMaskRow t.r3⟩ y (2 * x.val) 2
      (by omega)
    refine Eq.trans h (Eq.trans ?_ (row (t.row y) x))
    fin_cases y <;> rfl
  refine Tile.ext_get fun i => ?_
  simp only [unpackMask, Tile.get_map, Tile.get_indices, maskIndex]
  have e : 2 * i.val = 8 * (Tile.rowOf i).val + 2 * (Tile.colOf i).val := by
    simp only [Tile.rowOf, Tile.colOf]; omega
  rw [e, index]
  rfl

@[simp] theorem SubBlock.c0_packColourBlock (c0 c1 : Half) (mask : Word) : (packColourBlock c0 c1 mask).c0 = c0 :=
  join_extract (m := 8) (n := 8) c0

@[simp] theorem SubBlock.c1_packColourBlock (c0 c1 : Half) (mask : Word) : (packColourBlock c0 c1 mask).c1 = c1 :=
  join_extract (m := 8) (n := 8) c1

@[simp] theorem bytesWord_wordBytes (w : Word) : bytesWord (wordBytes w) = w := by
  have e1 : w.extractLsb' 8 24 ++ w.extractLsb' 0 8 = w := join_extract (m := 24) (n := 8) w
  have e2 : (w.extractLsb' 8 24).extractLsb' 8 16 ++ (w.extractLsb' 8 24).extractLsb' 0 8 = w.extractLsb' 8 24 :=
    join_extract (m := 16) (n := 8) _
  have e3 : (w.extractLsb' 16 16).extractLsb' 8 8 ++ (w.extractLsb' 16 16).extractLsb' 0 8 = w.extractLsb' 16 16 :=
    join_extract (m := 8) (n := 8) _
  rw [extract_extract w 8 24 8 16 (by omega), extract_extract w 8 24 0 8 (by omega)] at e2
  rw [extract_extract w 16 16 8 8 (by omega), extract_extract w 16 16 0 8 (by omega)] at e3
  refine Eq.trans ?_ e1
  refine congrArg (· ++ w.extractLsb' 0 8) (Eq.trans ?_ e2)
  exact congrArg (· ++ w.extractLsb' 8 8) e3

@[simp] theorem SubBlock.mask_packColourBlock (c0 c1 : Half) (mask : Word) :
    (packColourBlock c0 c1 mask).mask = mask := bytesWord_wordBytes mask

end Sys2Proof.Machine
end

