-- ==== Sys2Proof/Laws/Diffusion.lean ====
section
/-! SUPPORT. What the 7/3/5/1 error diffusion of a tile does, for the dithered matcher and the pre-dither alike
(42_palette_match.md R217, 41_estimator.md R196). -/

namespace Sys2Proof.Machine

open Sys2Proof

/-- The error gathered at column `x` of row `y`: 7, 3, 5 and 1 times the stored errors of the left, upper right, upper
and upper left neighbours. -/
def gatheredError (err : Int → Int → Int) (x y : Int) : Int :=
  7 * err (x - 1) y + 3 * err (x + 1) (y - 1) + 5 * err x (y - 1) + err (x - 1) (y - 1)

/-- The stored errors of a tile by column and row, 0 outside it. -/
def storedError (t : Tile Int) (x y : Int) : Int :=
  if h : 0 ≤ x ∧ x ≤ 3 ∧ 0 ≤ y ∧ y ≤ 3 then t.get ⟨4 * y.toNat + x.toNat, by omega⟩ else 0

/-- The stored errors of the diffusion of a tile. -/
def diffusedErrors {α : Type} (cell : Int → Int → α × Int) (t : Tile Int) : Tile Int :=
  let d0 := diffuseRow cell (Quad.fill 0) t.r0
  let d1 := diffuseRow cell d0.2 t.r1
  let d2 := diffuseRow cell d1.2 t.r2
  ⟨d0.2, d1.2, d2.2, (diffuseRow cell d2.2 t.r3).2⟩

/-- Each pixel of a diffused tile, and the error it stores, is what `cell` makes of its source value and the error
gathered from its neighbours. -/
theorem diffuseTile_cell {α : Type} (cell : Int → Int → α × Int) (t : Tile Int) (i : Fin 16) :
    cell (t.get i) (gatheredError (storedError (diffusedErrors cell t)) (i.val % 4 : Nat) (i.val / 4 : Nat)) =
      ((diffuseTile cell t).get i, storedError (diffusedErrors cell t) (i.val % 4 : Nat) (i.val / 4 : Nat)) := by
  obtain ⟨⟨a0, a1, a2, a3⟩, ⟨b0, b1, b2, b3⟩, ⟨c0, c1, c2, c3⟩, ⟨d0, d1, d2, d3⟩⟩ := t
  fin_cases i <;>
    simp [gatheredError, storedError, diffusedErrors, diffuseTile, diffuseRow, Tile.get, Tile.row, Tile.rowOf,
      Tile.colOf, Quad.get, Quad.fill]

/-- Outside the tile the stored errors are 0. -/
theorem storedError_outside (t : Tile Int) {x y : Int} (h : x < 0 ∨ 3 < x ∨ y < 0 ∨ 3 < y) : storedError t x y = 0 := by
  simp only [storedError]
  rw [dif_neg (by omega)]

end Sys2Proof.Machine
end

