-- ==== Sys2Proof/Laws/Memory.lean ====
section
/-! SUPPORT. The buffers: a read after a write, that every operation keeps the canonical form, and when reads of
several bytes succeed. -/

namespace Sys2Proof.Machine

open Sys2Proof

/-! ### One byte -/

/-- The byte just written. -/
@[simp] theorem Memory.read_write_same (m : Memory) (a : Nat) (b : Byte) : (m.write a b).read a = some b := by
  induction m with
  | nil => simp [Memory.write, Memory.read]
  | cons c m ih =>
    obtain ⟨x, y⟩ := c
    simp only [Memory.write]
    split
    · simp [Memory.read]
    · split
      · simp [Memory.read]
      · rename_i h
        simp [Memory.read, h, ih]

/-- A write leaves every other byte alone. -/
theorem Memory.read_write_other (m : Memory) {a a' : Nat} (b : Byte) (h : a' ≠ a) :
    (m.write a b).read a' = m.read a' := by
  induction m with
  | nil => simp [Memory.write, Memory.read, h]
  | cons c m ih =>
    obtain ⟨x, y⟩ := c
    simp only [Memory.write]
    split
    · simp [Memory.read, h]
    · split
      · rename_i e
        subst e
        simp [Memory.read, h]
      · simp [Memory.read, ih]

/-- Reading any byte after a write. -/
theorem Memory.read_write (m : Memory) (a a' : Nat) (b : Byte) :
    (m.write a b).read a' = if a' = a then some b else m.read a' := by
  split
  · subst a'
    exact m.read_write_same a b
  · exact m.read_write_other b ‹_›

/-- The offsets of a written buffer are those before and the one written. -/
theorem Memory.mem_write {m : Memory} {a : Nat} {b : Byte} {c : Host.Cell} (h : c ∈ m.write a b) :
    c = (a, b) ∨ c ∈ m := by
  induction m with
  | nil => simpa [Memory.write] using h
  | cons d m ih =>
    obtain ⟨x, y⟩ := d
    simp only [Memory.write] at h
    split at h
    · simpa using h
    · split at h
      · rcases List.mem_cons.mp h with h | h
        · exact .inl h
        · exact .inr (List.mem_cons_of_mem _ h)
      · rcases List.mem_cons.mp h with h | h
        · exact .inr (h ▸ List.mem_cons_self)
        · rcases ih h with h | h
          · exact .inl h
          · exact .inr (List.mem_cons_of_mem _ h)

/-- No buffer byte is listed at first. -/
theorem Memory.wf_nil : Memory.wf [] := ⟨List.Pairwise.nil, by simp⟩

/-- A write at an offset that exists keeps the canonical form. -/
theorem Memory.wf_write {m : Memory} (h : m.wf) {a : Nat} (b : Byte) (ha : a < bufferSize) : (m.write a b).wf := by
  constructor
  · replace h := h.1
    induction m with
    | nil => simp [Memory.write]
    | cons d m ih =>
      obtain ⟨x, y⟩ := d
      rw [List.pairwise_cons] at h
      simp only [Memory.write]
      split
      · rename_i lt
        refine List.pairwise_cons.mpr ⟨fun c hc => ?_, List.pairwise_cons.mpr h⟩
        rcases List.mem_cons.mp hc with rfl | hc
        · exact lt
        · exact Nat.lt_trans lt (h.1 c hc)
      · split
        · rename_i e
          subst e
          exact List.pairwise_cons.mpr ⟨fun c hc => h.1 c hc, h.2⟩
        · rename_i nlt ne
          refine List.pairwise_cons.mpr ⟨fun c hc => ?_, ih h.2⟩
          rcases Memory.mem_write hc with rfl | hc
          · exact Nat.lt_of_le_of_ne (Nat.le_of_not_lt nlt) (Ne.symm ne)
          · exact h.1 c hc
  · intro c hc
    rcases Memory.mem_write hc with rfl | hc
    · exact ha
    · exact h.2 c hc

/-! ### Several bytes -/

/-- Reading any byte after a write of several. -/
theorem Memory.read_writeBytes (m : Memory) (a : Nat) (bs : List Byte) (a' : Nat) :
    (m.writeBytes a bs).read a' = if a ≤ a' ∧ a' < a + bs.length then bs[a' - a]? else m.read a' := by
  induction bs generalizing m a with
  | nil =>
    simp [Memory.writeBytes]
  | cons b bs ih =>
    simp only [Memory.writeBytes, ih, Memory.read_write, List.length_cons]
    by_cases e : a' = a
    · subst e
      simp
    · by_cases h : a + 1 ≤ a' ∧ a' < a + 1 + bs.length
      · have h2 : a ≤ a' ∧ a' < a + (bs.length + 1) := by omega
        have h3 : a' - a = (a' - (a + 1)) + 1 := by omega
        simp only [h, h2, and_self, if_true, h3, List.getElem?_cons_succ]
      · have h2 : ¬ (a ≤ a' ∧ a' < a + (bs.length + 1)) := by omega
        simp only [h, h2, if_false, e]

/-- A write of bytes at offsets that exist keeps the canonical form. -/
theorem Memory.wf_writeBytes {m : Memory} (h : m.wf) {a : Nat} (bs : List Byte) (ha : a + bs.length ≤ bufferSize) :
    (m.writeBytes a bs).wf := by
  induction bs generalizing m a with
  | nil => exact h
  | cons b bs ih =>
    simp only [List.length_cons] at ha
    exact ih (Memory.wf_write h b (by omega)) (by omega)

/-- A byte is read when it has been written. -/
theorem readByte_eq_ok (buf : Buf) (m : Memory) (a : Nat) (b : Byte) : readByte buf m a = .ok b ↔ m.read a = some b := by
  simp only [readByte]
  cases m.read a <;> simp

/-- A read of a byte that fails, fails with `UNINIT` at that offset, which nothing has written. -/
theorem readByte_eq_error (buf : Buf) (m : Memory) (a : Nat) (e : Fault) :
    readByte buf m a = .error e ↔ e = .uninit buf a ∧ m.read a = none := by
  simp only [readByte]
  cases m.read a <;> simp [eq_comm]

/-- Four bytes are read when all have been written. -/
theorem readQuad_eq_ok (buf : Buf) (m : Memory) (a : Nat) (q : Quad Byte) :
    readQuad buf m a = .ok q ↔ ∀ i : Fin 4, m.read (a + i.val) = some (q.get i) := by
  simp only [readQuad, Quad.traverse_eq_ok, readByte_eq_ok]
  refine forall_congr' fun i => ?_
  have e : (⟨a, a + 1, a + 2, a + 3⟩ : Quad Nat).get i = a + i.val := by fin_cases i <;> rfl
  rw [e]

/-- A read of four bytes that fails, fails with `UNINIT` at one of them, which nothing has written. -/
theorem readQuad_eq_error (buf : Buf) (m : Memory) (a : Nat) (e : Fault) (h : readQuad buf m a = .error e) :
    ∃ i : Fin 4, e = .uninit buf (a + i.val) ∧ m.read (a + i.val) = none := by
  obtain ⟨i, hi⟩ := Quad.traverse_eq_error _ _ e h
  refine ⟨i, ?_⟩
  have e' : (⟨a, a + 1, a + 2, a + 3⟩ : Quad Nat).get i = a + i.val := by fin_cases i <;> rfl
  rw [e'] at hi
  exact (readByte_eq_error buf m _ e).mp hi

/-- `n` bytes are read when all have been written. -/
theorem readBytes_eq_ok (buf : Buf) (m : Memory) (a n : Nat) (bs : List Byte) :
    readBytes buf m a n = .ok bs ↔ bs.length = n ∧ ∀ k : Nat, k < n → m.read (a + k) = bs[k]? := by
  induction n generalizing a bs with
  | zero =>
    simp only [readBytes, Except.ok.injEq]
    constructor
    · rintro rfl
      simp
    · rintro ⟨h, -⟩
      exact (List.length_eq_zero_iff.mp h).symm
  | succ n ih =>
    simp only [readBytes]
    cases h : readByte buf m a with
    | error e =>
      have hn := ((readByte_eq_error buf m a e).mp h).2
      simp only [reduceCtorEq, false_iff, not_and, not_forall]
      intro hl
      refine ⟨0, by omega, ?_⟩
      rw [Nat.add_zero, hn, List.getElem?_eq_getElem (by omega)]
      simp
    | ok b =>
      have hb := (readByte_eq_ok buf m a b).mp h
      cases h' : readBytes buf m (a + 1) n with
      | error e =>
        simp only [reduceCtorEq, false_iff, not_and]
        intro hl hall
        cases bs with
        | nil => simp at hl
        | cons c cs =>
          have := (ih (a + 1) cs).mpr ⟨by simpa using hl, fun k hk => by
            have := hall (k + 1) (by omega)
            rwa [List.getElem?_cons_succ, show a + (k + 1) = a + 1 + k by omega] at this⟩
          rw [h'] at this
          cases this
      | ok cs =>
        obtain ⟨hl, hall⟩ := (ih (a + 1) cs).mp h'
        simp only [Except.ok.injEq]
        constructor
        · rintro rfl
          refine ⟨by simp [hl], fun k hk => ?_⟩
          cases k with
          | zero => simpa using hb
          | succ k =>
            rw [List.getElem?_cons_succ, show a + (k + 1) = a + 1 + k by omega]
            exact hall k (by omega)
        · rintro ⟨hl', hall'⟩
          cases bs with
          | nil => simp at hl'
          | cons d ds =>
            have h0 := hall' 0 (by omega)
            rw [Nat.add_zero, hb] at h0
            have hd : ds = cs := by
              have := (ih (a + 1) ds).mpr ⟨by simpa using hl', fun k hk => by
                have := hall' (k + 1) (by omega)
                rwa [List.getElem?_cons_succ, show a + (k + 1) = a + 1 + k by omega] at this⟩
              rw [h'] at this
              exact (Except.ok.inj this).symm
            simp_all

/-- A read of `n` bytes that fails, fails with `UNINIT` at one of them, which nothing has written. -/
theorem readBytes_eq_error (buf : Buf) (m : Memory) {a n : Nat} {e : Fault} (h : readBytes buf m a n = .error e) :
    ∃ k : Nat, a ≤ k ∧ k < a + n ∧ e = .uninit buf k ∧ m.read k = none := by
  induction n generalizing a with
  | zero => cases h
  | succ n ih =>
    simp only [readBytes] at h
    cases hb : readByte buf m a with
    | error e' =>
      rw [hb] at h
      cases h
      exact ⟨a, by omega, by omega, (readByte_eq_error buf m a e).mp hb⟩
    | ok b =>
      rw [hb] at h
      cases hr : readBytes buf m (a + 1) n with
      | error e' =>
        rw [hr] at h
        cases h
        obtain ⟨k, h1, h2, h3⟩ := ih hr
        exact ⟨k, by omega, by omega, h3⟩
      | ok bs => rw [hr] at h; cases h

/-- `n` bytes that have all been written are read. -/
theorem readBytes_written (buf : Buf) (m : Memory) {a n : Nat}
    (h : ∀ k : Nat, a ≤ k → k < a + n → (m.read k).isSome = true) : ∃ bs, readBytes buf m a n = .ok bs := by
  cases hr : readBytes buf m a n with
  | ok bs => exact ⟨bs, rfl⟩
  | error e =>
    obtain ⟨k, h1, h2, -, h3⟩ := readBytes_eq_error buf m hr
    have := h k h1 h2
    rw [h3] at this
    cases this

/-! ### Pixels and tiles -/

/-- A pixel is read when its four bytes have been written. -/
theorem readPixel_eq_ok (m : Memory) (a : Nat) (p : Pixel) :
    readPixel m a = .ok p ↔ m.read a = some p.r ∧ m.read (a + 1) = some p.g ∧ m.read (a + 2) = some p.b ∧
      m.read (a + 3) = some p.a := by
  have h := readQuad_eq_ok .pb m a (pixelBytes p)
  rw [forall_fin4] at h
  refine Iff.trans ?_ h
  simp only [readPixel]
  cases readQuad .pb m a with
  | error e => simp
  | ok q =>
    obtain ⟨r, g, b, al⟩ := q
    obtain ⟨r', g', b', al'⟩ := p
    simp [bytesPixel, pixelBytes]

/-- A read of a pixel that fails, fails with `UNINIT` at one of its bytes. -/
theorem readPixel_eq_error (m : Memory) (a : Nat) (e : Fault) (h : readPixel m a = .error e) :
    ∃ i : Fin 4, e = .uninit .pb (a + i.val) ∧ m.read (a + i.val) = none := by
  simp only [readPixel] at h
  cases hq : readQuad .pb m a with
  | error e' =>
    rw [hq] at h
    cases h
    exact readQuad_eq_error .pb m a e hq
  | ok q =>
    rw [hq] at h
    cases h

/-- A tile is read when every byte of its pixels has been written. -/
theorem readTile_eq_ok (m : Memory) (addrs : Tile Nat) (t : Tile Pixel) :
    readTile m addrs = .ok t ↔ ∀ i : Fin 16, readPixel m (addrs.get i) = .ok (t.get i) :=
  Tile.traverse_eq_ok _ _ _

/-- A read of a tile that fails, fails with `UNINIT` at a byte of one of its pixels. -/
theorem readTile_eq_error (m : Memory) (addrs : Tile Nat) (e : Fault) (h : readTile m addrs = .error e) :
    ∃ (i : Fin 16) (k : Fin 4), e = .uninit .pb (addrs.get i + k.val) ∧ m.read (addrs.get i + k.val) = none := by
  obtain ⟨i, hi⟩ := Tile.traverse_eq_error _ _ e h
  exact ⟨i, readPixel_eq_error m _ e hi⟩

/-- A tile is not read where a byte of one of its pixels has not been written. -/
theorem readTile_unwritten (m : Memory) (addrs : Tile Nat) (i : Fin 16) (k : Fin 4)
    (h : m.read (addrs.get i + k.val) = none) : ∃ e, readTile m addrs = .error e := by
  cases ht : readTile m addrs with
  | error e => exact ⟨e, rfl⟩
  | ok t =>
    have := (readPixel_eq_ok m _ _).mp ((readTile_eq_ok m addrs t).mp ht i)
    fin_cases k <;> simp_all

/-- A write of a pixel keeps the canonical form. -/
theorem wf_writePixel {m : Memory} (h : m.wf) (x : Option Nat × Pixel) (ha : ∀ a, x.1 = some a → a + 4 ≤ bufferSize) :
    (writePixel m x).wf := by
  obtain ⟨o, p⟩ := x
  cases o with
  | none => exact h
  | some a => exact Memory.wf_writeBytes h _ (ha a rfl)

/-- A write of a tile keeps the canonical form. -/
theorem wf_writeTile {m : Memory} (h : m.wf) (addrs : Tile (Option Nat)) (t : Tile Pixel)
    (ha : ∀ (i : Fin 16) (a : Nat), addrs.get i = some a → a + 4 ≤ bufferSize) : (writeTile m addrs t).wf := by
  have list : ∀ (xs : List (Option Nat × Pixel)) (m : Memory), m.wf →
      (∀ x ∈ xs, ∀ a, x.1 = some a → a + 4 ≤ bufferSize) → (xs.foldl writePixel m).wf := by
    intro xs
    induction xs with
    | nil => exact fun m h _ => h
    | cons x xs ih =>
      intro m h hx
      exact ih _ (wf_writePixel h x (hx x List.mem_cons_self)) fun y hy => hx y (List.mem_cons_of_mem _ hy)
  refine list _ m h fun x hx a e => ?_
  obtain ⟨i, hi⟩ := (Tile.mem_toList addrs x.1).mp (List.of_mem_zip (a := x.1) (b := x.2) hx).1
  exact ha i a (hi.trans e)

/-- A byte outside every pixel of a tile reads as before. -/
theorem read_writeTile_outside (m : Memory) (addrs : Tile (Option Nat)) (t : Tile Pixel) (a : Nat)
    (h : ∀ (i : Fin 16) (x : Nat), addrs.get i = some x → ¬ (x ≤ a ∧ a < x + 4)) :
    (writeTile m addrs t).read a = m.read a := by
  have list : ∀ (xs : List (Option Nat × Pixel)) (m : Memory),
      (∀ y ∈ xs, ∀ x, y.1 = some x → ¬ (x ≤ a ∧ a < x + 4)) → (xs.foldl writePixel m).read a = m.read a := by
    intro xs
    induction xs with
    | nil => exact fun _ _ => rfl
    | cons y ys ih =>
      intro m hy
      refine (ih _ fun z hz => hy z (List.mem_cons_of_mem _ hz)).trans ?_
      obtain ⟨o, p⟩ := y
      cases o with
      | none => rfl
      | some x =>
        have hx := hy (some x, p) List.mem_cons_self x rfl
        have : (pixelBytes p).toList.length = 4 := rfl
        simp only [writePixel, Memory.read_writeBytes, this, hx, if_false]
  refine list _ m fun y hy x e => ?_
  obtain ⟨i, hi⟩ := (Tile.mem_toList addrs y.1).mp (List.of_mem_zip (a := y.1) (b := y.2) hy).1
  exact h i x (hi.trans e)

/-- A pixel of a tile reads back after the tile is written, where its bytes belong to no other pixel. -/
theorem readPixel_writeTile (m : Memory) (addrs : Tile (Option Nat)) (t : Tile Pixel) (i : Fin 16) (a : Nat)
    (hi : addrs.get i = some a)
    (h : ∀ (j : Fin 16) (x : Nat), addrs.get j = some x → j ≠ i → x + 4 ≤ a ∨ a + 4 ≤ x) :
    readPixel (writeTile m addrs t) a = .ok (t.get i) := by
  have one : ∀ (m : Memory) (p : Pixel), readPixel (m.writeBytes a (pixelBytes p).toList) a = .ok p := by
    intro m p
    have hl : (pixelBytes p).toList.length = 4 := rfl
    rw [readPixel_eq_ok]
    simp only [Memory.read_writeBytes, hl]
    refine ⟨?_, ?_, ?_, ?_⟩ <;> rw [if_pos (by omega)] <;> simp [pixelBytes, Quad.toList]
  have keep : ∀ (m : Memory) (y : Option Nat × Pixel) (p : Pixel), (∀ x, y.1 = some x → x + 4 ≤ a ∨ a + 4 ≤ x) →
      readPixel m a = .ok p → readPixel (writePixel m y) a = .ok p := by
    intro m y p hy hm
    obtain ⟨o, q⟩ := y
    cases o with
    | none => exact hm
    | some x =>
      have hx := hy x rfl
      have hl : (pixelBytes q).toList.length = 4 := rfl
      rw [readPixel_eq_ok] at hm ⊢
      simp only [writePixel, Memory.read_writeBytes, hl]
      rw [if_neg (by omega), if_neg (by omega), if_neg (by omega), if_neg (by omega)]
      exact hm
  have list : ∀ (xs : List (Option Nat × Pixel)) (m : Memory) (p : Pixel),
      (∀ y ∈ xs, ∀ x, y.1 = some x → x + 4 ≤ a ∨ a + 4 ≤ x) → readPixel m a = .ok p →
      readPixel (xs.foldl writePixel m) a = .ok p := by
    intro xs
    induction xs with
    | nil => exact fun _ _ _ h => h
    | cons y ys ih =>
      intro m p hy hm
      exact ih _ p (fun z hz => hy z (List.mem_cons_of_mem _ hz)) (keep m y p (hy y List.mem_cons_self) hm)
  have hlen : (addrs.toList.zip t.toList).length = 16 := by simp
  have hget : ∀ j : Fin 16, (addrs.toList.zip t.toList)[j.val]? = some (addrs.get j, t.get j) := by
    intro j
    rw [List.getElem?_zip_eq_some]
    exact ⟨addrs.getElem?_toList j, t.getElem?_toList j⟩
  have hsplit : addrs.toList.zip t.toList = (addrs.toList.zip t.toList).take i.val ++
      (addrs.get i, t.get i) :: (addrs.toList.zip t.toList).drop (i.val + 1) := by
    have h1 : i.val < (addrs.toList.zip t.toList).length := by omega
    have h2 := List.drop_eq_getElem_cons h1
    have h3 : (addrs.toList.zip t.toList)[i.val] = (addrs.get i, t.get i) := by
      have := hget i
      rw [List.getElem?_eq_getElem h1] at this
      exact Option.some.inj this
    rw [h3] at h2
    rw [← h2, List.take_append_drop]
  simp only [writeTile]
  rw [hsplit, List.foldl_append, List.foldl_cons]
  refine list _ _ _ ?_ ?_
  · intro y hy x e
    obtain ⟨n, hn, rfl⟩ := List.getElem_of_mem hy
    rw [List.length_drop, hlen] at hn
    rw [List.getElem_drop] at e
    have hj := hget ⟨i.val + 1 + n, by omega⟩
    rw [List.getElem?_eq_getElem (by omega)] at hj
    rw [Option.some.inj hj] at e
    exact h _ x e (by intro e'; have := congrArg Fin.val e'; simp only at this; omega)
  · simp only [writePixel, hi]
    exact one _ _

end Sys2Proof.Machine
end

