-- ==== Sys2Proof/Laws/Frame.lean ====
section
/-! SUPPORT. The geometry of a frame, what the frame checks leave when they pass, and the two loops over tiles. -/

namespace Sys2Proof.Machine

open Sys2Proof

/-! ### Sizes and offsets -/

theorem Mode.blockSize_pos (m : Mode) : 0 < Mode.blockSize m := by cases m <;> decide

/-- The bytes of a block are as many as its mode says. -/
theorem encodeBlock_length (cfg : Cfg) (m : Mode) (q : Quality) (t : Tile Pixel) :
    (encodeBlock cfg m q t).toList.length = Mode.blockSize m := by cases m <;> rfl

/-- A pixel of the frame lies in the first `PBSIZE` bytes. -/
theorem Frame.pixelAddr_lt (f : Frame) {x y : Nat} (hx : x < f.w) (hy : y < f.h) :
    f.pixelAddr x y + 4 ≤ f.pbSize := by
  have h1 : (y + 1) * f.w ≤ f.h * f.w := Nat.mul_le_mul_right _ hy
  have h2 : (y + 1) * f.w = y * f.w + f.w := Nat.succ_mul _ _
  have h3 : 4 * f.w * f.h = 4 * (f.h * f.w) := by rw [Nat.mul_assoc, Nat.mul_comm f.w]
  simp only [Frame.pixelAddr, Frame.pbSize]
  omega

/-- Two pixels of the frame at different places do not overlap. -/
theorem Frame.pixelAddr_apart (f : Frame) {x y x' y' : Nat} (hx : x < f.w) (hx' : x' < f.w) (h : x ≠ x' ∨ y ≠ y') :
    f.pixelAddr x' y' + 4 ≤ f.pixelAddr x y ∨ f.pixelAddr x y + 4 ≤ f.pixelAddr x' y' := by
  simp only [Frame.pixelAddr]
  rcases Nat.lt_trichotomy y y' with hy | rfl | hy
  · have := Nat.mul_le_mul_right f.w (show y + 1 ≤ y' from hy)
    rw [Nat.succ_mul] at this
    omega
  · omega
  · have := Nat.mul_le_mul_right f.w (show y' + 1 ≤ y from hy)
    rw [Nat.succ_mul] at this
    omega

/-- Every byte of the frame belongs to one of its pixels. -/
theorem Frame.exists_pixel (f : Frame) {a : Nat} (ha : a < f.pbSize) :
    ∃ x y k : Nat, x < f.w ∧ y < f.h ∧ k < 4 ∧ a = f.pixelAddr x y + k := by
  have h3 : 4 * f.w * f.h = 4 * (f.h * f.w) := by rw [Nat.mul_assoc, Nat.mul_comm f.w]
  simp only [Frame.pbSize] at ha
  have hw : 0 < f.w := by
    rcases Nat.eq_zero_or_pos f.w with h | h
    · rw [h] at ha; simp at ha
    · exact h
  refine ⟨a / 4 % f.w, a / 4 / f.w, a % 4, Nat.mod_lt _ hw, ?_, by omega, ?_⟩
  · exact Nat.div_lt_of_lt_mul (by rw [Nat.mul_comm f.w]; omega)
  · have := Nat.div_add_mod' (a / 4) f.w
    simp only [Frame.pixelAddr]
    omega

/-- A tile number and its place in the raster. -/
theorem Frame.tile_place (f : Frame) {bx bY : Nat} (hx : bx < f.bw) :
    (bY * f.bw + bx) % f.bw = bx ∧ (bY * f.bw + bx) / f.bw = bY := by
  have hw : 0 < f.bw := by omega
  constructor
  · rw [Nat.add_comm, Nat.add_mul_mod_self_right, Nat.mod_eq_of_lt hx]
  · rw [Nat.add_comm, Nat.add_mul_div_right _ _ hw, Nat.div_eq_of_lt hx, Nat.zero_add]

/-- A tile of the raster has a number below `NB`. -/
theorem Frame.tile_lt (f : Frame) {bx bY : Nat} (hx : bx < f.bw) (hy : bY < f.bh) : bY * f.bw + bx < f.nb := by
  have h1 := Nat.mul_le_mul_right f.bw (show bY + 1 ≤ f.bh from hy)
  rw [Nat.succ_mul] at h1
  have h2 : f.bw * f.bh = f.bh * f.bw := Nat.mul_comm _ _
  simp only [Frame.nb]
  omega

/-- Every tile number below `NB` is a tile of the raster. -/
theorem Frame.place_of_tile (f : Frame) {n : Nat} (h : n < f.nb) : n % f.bw < f.bw ∧ n / f.bw < f.bh := by
  simp only [Frame.nb] at h
  have hw : 0 < f.bw := by
    rcases Nat.eq_zero_or_pos f.bw with h' | h'
    · rw [h'] at h; simp at h
    · exact h'
  exact ⟨Nat.mod_lt _ hw, Nat.div_lt_of_lt_mul h⟩

/-! ### The frame checks -/

/-- What holds when every check passes (60_exceptions.md R343). -/
theorem checkFrame_none {c : FrameCommand} {s : State} (h : checkFrame c s = none) :
    nullBuffer c s = false ∧ badDimension s = false ∧ sizeOverflow c s.frame = false ∧ pbUndersize s s.frame = false ∧
      cbUndersize c s s.frame = false ∧ outOfRange c s s.frame = false ∧ cbShort c s s.frame = false := by
  simp only [checkFrame] at h
  repeat' (split at h; · cases h)
  simp_all

/-- The dimensions are positive when the checks pass. -/
theorem checkFrame_dims {c : FrameCommand} {s : State} (h : checkFrame c s = none) :
    (s.frame.w : Int) = s.imgW.toInt ∧ (s.frame.h : Int) = s.imgH.toInt ∧ 0 < s.frame.w ∧ 0 < s.frame.h := by
  have h2 := (checkFrame_none h).2.1
  simp only [badDimension, Bool.or_eq_false_iff, decide_eq_false_iff_not] at h2
  simp only [State.frame]
  omega

/-- The frame's pixels fit in `PB` when the checks pass. -/
theorem checkFrame_pbSize {c : FrameCommand} {s : State} (h : checkFrame c s = none) :
    s.frame.pbSize ≤ maxLength ∧ s.frame.pbSize ≤ s.pbLen.toNat := by
  have h3 := (checkFrame_none h).2.2.1
  have h4 := (checkFrame_none h).2.2.2.1
  simp only [sizeOverflow, Bool.or_eq_false_iff, decide_eq_false_iff_not, pbUndersize] at h3 h4
  omega

/-- The frame's blocks fit in `CB` when the checks of ENCIMG or DECIMG pass. -/
theorem checkFrame_cbSize {c : FrameCommand} {m : Mode} {s : State} (h : checkFrame c s = none)
    (hm : c.wholeFrame = some m) : s.frame.cbSize m ≤ maxLength ∧ s.frame.cbSize m ≤ s.cbLen.toNat := by
  obtain ⟨-, -, h3, -, h5, -, h7⟩ := checkFrame_none h
  simp only [sizeOverflow, hm, Bool.or_eq_false_iff, decide_eq_false_iff_not] at h3
  refine ⟨by omega, ?_⟩
  cases c <;> simp only [FrameCommand.wholeFrame, Option.some.injEq, reduceCtorEq] at hm
  · subst hm
    simp only [cbUndersize, decide_eq_false_iff_not] at h5
    omega
  · subst hm
    simp only [cbShort, decide_eq_false_iff_not] at h7
    omega

/-- The selected tile lies wholly in the frame when the checks of GETBLK or PUTBLK pass (46_frame.md R311). -/
theorem checkFrame_tile {c : FrameCommand} {s : State} (h : checkFrame c s = none) (hc : c.wholeFrame = none) :
    (s.bX.toInt.toNat : Int) = s.bX.toInt ∧ (s.bY.toInt.toNat : Int) = s.bY.toInt ∧
      4 * s.bX.toInt.toNat + 3 < s.frame.w ∧ 4 * s.bY.toInt.toNat + 3 < s.frame.h := by
  have h6 := (checkFrame_none h).2.2.2.2.2.1
  obtain ⟨hw, hh, -, -⟩ := checkFrame_dims h
  simp only [outOfRange, hc, Bool.not_eq_false', tileInside, Bool.and_eq_true, decide_eq_true_eq] at h6
  omega

/-! ### Tiles in the pixel buffer -/

theorem get_tileAddrs (f : Frame) (bx bY : Nat) (i : Fin 16) :
    (tileAddrs f bx bY).get i = f.pixelAddr (4 * bx + i.val % 4) (4 * bY + i.val / 4) := by
  simp only [tileAddrs, Tile.get_tabulate]

theorem get_clampedAddrs (f : Frame) (bx bY : Nat) (i : Fin 16) :
    (clampedAddrs f bx bY).get i =
      f.pixelAddr (min (4 * bx + i.val % 4) (f.w - 1)) (min (4 * bY + i.val / 4) (f.h - 1)) := by
  simp only [clampedAddrs, Tile.get_tabulate]

theorem get_insideAddrs (f : Frame) (bx bY : Nat) (i : Fin 16) :
    (insideAddrs f bx bY).get i =
      if 4 * bx + i.val % 4 < f.w ∧ 4 * bY + i.val / 4 < f.h then
        some (f.pixelAddr (4 * bx + i.val % 4) (4 * bY + i.val / 4))
      else none := by
  simp only [insideAddrs, Tile.get_tabulate]

/-- A tile wholly inside the frame is read as it is. -/
theorem clampedAddrs_inside (f : Frame) {bx bY : Nat} (hx : 4 * bx + 3 < f.w) (hy : 4 * bY + 3 < f.h) :
    clampedAddrs f bx bY = tileAddrs f bx bY := by
  refine Tile.ext_get fun i => ?_
  rw [get_clampedAddrs, get_tileAddrs, Nat.min_eq_left (by omega), Nat.min_eq_left (by omega)]

/-- The pixels of two different tiles inside the frame do not overlap. -/
theorem tileAddrs_apart (f : Frame) {bx bY bx' bY' : Nat} (hx : 4 * bx + 3 < f.w) (hx' : 4 * bx' + 3 < f.w)
    (h : bx ≠ bx' ∨ bY ≠ bY') (i j : Fin 16) :
    (tileAddrs f bx' bY').get j + 4 ≤ (tileAddrs f bx bY).get i ∨
      (tileAddrs f bx bY).get i + 4 ≤ (tileAddrs f bx' bY').get j := by
  rw [get_tileAddrs, get_tileAddrs]
  exact f.pixelAddr_apart (by omega) (by omega) (by omega)

/-- The pixels of one tile do not overlap. -/
theorem tileAddrs_pixels_apart (f : Frame) {bx bY : Nat} (hx : 4 * bx + 3 < f.w) {i j : Fin 16} (h : j ≠ i) :
    (tileAddrs f bx bY).get j + 4 ≤ (tileAddrs f bx bY).get i ∨
      (tileAddrs f bx bY).get i + 4 ≤ (tileAddrs f bx bY).get j := by
  have : i.val ≠ j.val := fun e => h (Fin.ext e.symm)
  rw [get_tileAddrs, get_tileAddrs]
  exact f.pixelAddr_apart (by omega) (by omega) (by omega)

/-- The clamped pixels of a tile lie in the frame. -/
theorem clampedAddrs_lt (f : Frame) (hw : 0 < f.w) (hh : 0 < f.h) (bx bY : Nat) (i : Fin 16) :
    (clampedAddrs f bx bY).get i + 4 ≤ f.pbSize := by
  rw [get_clampedAddrs]
  exact f.pixelAddr_lt (by omega) (by omega)

/-- The pixels of a tile that are written lie in the frame. -/
theorem insideAddrs_lt (f : Frame) (bx bY : Nat) (i : Fin 16) (a : Nat) (h : (insideAddrs f bx bY).get i = some a) :
    a + 4 ≤ f.pbSize := by
  rw [get_insideAddrs] at h
  split at h
  · rename_i hi
    cases h
    exact f.pixelAddr_lt hi.1 hi.2
  · cases h

/-! ### The loop of ENCIMG -/

/-- The loop completes when every tile is read; then the bytes of each block are in place, and the rest of the buffer
is as before. -/
theorem encodeTiles_ok (cfg : Cfg) (m : Mode) (q : Quality) (f : Frame) (pb : Memory) :
    ∀ (count n : Nat) (cb cb' : Memory), encodeTiles cfg m q f pb count n cb = .ok cb' →
      (∀ k : Nat, n ≤ k → k < n + count → ∃ t : Tile Pixel, frameTile f pb k = .ok t ∧
        ∀ j : Nat, j < Mode.blockSize m →
          cb'.read (k * Mode.blockSize m + j) = (encodeBlock cfg m q t).toList[j]?) ∧
      ∀ a : Nat, ¬ (n * Mode.blockSize m ≤ a ∧ a < (n + count) * Mode.blockSize m) → cb'.read a = cb.read a := by
  intro count
  induction count with
  | zero =>
    intro n cb cb' h
    cases h
    exact ⟨fun k h1 h2 => by omega, fun a _ => rfl⟩
  | succ count ih =>
    intro n cb cb' h
    simp only [encodeTiles] at h
    cases ht : frameTile f pb n with
    | error e => rw [ht] at h; cases h
    | ok t =>
      rw [ht] at h
      obtain ⟨h1, h2⟩ := ih (n + 1) _ cb' h
      have hl := encodeBlock_length cfg m q t
      have hs := Nat.add_one_mul n (Mode.blockSize m)
      have hc : (n + 1 + count) * Mode.blockSize m = (n + (count + 1)) * Mode.blockSize m := by
        rw [show n + 1 + count = n + (count + 1) by omega]
      refine ⟨fun k hk1 hk2 => ?_, fun a ha => ?_⟩
      · rcases Nat.eq_or_lt_of_le hk1 with rfl | hk
        · refine ⟨t, ht, fun j hj => ?_⟩
          rw [h2 _ (by omega), Memory.read_writeBytes, if_pos (by omega)]
          congr 1
          omega
        · exact h1 k hk (by omega)
      · have hle : (n + 1) * Mode.blockSize m ≤ (n + 1 + count) * Mode.blockSize m := Nat.mul_le_mul_right _ (by omega)
        rw [h2 a (by omega), Memory.read_writeBytes, if_neg (by omega)]

/-- The loop fails only as the read of one of its tiles fails. -/
theorem encodeTiles_error (cfg : Cfg) (m : Mode) (q : Quality) (f : Frame) (pb : Memory) :
    ∀ (count n : Nat) (cb : Memory) (e : Fault), encodeTiles cfg m q f pb count n cb = .error e →
      ∃ k : Nat, n ≤ k ∧ k < n + count ∧ frameTile f pb k = .error e := by
  intro count
  induction count with
  | zero => intro n cb e h; cases h
  | succ count ih =>
    intro n cb e h
    simp only [encodeTiles] at h
    cases ht : frameTile f pb n with
    | error e' =>
      rw [ht] at h
      cases h
      exact ⟨n, Nat.le_refl _, by omega, ht⟩
    | ok t =>
      rw [ht] at h
      obtain ⟨k, h1, h2, h3⟩ := ih _ _ e h
      exact ⟨k, by omega, by omega, h3⟩

/-- The loop keeps the canonical form of `CB`. -/
theorem wf_encodeTiles (cfg : Cfg) (m : Mode) (q : Quality) (f : Frame) (pb : Memory) :
    ∀ (count n : Nat) (cb cb' : Memory), cb.wf → (n + count) * Mode.blockSize m ≤ bufferSize →
      encodeTiles cfg m q f pb count n cb = .ok cb' → cb'.wf := by
  intro count
  induction count with
  | zero =>
    intro n cb cb' h _ he
    cases he
    exact h
  | succ count ih =>
    intro n cb cb' h hs he
    simp only [encodeTiles] at he
    cases ht : frameTile f pb n with
    | error e => rw [ht] at he; cases he
    | ok t =>
      rw [ht] at he
      have h1 : (n + 1) * Mode.blockSize m ≤ (n + (count + 1)) * Mode.blockSize m := Nat.mul_le_mul_right _ (by omega)
      have h2 := Nat.add_one_mul n (Mode.blockSize m)
      refine ih _ _ cb' (Memory.wf_writeBytes h _ ?_) ?_ he
      · rw [encodeBlock_length]; omega
      · rwa [show n + 1 + count = n + (count + 1) by omega]

/-! ### The loop of DECIMG -/

/-- A sub-block is read when its eight bytes have been written. -/
theorem readSubBlock_eq_ok (cb : Memory) (a : Nat) (sb : SubBlock) :
    readSubBlock cb a = .ok sb ↔
      (∀ i : Fin 4, cb.read (a + i.val) = some (sb.lo.get i)) ∧
        ∀ i : Fin 4, cb.read (a + 4 + i.val) = some (sb.hi.get i) := by
  rw [← readQuad_eq_ok .cb, ← readQuad_eq_ok .cb]
  simp only [readSubBlock]
  cases readQuad .cb cb a with
  | error e => simp
  | ok lo =>
    cases readQuad .cb cb (a + 4) with
    | error e => simp
    | ok hi =>
      obtain ⟨lo', hi'⟩ := sb
      simp

/-- A read of a sub-block that fails, fails with `UNINIT` at one of its bytes. -/
theorem readSubBlock_eq_error (cb : Memory) (a : Nat) (e : Fault) (h : readSubBlock cb a = .error e) :
    ∃ k : Nat, k < 8 ∧ e = .uninit .cb (a + k) ∧ cb.read (a + k) = none := by
  simp only [readSubBlock] at h
  cases h1 : readQuad .cb cb a with
  | error e' =>
    rw [h1] at h
    cases h
    obtain ⟨i, hi⟩ := readQuad_eq_error .cb cb a e h1
    exact ⟨i.val, by omega, hi⟩
  | ok lo =>
    rw [h1] at h
    cases h2 : readQuad .cb cb (a + 4) with
    | error e' =>
      rw [h2] at h
      cases h
      obtain ⟨i, hi⟩ := readQuad_eq_error .cb cb (a + 4) e h2
      exact ⟨4 + i.val, by omega, by rwa [← Nat.add_assoc]⟩
    | ok hi => rw [h2] at h; cases h

/-- A sub-block that is read is in the buffer, byte by byte. -/
theorem readSubBlock_bytes {cb : Memory} {a : Nat} {sb : SubBlock} (h : readSubBlock cb a = .ok sb) (k : Nat)
    (hk : k < 8) : sb.toList[k]? = cb.read (a + k) := by
  obtain ⟨h1, h2⟩ := (readSubBlock_eq_ok cb a sb).mp h
  rw [forall_fin4] at h1 h2
  obtain ⟨p0, p1, p2, p3⟩ := h1
  obtain ⟨p4, p5, p6, p7⟩ := h2
  have : k = 0 ∨ k = 1 ∨ k = 2 ∨ k = 3 ∨ k = 4 ∨ k = 5 ∨ k = 6 ∨ k = 7 := by omega
  rcases this with rfl | rfl | rfl | rfl | rfl | rfl | rfl | rfl
  · exact p0.symm
  · exact p1.symm
  · exact p2.symm
  · exact p3.symm
  · exact p4.symm
  · exact p5.symm
  · exact p6.symm
  · exact p7.symm

/-- A block that is read is of its mode, and in the buffer, byte by byte. -/
theorem readBlock_bytes {m : Mode} {cb : Memory} {n : Nat} {b : Block} (h : readBlock m cb n = .ok b) :
    b.toList.length = Mode.blockSize m ∧
      ∀ k : Nat, k < Mode.blockSize m → b.toList[k]? = cb.read (n * Mode.blockSize m + k) := by
  cases m with
  | bc1 =>
    simp only [readBlock] at h
    cases h1 : readSubBlock cb (n * 8) with
    | error e => rw [h1] at h; cases h
    | ok c =>
      rw [h1] at h
      cases h
      exact ⟨rfl, fun k hk => readSubBlock_bytes h1 k hk⟩
  | bc3 =>
    simp only [readBlock] at h
    cases h1 : readSubBlock cb (n * 16) with
    | error e => rw [h1] at h; cases h
    | ok a =>
      rw [h1] at h
      cases h2 : readSubBlock cb (n * 16 + 8) with
      | error e => rw [h2] at h; cases h
      | ok c =>
        rw [h2] at h
        cases h
        refine ⟨rfl, fun k hk => ?_⟩
        have hk : k < 16 := hk
        have ha : a.toList.length = 8 := rfl
        simp only [Block.toList, Mode.blockSize]
        by_cases h8 : k < 8
        · rw [List.getElem?_append_left (by omega)]
          exact readSubBlock_bytes h1 k h8
        · rw [List.getElem?_append_right (by omega), ha, readSubBlock_bytes h2 (k - 8) (by omega)]
          congr 1
          omega

/-- A read of a block that fails, fails with `UNINIT` at one of its bytes. -/
theorem readBlock_eq_error {m : Mode} {cb : Memory} {n : Nat} {e : Fault} (h : readBlock m cb n = .error e) :
    ∃ k : Nat, k < Mode.blockSize m ∧ e = .uninit .cb (n * Mode.blockSize m + k) ∧
      cb.read (n * Mode.blockSize m + k) = none := by
  cases m with
  | bc1 =>
    simp only [readBlock] at h
    cases h1 : readSubBlock cb (n * 8) with
    | error e' =>
      rw [h1] at h
      cases h
      exact readSubBlock_eq_error cb _ e h1
    | ok c => rw [h1] at h; cases h
  | bc3 =>
    simp only [readBlock] at h
    cases h1 : readSubBlock cb (n * 16) with
    | error e' =>
      rw [h1] at h
      cases h
      obtain ⟨k, hk, hr⟩ := readSubBlock_eq_error cb _ e h1
      exact ⟨k, by simp only [Mode.blockSize]; omega, hr⟩
    | ok a =>
      rw [h1] at h
      cases h2 : readSubBlock cb (n * 16 + 8) with
      | error e' =>
        rw [h2] at h
        cases h
        obtain ⟨k, hk, hr⟩ := readSubBlock_eq_error cb _ e h2
        exact ⟨8 + k, by simp only [Mode.blockSize]; omega, by simpa only [Mode.blockSize, ← Nat.add_assoc] using hr⟩
      | ok c => rw [h2] at h; cases h

/-- The loop fails only as the read of one of its blocks fails. -/
theorem decodeTiles_error (cfg : Cfg) (m : Mode) (f : Frame) (cb : Memory) :
    ∀ (count n : Nat) (pb : Memory) (e : Fault), decodeTiles cfg m f cb count n pb = .error e →
      ∃ k : Nat, n ≤ k ∧ k < n + count ∧ readBlock m cb k = .error e := by
  intro count
  induction count with
  | zero => intro n pb e h; cases h
  | succ count ih =>
    intro n pb e h
    simp only [decodeTiles] at h
    cases ht : readBlock m cb n with
    | error e' =>
      rw [ht] at h
      cases h
      exact ⟨n, Nat.le_refl _, by omega, ht⟩
    | ok b =>
      rw [ht] at h
      obtain ⟨k, h1, h2, h3⟩ := ih _ _ e h
      exact ⟨k, by omega, by omega, h3⟩

/-- When the loop completes, every block has been read. -/
theorem decodeTiles_reads (cfg : Cfg) (m : Mode) (f : Frame) (cb : Memory) :
    ∀ (count n : Nat) (pb pb' : Memory), decodeTiles cfg m f cb count n pb = .ok pb' →
      ∀ k : Nat, n ≤ k → k < n + count → ∃ b : Block, readBlock m cb k = .ok b := by
  intro count
  induction count with
  | zero => intro n pb pb' _ k h1 h2; omega
  | succ count ih =>
    intro n pb pb' h k h1 h2
    simp only [decodeTiles] at h
    cases ht : readBlock m cb n with
    | error e' => rw [ht] at h; cases h
    | ok b =>
      rw [ht] at h
      rcases Nat.eq_or_lt_of_le h1 with rfl | hk
      · exact ⟨b, ht⟩
      · exact ih _ _ _ h k hk (by omega)

/-- A property every tile of the loop keeps holds after it. -/
theorem decodeTiles_induct (cfg : Cfg) (m : Mode) (f : Frame) (cb : Memory) (P : Memory → Prop)
    (hP : ∀ (pb : Memory) (n : Nat) (t : Tile Pixel), P pb → P (writeTile pb (insideAddrs f (n % f.bw) (n / f.bw)) t)) :
    ∀ (count n : Nat) (pb pb' : Memory), P pb → decodeTiles cfg m f cb count n pb = .ok pb' → P pb' := by
  intro count
  induction count with
  | zero =>
    intro n pb pb' h he
    cases he
    exact h
  | succ count ih =>
    intro n pb pb' h he
    simp only [decodeTiles] at he
    cases ht : readBlock m cb n with
    | error e => rw [ht] at he; cases he
    | ok b =>
      rw [ht] at he
      exact ih _ _ pb' (hP pb n _ h) he

/-- The loop keeps the canonical form of `PB`. -/
theorem wf_decodeTiles (cfg : Cfg) (m : Mode) (f : Frame) (cb : Memory) {count n : Nat} {pb pb' : Memory}
    (h : pb.wf) (hs : f.pbSize ≤ bufferSize) (he : decodeTiles cfg m f cb count n pb = .ok pb') : pb'.wf :=
  decodeTiles_induct cfg m f cb Memory.wf
    (fun _ _ t h => wf_writeTile h _ t fun i a e => Nat.le_trans (insideAddrs_lt f _ _ i a e) hs) count n pb pb' h he

/-- The loop leaves every byte outside the frame alone. -/
theorem decodeTiles_outside (cfg : Cfg) (m : Mode) (f : Frame) (cb : Memory) {count n : Nat} {pb pb' : Memory}
    {a : Nat} (ha : f.pbSize ≤ a) (he : decodeTiles cfg m f cb count n pb = .ok pb') : pb'.read a = pb.read a :=
  decodeTiles_induct cfg m f cb (fun x => x.read a = pb.read a)
    (fun x k t h => (read_writeTile_outside x _ t a fun i y e => by
      have := insideAddrs_lt f _ _ i y e
      omega).trans h) count n pb pb' rfl he

/-- A pixel of the frame, after the loop has passed its tile, is the pixel its tile decodes to. -/
theorem decodeTiles_pixel (cfg : Cfg) (m : Mode) (f : Frame) (cb : Memory) {x y : Nat} (hx : x < f.w) (hy : y < f.h) :
    ∀ (count n : Nat) (pb pb' : Memory), decodeTiles cfg m f cb count n pb = .ok pb' →
      n ≤ y / 4 * f.bw + x / 4 → y / 4 * f.bw + x / 4 < n + count →
      ∃ b : Block, readBlock m cb (y / 4 * f.bw + x / 4) = .ok b ∧
        readPixel pb' (f.pixelAddr x y) = .ok ((decodeBlock cfg b).get ⟨4 * (y % 4) + x % 4, by omega⟩) := by
  have hbx : x / 4 < f.bw := by simp only [Frame.bw]; omega
  obtain ⟨hm, hd⟩ := f.tile_place (bY := y / 4) hbx
  have apart : ∀ (n : Nat) (i : Fin 16) (a : Nat), (insideAddrs f (n % f.bw) (n / f.bw)).get i = some a →
      ¬ (n = y / 4 * f.bw + x / 4 ∧ i.val = 4 * (y % 4) + x % 4) →
      a + 4 ≤ f.pixelAddr x y ∨ f.pixelAddr x y + 4 ≤ a := by
    intro n i a e hne
    rw [get_insideAddrs] at e
    split at e
    · rename_i hi
      cases e
      refine f.pixelAddr_apart hx hi.1 ?_
      by_contra hc
      have h1 : x = 4 * (n % f.bw) + i.val % 4 := by omega
      have h2 : y = 4 * (n / f.bw) + i.val / 4 := by omega
      have h3 := Nat.div_add_mod' n f.bw
      refine hne ⟨?_, by omega⟩
      rw [show y / 4 = n / f.bw by omega, show x / 4 = n % f.bw by omega]
      exact h3.symm
    · cases e
  have keep : ∀ (count n : Nat) (pb pb' : Memory) (p : Pixel), decodeTiles cfg m f cb count n pb = .ok pb' →
      y / 4 * f.bw + x / 4 < n → readPixel pb (f.pixelAddr x y) = .ok p → readPixel pb' (f.pixelAddr x y) = .ok p := by
    intro count
    induction count with
    | zero =>
      intro n pb pb' p he _ hp
      cases he
      exact hp
    | succ count ih =>
      intro n pb pb' p he hn hp
      simp only [decodeTiles] at he
      cases ht : readBlock m cb n with
      | error e => rw [ht] at he; cases he
      | ok b =>
        rw [ht] at he
        refine ih _ _ pb' p he (by omega) ?_
        rw [readPixel_eq_ok] at hp ⊢
        have out : ∀ k : Nat, k < 4 → (writeTile pb (insideAddrs f (n % f.bw) (n / f.bw)) (decodeBlock cfg b)).read
            (f.pixelAddr x y + k) = pb.read (f.pixelAddr x y + k) := by
          intro k hk
          refine read_writeTile_outside pb _ _ _ fun i a e => ?_
          have := apart n i a e (by omega)
          omega
        have o0 := out 0 (by omega)
        rw [Nat.add_zero] at o0
        rw [o0, out 1 (by omega), out 2 (by omega), out 3 (by omega)]
        exact hp
  intro count
  induction count with
  | zero => intro n pb pb' _ h1 h2; omega
  | succ count ih =>
    intro n pb pb' he h1 h2
    simp only [decodeTiles] at he
    cases ht : readBlock m cb n with
    | error e => rw [ht] at he; cases he
    | ok b =>
      rw [ht] at he
      rcases Nat.eq_or_lt_of_le h1 with hn | hn
      · refine ⟨b, hn ▸ ht, keep _ _ _ pb' _ he (by omega) ?_⟩
        rw [hn, hm, hd]
        refine readPixel_writeTile pb _ _ _ _ ?_ ?_
        · rw [get_insideAddrs, if_pos]
          · simp only
            congr 2 <;> omega
          · simp only
            omega
        · intro j a e hj
          have := apart (y / 4 * f.bw + x / 4) j a (by rwa [hm, hd]) (by
            rintro ⟨-, h⟩
            exact hj (Fin.ext h))
          rcases this with h | h
          · exact .inl h
          · exact .inr h
      · exact ih _ _ pb' he hn (by omega)

end Sys2Proof.Machine
end

