-- ==== Sys2Proof/Laws/State.lean ====
section
/-! SUPPORT. The fields of every named update of a state, one lemma for each update and field, and what the command
operands read back after it. -/

namespace Sys2Proof.Machine

open Sys2Proof

/-! ### `State.putPixels` -/

@[simp] theorem State.putPixels_cfg (s : State) (t : Tile Pixel) : (s.putPixels t).cfg = s.cfg := rfl
@[simp] theorem State.putPixels_cmd (s : State) (t : Tile Pixel) : (s.putPixels t).cmd = s.cmd := rfl
@[simp] theorem State.putPixels_status (s : State) (t : Tile Pixel) : (s.putPixels t).status = s.status := rfl
@[simp] theorem State.putPixels_lutReady (s : State) (t : Tile Pixel) : (s.putPixels t).lutReady = s.lutReady := rfl
@[simp] theorem State.putPixels_imgW (s : State) (t : Tile Pixel) : (s.putPixels t).imgW = s.imgW := rfl
@[simp] theorem State.putPixels_imgH (s : State) (t : Tile Pixel) : (s.putPixels t).imgH = s.imgH := rfl
@[simp] theorem State.putPixels_bX (s : State) (t : Tile Pixel) : (s.putPixels t).bX = s.bX := rfl
@[simp] theorem State.putPixels_bY (s : State) (t : Tile Pixel) : (s.putPixels t).bY = s.bY := rfl
@[simp] theorem State.putPixels_bufcfg (s : State) (t : Tile Pixel) : (s.putPixels t).bufcfg = s.bufcfg := rfl
@[simp] theorem State.putPixels_pbLen (s : State) (t : Tile Pixel) : (s.putPixels t).pbLen = s.pbLen := rfl
@[simp] theorem State.putPixels_cbLen (s : State) (t : Tile Pixel) : (s.putPixels t).cbLen = s.cbLen := rfl
@[simp] theorem State.putPixels_ep (s : State) (t : Tile Pixel) : (s.putPixels t).ep = s.ep := rfl
@[simp] theorem State.putPixels_mask (s : State) (t : Tile Pixel) : (s.putPixels t).mask = s.mask := rfl
@[simp] theorem State.putPixels_pix (s : State) (t : Tile Pixel) : (s.putPixels t).pix = t.map fun p => .holding (packPixel p) := rfl
@[simp] theorem State.putPixels_pal (s : State) (t : Tile Pixel) : (s.putPixels t).pal = s.pal := rfl
@[simp] theorem State.putPixels_blk (s : State) (t : Tile Pixel) : (s.putPixels t).blk = s.blk := rfl
@[simp] theorem State.putPixels_pb (s : State) (t : Tile Pixel) : (s.putPixels t).pb = s.pb := rfl
@[simp] theorem State.putPixels_cb (s : State) (t : Tile Pixel) : (s.putPixels t).cb = s.cb := rfl
@[simp] theorem State.putPixels_host (s : State) (t : Tile Pixel) : (s.putPixels t).host = s.host := rfl
@[simp] theorem State.putPixels_rdata (s : State) (t : Tile Pixel) : (s.putPixels t).rdata = s.rdata := rfl

/-! ### `State.putPalette` -/

@[simp] theorem State.putPalette_cfg (s : State) (p : Quad RGB) : (s.putPalette p).cfg = s.cfg := rfl
@[simp] theorem State.putPalette_cmd (s : State) (p : Quad RGB) : (s.putPalette p).cmd = s.cmd := rfl
@[simp] theorem State.putPalette_status (s : State) (p : Quad RGB) : (s.putPalette p).status = s.status := rfl
@[simp] theorem State.putPalette_lutReady (s : State) (p : Quad RGB) : (s.putPalette p).lutReady = s.lutReady := rfl
@[simp] theorem State.putPalette_imgW (s : State) (p : Quad RGB) : (s.putPalette p).imgW = s.imgW := rfl
@[simp] theorem State.putPalette_imgH (s : State) (p : Quad RGB) : (s.putPalette p).imgH = s.imgH := rfl
@[simp] theorem State.putPalette_bX (s : State) (p : Quad RGB) : (s.putPalette p).bX = s.bX := rfl
@[simp] theorem State.putPalette_bY (s : State) (p : Quad RGB) : (s.putPalette p).bY = s.bY := rfl
@[simp] theorem State.putPalette_bufcfg (s : State) (p : Quad RGB) : (s.putPalette p).bufcfg = s.bufcfg := rfl
@[simp] theorem State.putPalette_pbLen (s : State) (p : Quad RGB) : (s.putPalette p).pbLen = s.pbLen := rfl
@[simp] theorem State.putPalette_cbLen (s : State) (p : Quad RGB) : (s.putPalette p).cbLen = s.cbLen := rfl
@[simp] theorem State.putPalette_ep (s : State) (p : Quad RGB) : (s.putPalette p).ep = s.ep := rfl
@[simp] theorem State.putPalette_mask (s : State) (p : Quad RGB) : (s.putPalette p).mask = s.mask := rfl
@[simp] theorem State.putPalette_pix (s : State) (p : Quad RGB) : (s.putPalette p).pix = s.pix := rfl
@[simp] theorem State.putPalette_pal (s : State) (p : Quad RGB) : (s.putPalette p).pal = p.map fun c => .holding (packColour c) := rfl
@[simp] theorem State.putPalette_blk (s : State) (p : Quad RGB) : (s.putPalette p).blk = s.blk := rfl
@[simp] theorem State.putPalette_pb (s : State) (p : Quad RGB) : (s.putPalette p).pb = s.pb := rfl
@[simp] theorem State.putPalette_cb (s : State) (p : Quad RGB) : (s.putPalette p).cb = s.cb := rfl
@[simp] theorem State.putPalette_host (s : State) (p : Quad RGB) : (s.putPalette p).host = s.host := rfl
@[simp] theorem State.putPalette_rdata (s : State) (p : Quad RGB) : (s.putPalette p).rdata = s.rdata := rfl

/-! ### `State.putEndpoints` -/

@[simp] theorem State.putEndpoints_cfg (s : State) (e0 e1 : Half) : (s.putEndpoints e0 e1).cfg = s.cfg := rfl
@[simp] theorem State.putEndpoints_cmd (s : State) (e0 e1 : Half) : (s.putEndpoints e0 e1).cmd = s.cmd := rfl
@[simp] theorem State.putEndpoints_status (s : State) (e0 e1 : Half) : (s.putEndpoints e0 e1).status = s.status := rfl
@[simp] theorem State.putEndpoints_lutReady (s : State) (e0 e1 : Half) : (s.putEndpoints e0 e1).lutReady = s.lutReady := rfl
@[simp] theorem State.putEndpoints_imgW (s : State) (e0 e1 : Half) : (s.putEndpoints e0 e1).imgW = s.imgW := rfl
@[simp] theorem State.putEndpoints_imgH (s : State) (e0 e1 : Half) : (s.putEndpoints e0 e1).imgH = s.imgH := rfl
@[simp] theorem State.putEndpoints_bX (s : State) (e0 e1 : Half) : (s.putEndpoints e0 e1).bX = s.bX := rfl
@[simp] theorem State.putEndpoints_bY (s : State) (e0 e1 : Half) : (s.putEndpoints e0 e1).bY = s.bY := rfl
@[simp] theorem State.putEndpoints_bufcfg (s : State) (e0 e1 : Half) : (s.putEndpoints e0 e1).bufcfg = s.bufcfg := rfl
@[simp] theorem State.putEndpoints_pbLen (s : State) (e0 e1 : Half) : (s.putEndpoints e0 e1).pbLen = s.pbLen := rfl
@[simp] theorem State.putEndpoints_cbLen (s : State) (e0 e1 : Half) : (s.putEndpoints e0 e1).cbLen = s.cbLen := rfl
@[simp] theorem State.putEndpoints_ep (s : State) (e0 e1 : Half) : (s.putEndpoints e0 e1).ep = .holding (epWord e0 e1) := rfl
@[simp] theorem State.putEndpoints_mask (s : State) (e0 e1 : Half) : (s.putEndpoints e0 e1).mask = s.mask := rfl
@[simp] theorem State.putEndpoints_pix (s : State) (e0 e1 : Half) : (s.putEndpoints e0 e1).pix = s.pix := rfl
@[simp] theorem State.putEndpoints_pal (s : State) (e0 e1 : Half) : (s.putEndpoints e0 e1).pal = s.pal := rfl
@[simp] theorem State.putEndpoints_blk (s : State) (e0 e1 : Half) : (s.putEndpoints e0 e1).blk = s.blk := rfl
@[simp] theorem State.putEndpoints_pb (s : State) (e0 e1 : Half) : (s.putEndpoints e0 e1).pb = s.pb := rfl
@[simp] theorem State.putEndpoints_cb (s : State) (e0 e1 : Half) : (s.putEndpoints e0 e1).cb = s.cb := rfl
@[simp] theorem State.putEndpoints_host (s : State) (e0 e1 : Half) : (s.putEndpoints e0 e1).host = s.host := rfl
@[simp] theorem State.putEndpoints_rdata (s : State) (e0 e1 : Half) : (s.putEndpoints e0 e1).rdata = s.rdata := rfl

/-! ### `State.putMask` -/

@[simp] theorem State.putMask_cfg (s : State) (m : Word) : (s.putMask m).cfg = s.cfg := rfl
@[simp] theorem State.putMask_cmd (s : State) (m : Word) : (s.putMask m).cmd = s.cmd := rfl
@[simp] theorem State.putMask_status (s : State) (m : Word) : (s.putMask m).status = s.status := rfl
@[simp] theorem State.putMask_lutReady (s : State) (m : Word) : (s.putMask m).lutReady = s.lutReady := rfl
@[simp] theorem State.putMask_imgW (s : State) (m : Word) : (s.putMask m).imgW = s.imgW := rfl
@[simp] theorem State.putMask_imgH (s : State) (m : Word) : (s.putMask m).imgH = s.imgH := rfl
@[simp] theorem State.putMask_bX (s : State) (m : Word) : (s.putMask m).bX = s.bX := rfl
@[simp] theorem State.putMask_bY (s : State) (m : Word) : (s.putMask m).bY = s.bY := rfl
@[simp] theorem State.putMask_bufcfg (s : State) (m : Word) : (s.putMask m).bufcfg = s.bufcfg := rfl
@[simp] theorem State.putMask_pbLen (s : State) (m : Word) : (s.putMask m).pbLen = s.pbLen := rfl
@[simp] theorem State.putMask_cbLen (s : State) (m : Word) : (s.putMask m).cbLen = s.cbLen := rfl
@[simp] theorem State.putMask_ep (s : State) (m : Word) : (s.putMask m).ep = s.ep := rfl
@[simp] theorem State.putMask_mask (s : State) (m : Word) : (s.putMask m).mask = .holding m := rfl
@[simp] theorem State.putMask_pix (s : State) (m : Word) : (s.putMask m).pix = s.pix := rfl
@[simp] theorem State.putMask_pal (s : State) (m : Word) : (s.putMask m).pal = s.pal := rfl
@[simp] theorem State.putMask_blk (s : State) (m : Word) : (s.putMask m).blk = s.blk := rfl
@[simp] theorem State.putMask_pb (s : State) (m : Word) : (s.putMask m).pb = s.pb := rfl
@[simp] theorem State.putMask_cb (s : State) (m : Word) : (s.putMask m).cb = s.cb := rfl
@[simp] theorem State.putMask_host (s : State) (m : Word) : (s.putMask m).host = s.host := rfl
@[simp] theorem State.putMask_rdata (s : State) (m : Word) : (s.putMask m).rdata = s.rdata := rfl

/-! ### `State.putLowBlock` -/

@[simp] theorem State.putLowBlock_cfg (s : State) (sb : SubBlock) : (s.putLowBlock sb).cfg = s.cfg := rfl
@[simp] theorem State.putLowBlock_cmd (s : State) (sb : SubBlock) : (s.putLowBlock sb).cmd = s.cmd := rfl
@[simp] theorem State.putLowBlock_status (s : State) (sb : SubBlock) : (s.putLowBlock sb).status = s.status := rfl
@[simp] theorem State.putLowBlock_lutReady (s : State) (sb : SubBlock) : (s.putLowBlock sb).lutReady = s.lutReady := rfl
@[simp] theorem State.putLowBlock_imgW (s : State) (sb : SubBlock) : (s.putLowBlock sb).imgW = s.imgW := rfl
@[simp] theorem State.putLowBlock_imgH (s : State) (sb : SubBlock) : (s.putLowBlock sb).imgH = s.imgH := rfl
@[simp] theorem State.putLowBlock_bX (s : State) (sb : SubBlock) : (s.putLowBlock sb).bX = s.bX := rfl
@[simp] theorem State.putLowBlock_bY (s : State) (sb : SubBlock) : (s.putLowBlock sb).bY = s.bY := rfl
@[simp] theorem State.putLowBlock_bufcfg (s : State) (sb : SubBlock) : (s.putLowBlock sb).bufcfg = s.bufcfg := rfl
@[simp] theorem State.putLowBlock_pbLen (s : State) (sb : SubBlock) : (s.putLowBlock sb).pbLen = s.pbLen := rfl
@[simp] theorem State.putLowBlock_cbLen (s : State) (sb : SubBlock) : (s.putLowBlock sb).cbLen = s.cbLen := rfl
@[simp] theorem State.putLowBlock_ep (s : State) (sb : SubBlock) : (s.putLowBlock sb).ep = s.ep := rfl
@[simp] theorem State.putLowBlock_mask (s : State) (sb : SubBlock) : (s.putLowBlock sb).mask = s.mask := rfl
@[simp] theorem State.putLowBlock_pix (s : State) (sb : SubBlock) : (s.putLowBlock sb).pix = s.pix := rfl
@[simp] theorem State.putLowBlock_pal (s : State) (sb : SubBlock) : (s.putLowBlock sb).pal = s.pal := rfl
@[simp] theorem State.putLowBlock_blk (s : State) (sb : SubBlock) : (s.putLowBlock sb).blk = ⟨.holding (bytesWord sb.lo), .holding (bytesWord sb.hi), s.blk.q2, s.blk.q3⟩ := rfl
@[simp] theorem State.putLowBlock_pb (s : State) (sb : SubBlock) : (s.putLowBlock sb).pb = s.pb := rfl
@[simp] theorem State.putLowBlock_cb (s : State) (sb : SubBlock) : (s.putLowBlock sb).cb = s.cb := rfl
@[simp] theorem State.putLowBlock_host (s : State) (sb : SubBlock) : (s.putLowBlock sb).host = s.host := rfl
@[simp] theorem State.putLowBlock_rdata (s : State) (sb : SubBlock) : (s.putLowBlock sb).rdata = s.rdata := rfl

/-! ### `State.putHighBlock` -/

@[simp] theorem State.putHighBlock_cfg (s : State) (sb : SubBlock) : (s.putHighBlock sb).cfg = s.cfg := rfl
@[simp] theorem State.putHighBlock_cmd (s : State) (sb : SubBlock) : (s.putHighBlock sb).cmd = s.cmd := rfl
@[simp] theorem State.putHighBlock_status (s : State) (sb : SubBlock) : (s.putHighBlock sb).status = s.status := rfl
@[simp] theorem State.putHighBlock_lutReady (s : State) (sb : SubBlock) : (s.putHighBlock sb).lutReady = s.lutReady := rfl
@[simp] theorem State.putHighBlock_imgW (s : State) (sb : SubBlock) : (s.putHighBlock sb).imgW = s.imgW := rfl
@[simp] theorem State.putHighBlock_imgH (s : State) (sb : SubBlock) : (s.putHighBlock sb).imgH = s.imgH := rfl
@[simp] theorem State.putHighBlock_bX (s : State) (sb : SubBlock) : (s.putHighBlock sb).bX = s.bX := rfl
@[simp] theorem State.putHighBlock_bY (s : State) (sb : SubBlock) : (s.putHighBlock sb).bY = s.bY := rfl
@[simp] theorem State.putHighBlock_bufcfg (s : State) (sb : SubBlock) : (s.putHighBlock sb).bufcfg = s.bufcfg := rfl
@[simp] theorem State.putHighBlock_pbLen (s : State) (sb : SubBlock) : (s.putHighBlock sb).pbLen = s.pbLen := rfl
@[simp] theorem State.putHighBlock_cbLen (s : State) (sb : SubBlock) : (s.putHighBlock sb).cbLen = s.cbLen := rfl
@[simp] theorem State.putHighBlock_ep (s : State) (sb : SubBlock) : (s.putHighBlock sb).ep = s.ep := rfl
@[simp] theorem State.putHighBlock_mask (s : State) (sb : SubBlock) : (s.putHighBlock sb).mask = s.mask := rfl
@[simp] theorem State.putHighBlock_pix (s : State) (sb : SubBlock) : (s.putHighBlock sb).pix = s.pix := rfl
@[simp] theorem State.putHighBlock_pal (s : State) (sb : SubBlock) : (s.putHighBlock sb).pal = s.pal := rfl
@[simp] theorem State.putHighBlock_blk (s : State) (sb : SubBlock) : (s.putHighBlock sb).blk = ⟨s.blk.q0, s.blk.q1, .holding (bytesWord sb.lo), .holding (bytesWord sb.hi)⟩ := rfl
@[simp] theorem State.putHighBlock_pb (s : State) (sb : SubBlock) : (s.putHighBlock sb).pb = s.pb := rfl
@[simp] theorem State.putHighBlock_cb (s : State) (sb : SubBlock) : (s.putHighBlock sb).cb = s.cb := rfl
@[simp] theorem State.putHighBlock_host (s : State) (sb : SubBlock) : (s.putHighBlock sb).host = s.host := rfl
@[simp] theorem State.putHighBlock_rdata (s : State) (sb : SubBlock) : (s.putHighBlock sb).rdata = s.rdata := rfl

/-! ### `State.mapStatus` -/

@[simp] theorem State.mapStatus_cfg (s : State) (f : Status → Status) : (s.mapStatus f).cfg = s.cfg := rfl
@[simp] theorem State.mapStatus_cmd (s : State) (f : Status → Status) : (s.mapStatus f).cmd = s.cmd := rfl
@[simp] theorem State.mapStatus_status (s : State) (f : Status → Status) : (s.mapStatus f).status = f s.status := rfl
@[simp] theorem State.mapStatus_lutReady (s : State) (f : Status → Status) : (s.mapStatus f).lutReady = s.lutReady := rfl
@[simp] theorem State.mapStatus_imgW (s : State) (f : Status → Status) : (s.mapStatus f).imgW = s.imgW := rfl
@[simp] theorem State.mapStatus_imgH (s : State) (f : Status → Status) : (s.mapStatus f).imgH = s.imgH := rfl
@[simp] theorem State.mapStatus_bX (s : State) (f : Status → Status) : (s.mapStatus f).bX = s.bX := rfl
@[simp] theorem State.mapStatus_bY (s : State) (f : Status → Status) : (s.mapStatus f).bY = s.bY := rfl
@[simp] theorem State.mapStatus_bufcfg (s : State) (f : Status → Status) : (s.mapStatus f).bufcfg = s.bufcfg := rfl
@[simp] theorem State.mapStatus_pbLen (s : State) (f : Status → Status) : (s.mapStatus f).pbLen = s.pbLen := rfl
@[simp] theorem State.mapStatus_cbLen (s : State) (f : Status → Status) : (s.mapStatus f).cbLen = s.cbLen := rfl
@[simp] theorem State.mapStatus_ep (s : State) (f : Status → Status) : (s.mapStatus f).ep = s.ep := rfl
@[simp] theorem State.mapStatus_mask (s : State) (f : Status → Status) : (s.mapStatus f).mask = s.mask := rfl
@[simp] theorem State.mapStatus_pix (s : State) (f : Status → Status) : (s.mapStatus f).pix = s.pix := rfl
@[simp] theorem State.mapStatus_pal (s : State) (f : Status → Status) : (s.mapStatus f).pal = s.pal := rfl
@[simp] theorem State.mapStatus_blk (s : State) (f : Status → Status) : (s.mapStatus f).blk = s.blk := rfl
@[simp] theorem State.mapStatus_pb (s : State) (f : Status → Status) : (s.mapStatus f).pb = s.pb := rfl
@[simp] theorem State.mapStatus_cb (s : State) (f : Status → Status) : (s.mapStatus f).cb = s.cb := rfl
@[simp] theorem State.mapStatus_host (s : State) (f : Status → Status) : (s.mapStatus f).host = s.host := rfl
@[simp] theorem State.mapStatus_rdata (s : State) (f : Status → Status) : (s.mapStatus f).rdata = s.rdata := rfl

/-! ### `State.buildTables` -/

@[simp] theorem State.buildTables_cfg (s : State) : (s.buildTables).cfg = s.cfg := rfl
@[simp] theorem State.buildTables_cmd (s : State) : (s.buildTables).cmd = s.cmd := rfl
@[simp] theorem State.buildTables_status (s : State) : (s.buildTables).status = s.status := rfl
@[simp] theorem State.buildTables_lutReady (s : State) : (s.buildTables).lutReady = true := rfl
@[simp] theorem State.buildTables_imgW (s : State) : (s.buildTables).imgW = s.imgW := rfl
@[simp] theorem State.buildTables_imgH (s : State) : (s.buildTables).imgH = s.imgH := rfl
@[simp] theorem State.buildTables_bX (s : State) : (s.buildTables).bX = s.bX := rfl
@[simp] theorem State.buildTables_bY (s : State) : (s.buildTables).bY = s.bY := rfl
@[simp] theorem State.buildTables_bufcfg (s : State) : (s.buildTables).bufcfg = s.bufcfg := rfl
@[simp] theorem State.buildTables_pbLen (s : State) : (s.buildTables).pbLen = s.pbLen := rfl
@[simp] theorem State.buildTables_cbLen (s : State) : (s.buildTables).cbLen = s.cbLen := rfl
@[simp] theorem State.buildTables_ep (s : State) : (s.buildTables).ep = s.ep := rfl
@[simp] theorem State.buildTables_mask (s : State) : (s.buildTables).mask = s.mask := rfl
@[simp] theorem State.buildTables_pix (s : State) : (s.buildTables).pix = s.pix := rfl
@[simp] theorem State.buildTables_pal (s : State) : (s.buildTables).pal = s.pal := rfl
@[simp] theorem State.buildTables_blk (s : State) : (s.buildTables).blk = s.blk := rfl
@[simp] theorem State.buildTables_pb (s : State) : (s.buildTables).pb = s.pb := rfl
@[simp] theorem State.buildTables_cb (s : State) : (s.buildTables).cb = s.cb := rfl
@[simp] theorem State.buildTables_host (s : State) : (s.buildTables).host = s.host := rfl
@[simp] theorem State.buildTables_rdata (s : State) : (s.buildTables).rdata = s.rdata := rfl

/-! ### `State.raise` -/

@[simp] theorem State.raise_cfg (s : State) (e : CmdError) : (s.raise e).cfg = s.cfg := rfl
@[simp] theorem State.raise_cmd (s : State) (e : CmdError) : (s.raise e).cmd = s.cmd := rfl
@[simp] theorem State.raise_status (s : State) (e : CmdError) : (s.raise e).status = s.status.failed e := rfl
@[simp] theorem State.raise_lutReady (s : State) (e : CmdError) : (s.raise e).lutReady = s.lutReady := rfl
@[simp] theorem State.raise_imgW (s : State) (e : CmdError) : (s.raise e).imgW = s.imgW := rfl
@[simp] theorem State.raise_imgH (s : State) (e : CmdError) : (s.raise e).imgH = s.imgH := rfl
@[simp] theorem State.raise_bX (s : State) (e : CmdError) : (s.raise e).bX = s.bX := rfl
@[simp] theorem State.raise_bY (s : State) (e : CmdError) : (s.raise e).bY = s.bY := rfl
@[simp] theorem State.raise_bufcfg (s : State) (e : CmdError) : (s.raise e).bufcfg = s.bufcfg := rfl
@[simp] theorem State.raise_pbLen (s : State) (e : CmdError) : (s.raise e).pbLen = s.pbLen := rfl
@[simp] theorem State.raise_cbLen (s : State) (e : CmdError) : (s.raise e).cbLen = s.cbLen := rfl
@[simp] theorem State.raise_ep (s : State) (e : CmdError) : (s.raise e).ep = s.ep := rfl
@[simp] theorem State.raise_mask (s : State) (e : CmdError) : (s.raise e).mask = s.mask := rfl
@[simp] theorem State.raise_pix (s : State) (e : CmdError) : (s.raise e).pix = s.pix := rfl
@[simp] theorem State.raise_pal (s : State) (e : CmdError) : (s.raise e).pal = s.pal := rfl
@[simp] theorem State.raise_blk (s : State) (e : CmdError) : (s.raise e).blk = s.blk := rfl
@[simp] theorem State.raise_pb (s : State) (e : CmdError) : (s.raise e).pb = s.pb := rfl
@[simp] theorem State.raise_cb (s : State) (e : CmdError) : (s.raise e).cb = s.cb := rfl
@[simp] theorem State.raise_host (s : State) (e : CmdError) : (s.raise e).host = s.host := rfl
@[simp] theorem State.raise_rdata (s : State) (e : CmdError) : (s.raise e).rdata = s.rdata := rfl

/-! ### `State.succeed` -/

@[simp] theorem State.succeed_cfg (s : State) : (s.succeed).cfg = s.cfg := rfl
@[simp] theorem State.succeed_cmd (s : State) : (s.succeed).cmd = s.cmd := rfl
@[simp] theorem State.succeed_status (s : State) : (s.succeed).status = s.status.succeeded := rfl
@[simp] theorem State.succeed_lutReady (s : State) : (s.succeed).lutReady = s.lutReady := rfl
@[simp] theorem State.succeed_imgW (s : State) : (s.succeed).imgW = s.imgW := rfl
@[simp] theorem State.succeed_imgH (s : State) : (s.succeed).imgH = s.imgH := rfl
@[simp] theorem State.succeed_bX (s : State) : (s.succeed).bX = s.bX := rfl
@[simp] theorem State.succeed_bY (s : State) : (s.succeed).bY = s.bY := rfl
@[simp] theorem State.succeed_bufcfg (s : State) : (s.succeed).bufcfg = s.bufcfg := rfl
@[simp] theorem State.succeed_pbLen (s : State) : (s.succeed).pbLen = s.pbLen := rfl
@[simp] theorem State.succeed_cbLen (s : State) : (s.succeed).cbLen = s.cbLen := rfl
@[simp] theorem State.succeed_ep (s : State) : (s.succeed).ep = s.ep := rfl
@[simp] theorem State.succeed_mask (s : State) : (s.succeed).mask = s.mask := rfl
@[simp] theorem State.succeed_pix (s : State) : (s.succeed).pix = s.pix := rfl
@[simp] theorem State.succeed_pal (s : State) : (s.succeed).pal = s.pal := rfl
@[simp] theorem State.succeed_blk (s : State) : (s.succeed).blk = s.blk := rfl
@[simp] theorem State.succeed_pb (s : State) : (s.succeed).pb = s.pb := rfl
@[simp] theorem State.succeed_cb (s : State) : (s.succeed).cb = s.cb := rfl
@[simp] theorem State.succeed_host (s : State) : (s.succeed).host = s.host := rfl
@[simp] theorem State.succeed_rdata (s : State) : (s.succeed).rdata = s.rdata := rfl

/-! ### `State.dropAccess` -/

@[simp] theorem State.dropAccess_cfg (s : State) : (s.dropAccess).cfg = s.cfg := rfl
@[simp] theorem State.dropAccess_cmd (s : State) : (s.dropAccess).cmd = s.cmd := rfl
@[simp] theorem State.dropAccess_status (s : State) : (s.dropAccess).status = s.status := rfl
@[simp] theorem State.dropAccess_lutReady (s : State) : (s.dropAccess).lutReady = s.lutReady := rfl
@[simp] theorem State.dropAccess_imgW (s : State) : (s.dropAccess).imgW = s.imgW := rfl
@[simp] theorem State.dropAccess_imgH (s : State) : (s.dropAccess).imgH = s.imgH := rfl
@[simp] theorem State.dropAccess_bX (s : State) : (s.dropAccess).bX = s.bX := rfl
@[simp] theorem State.dropAccess_bY (s : State) : (s.dropAccess).bY = s.bY := rfl
@[simp] theorem State.dropAccess_bufcfg (s : State) : (s.dropAccess).bufcfg = s.bufcfg := rfl
@[simp] theorem State.dropAccess_pbLen (s : State) : (s.dropAccess).pbLen = s.pbLen := rfl
@[simp] theorem State.dropAccess_cbLen (s : State) : (s.dropAccess).cbLen = s.cbLen := rfl
@[simp] theorem State.dropAccess_ep (s : State) : (s.dropAccess).ep = s.ep := rfl
@[simp] theorem State.dropAccess_mask (s : State) : (s.dropAccess).mask = s.mask := rfl
@[simp] theorem State.dropAccess_pix (s : State) : (s.dropAccess).pix = s.pix := rfl
@[simp] theorem State.dropAccess_pal (s : State) : (s.dropAccess).pal = s.pal := rfl
@[simp] theorem State.dropAccess_blk (s : State) : (s.dropAccess).blk = s.blk := rfl
@[simp] theorem State.dropAccess_pb (s : State) : (s.dropAccess).pb = s.pb := rfl
@[simp] theorem State.dropAccess_cb (s : State) : (s.dropAccess).cb = s.cb := rfl
@[simp] theorem State.dropAccess_host (s : State) : (s.dropAccess).host = s.host.tail := rfl
@[simp] theorem State.dropAccess_rdata (s : State) : (s.dropAccess).rdata = s.rdata := rfl

/-! ### `State.setBuffer` -/

@[simp] theorem State.setBuffer_pb_cfg (s : State) (m : Memory) : (s.setBuffer .pb m).cfg = s.cfg := rfl
@[simp] theorem State.setBuffer_pb_cmd (s : State) (m : Memory) : (s.setBuffer .pb m).cmd = s.cmd := rfl
@[simp] theorem State.setBuffer_pb_status (s : State) (m : Memory) : (s.setBuffer .pb m).status = s.status := rfl
@[simp] theorem State.setBuffer_pb_lutReady (s : State) (m : Memory) : (s.setBuffer .pb m).lutReady = s.lutReady := rfl
@[simp] theorem State.setBuffer_pb_imgW (s : State) (m : Memory) : (s.setBuffer .pb m).imgW = s.imgW := rfl
@[simp] theorem State.setBuffer_pb_imgH (s : State) (m : Memory) : (s.setBuffer .pb m).imgH = s.imgH := rfl
@[simp] theorem State.setBuffer_pb_bX (s : State) (m : Memory) : (s.setBuffer .pb m).bX = s.bX := rfl
@[simp] theorem State.setBuffer_pb_bY (s : State) (m : Memory) : (s.setBuffer .pb m).bY = s.bY := rfl
@[simp] theorem State.setBuffer_pb_bufcfg (s : State) (m : Memory) : (s.setBuffer .pb m).bufcfg = s.bufcfg := rfl
@[simp] theorem State.setBuffer_pb_pbLen (s : State) (m : Memory) : (s.setBuffer .pb m).pbLen = s.pbLen := rfl
@[simp] theorem State.setBuffer_pb_cbLen (s : State) (m : Memory) : (s.setBuffer .pb m).cbLen = s.cbLen := rfl
@[simp] theorem State.setBuffer_pb_ep (s : State) (m : Memory) : (s.setBuffer .pb m).ep = s.ep := rfl
@[simp] theorem State.setBuffer_pb_mask (s : State) (m : Memory) : (s.setBuffer .pb m).mask = s.mask := rfl
@[simp] theorem State.setBuffer_pb_pix (s : State) (m : Memory) : (s.setBuffer .pb m).pix = s.pix := rfl
@[simp] theorem State.setBuffer_pb_pal (s : State) (m : Memory) : (s.setBuffer .pb m).pal = s.pal := rfl
@[simp] theorem State.setBuffer_pb_blk (s : State) (m : Memory) : (s.setBuffer .pb m).blk = s.blk := rfl
@[simp] theorem State.setBuffer_pb_pb (s : State) (m : Memory) : (s.setBuffer .pb m).pb = m := rfl
@[simp] theorem State.setBuffer_pb_cb (s : State) (m : Memory) : (s.setBuffer .pb m).cb = s.cb := rfl
@[simp] theorem State.setBuffer_pb_host (s : State) (m : Memory) : (s.setBuffer .pb m).host = s.host := rfl
@[simp] theorem State.setBuffer_pb_rdata (s : State) (m : Memory) : (s.setBuffer .pb m).rdata = s.rdata := rfl

@[simp] theorem State.setBuffer_cb_cfg (s : State) (m : Memory) : (s.setBuffer .cb m).cfg = s.cfg := rfl
@[simp] theorem State.setBuffer_cb_cmd (s : State) (m : Memory) : (s.setBuffer .cb m).cmd = s.cmd := rfl
@[simp] theorem State.setBuffer_cb_status (s : State) (m : Memory) : (s.setBuffer .cb m).status = s.status := rfl
@[simp] theorem State.setBuffer_cb_lutReady (s : State) (m : Memory) : (s.setBuffer .cb m).lutReady = s.lutReady := rfl
@[simp] theorem State.setBuffer_cb_imgW (s : State) (m : Memory) : (s.setBuffer .cb m).imgW = s.imgW := rfl
@[simp] theorem State.setBuffer_cb_imgH (s : State) (m : Memory) : (s.setBuffer .cb m).imgH = s.imgH := rfl
@[simp] theorem State.setBuffer_cb_bX (s : State) (m : Memory) : (s.setBuffer .cb m).bX = s.bX := rfl
@[simp] theorem State.setBuffer_cb_bY (s : State) (m : Memory) : (s.setBuffer .cb m).bY = s.bY := rfl
@[simp] theorem State.setBuffer_cb_bufcfg (s : State) (m : Memory) : (s.setBuffer .cb m).bufcfg = s.bufcfg := rfl
@[simp] theorem State.setBuffer_cb_pbLen (s : State) (m : Memory) : (s.setBuffer .cb m).pbLen = s.pbLen := rfl
@[simp] theorem State.setBuffer_cb_cbLen (s : State) (m : Memory) : (s.setBuffer .cb m).cbLen = s.cbLen := rfl
@[simp] theorem State.setBuffer_cb_ep (s : State) (m : Memory) : (s.setBuffer .cb m).ep = s.ep := rfl
@[simp] theorem State.setBuffer_cb_mask (s : State) (m : Memory) : (s.setBuffer .cb m).mask = s.mask := rfl
@[simp] theorem State.setBuffer_cb_pix (s : State) (m : Memory) : (s.setBuffer .cb m).pix = s.pix := rfl
@[simp] theorem State.setBuffer_cb_pal (s : State) (m : Memory) : (s.setBuffer .cb m).pal = s.pal := rfl
@[simp] theorem State.setBuffer_cb_blk (s : State) (m : Memory) : (s.setBuffer .cb m).blk = s.blk := rfl
@[simp] theorem State.setBuffer_cb_pb (s : State) (m : Memory) : (s.setBuffer .cb m).pb = s.pb := rfl
@[simp] theorem State.setBuffer_cb_cb (s : State) (m : Memory) : (s.setBuffer .cb m).cb = m := rfl
@[simp] theorem State.setBuffer_cb_host (s : State) (m : Memory) : (s.setBuffer .cb m).host = s.host := rfl
@[simp] theorem State.setBuffer_cb_rdata (s : State) (m : Memory) : (s.setBuffer .cb m).rdata = s.rdata := rfl

/-! ### `State.putBlock` -/

@[simp] theorem State.putBlock_bc1 (s : State) (c : SubBlock) : s.putBlock (.bc1 c) = s.putLowBlock c := rfl
@[simp] theorem State.putBlock_bc3 (s : State) (a c : SubBlock) :
    s.putBlock (.bc3 a c) = (s.putLowBlock a).putHighBlock c := rfl
@[simp] theorem State.putBlock_cfg (s : State) (b : Block) : (s.putBlock b).cfg = s.cfg := by cases b <;> rfl
@[simp] theorem State.putBlock_cmd (s : State) (b : Block) : (s.putBlock b).cmd = s.cmd := by cases b <;> rfl
@[simp] theorem State.putBlock_status (s : State) (b : Block) : (s.putBlock b).status = s.status := by cases b <;> rfl
@[simp] theorem State.putBlock_lutReady (s : State) (b : Block) : (s.putBlock b).lutReady = s.lutReady := by cases b <;> rfl
@[simp] theorem State.putBlock_imgW (s : State) (b : Block) : (s.putBlock b).imgW = s.imgW := by cases b <;> rfl
@[simp] theorem State.putBlock_imgH (s : State) (b : Block) : (s.putBlock b).imgH = s.imgH := by cases b <;> rfl
@[simp] theorem State.putBlock_bX (s : State) (b : Block) : (s.putBlock b).bX = s.bX := by cases b <;> rfl
@[simp] theorem State.putBlock_bY (s : State) (b : Block) : (s.putBlock b).bY = s.bY := by cases b <;> rfl
@[simp] theorem State.putBlock_bufcfg (s : State) (b : Block) : (s.putBlock b).bufcfg = s.bufcfg := by cases b <;> rfl
@[simp] theorem State.putBlock_pbLen (s : State) (b : Block) : (s.putBlock b).pbLen = s.pbLen := by cases b <;> rfl
@[simp] theorem State.putBlock_cbLen (s : State) (b : Block) : (s.putBlock b).cbLen = s.cbLen := by cases b <;> rfl
@[simp] theorem State.putBlock_ep (s : State) (b : Block) : (s.putBlock b).ep = s.ep := by cases b <;> rfl
@[simp] theorem State.putBlock_mask (s : State) (b : Block) : (s.putBlock b).mask = s.mask := by cases b <;> rfl
@[simp] theorem State.putBlock_pix (s : State) (b : Block) : (s.putBlock b).pix = s.pix := by cases b <;> rfl
@[simp] theorem State.putBlock_pal (s : State) (b : Block) : (s.putBlock b).pal = s.pal := by cases b <;> rfl
@[simp] theorem State.putBlock_pb (s : State) (b : Block) : (s.putBlock b).pb = s.pb := by cases b <;> rfl
@[simp] theorem State.putBlock_cb (s : State) (b : Block) : (s.putBlock b).cb = s.cb := by cases b <;> rfl
@[simp] theorem State.putBlock_host (s : State) (b : Block) : (s.putBlock b).host = s.host := by cases b <;> rfl
@[simp] theorem State.putBlock_rdata (s : State) (b : Block) : (s.putBlock b).rdata = s.rdata := by cases b <;> rfl

/-! ### `State.platformReset` -/

@[simp] theorem State.platformReset_cfg (s : State) : s.platformReset.cfg = s.cfg := rfl
@[simp] theorem State.platformReset_cmd (s : State) : s.platformReset.cmd = State.reset.cmd := rfl
@[simp] theorem State.platformReset_status (s : State) : s.platformReset.status = State.reset.status := rfl
@[simp] theorem State.platformReset_lutReady (s : State) : s.platformReset.lutReady = State.reset.lutReady := rfl
@[simp] theorem State.platformReset_imgW (s : State) : s.platformReset.imgW = State.reset.imgW := rfl
@[simp] theorem State.platformReset_imgH (s : State) : s.platformReset.imgH = State.reset.imgH := rfl
@[simp] theorem State.platformReset_bX (s : State) : s.platformReset.bX = State.reset.bX := rfl
@[simp] theorem State.platformReset_bY (s : State) : s.platformReset.bY = State.reset.bY := rfl
@[simp] theorem State.platformReset_bufcfg (s : State) : s.platformReset.bufcfg = State.reset.bufcfg := rfl
@[simp] theorem State.platformReset_pbLen (s : State) : s.platformReset.pbLen = State.reset.pbLen := rfl
@[simp] theorem State.platformReset_cbLen (s : State) : s.platformReset.cbLen = State.reset.cbLen := rfl
@[simp] theorem State.platformReset_ep (s : State) : s.platformReset.ep = State.reset.ep := rfl
@[simp] theorem State.platformReset_mask (s : State) : s.platformReset.mask = State.reset.mask := rfl
@[simp] theorem State.platformReset_pix (s : State) : s.platformReset.pix = State.reset.pix := rfl
@[simp] theorem State.platformReset_pal (s : State) : s.platformReset.pal = State.reset.pal := rfl
@[simp] theorem State.platformReset_blk (s : State) : s.platformReset.blk = State.reset.blk := rfl
@[simp] theorem State.platformReset_pb (s : State) : s.platformReset.pb = s.pb := rfl
@[simp] theorem State.platformReset_cb (s : State) : s.platformReset.cb = s.cb := rfl
@[simp] theorem State.platformReset_host (s : State) : s.platformReset.host = s.host := rfl
@[simp] theorem State.platformReset_rdata (s : State) : s.platformReset.rdata = s.rdata := rfl

/-! ### `State.powerOn` -/

@[simp] theorem State.powerOn_cfg (s : State) : s.powerOn.cfg = s.cfg := rfl
@[simp] theorem State.powerOn_cmd (s : State) : s.powerOn.cmd = State.reset.cmd := rfl
@[simp] theorem State.powerOn_status (s : State) : s.powerOn.status = State.reset.status := rfl
@[simp] theorem State.powerOn_lutReady (s : State) : s.powerOn.lutReady = State.reset.lutReady := rfl
@[simp] theorem State.powerOn_imgW (s : State) : s.powerOn.imgW = State.reset.imgW := rfl
@[simp] theorem State.powerOn_imgH (s : State) : s.powerOn.imgH = State.reset.imgH := rfl
@[simp] theorem State.powerOn_bX (s : State) : s.powerOn.bX = State.reset.bX := rfl
@[simp] theorem State.powerOn_bY (s : State) : s.powerOn.bY = State.reset.bY := rfl
@[simp] theorem State.powerOn_bufcfg (s : State) : s.powerOn.bufcfg = State.reset.bufcfg := rfl
@[simp] theorem State.powerOn_pbLen (s : State) : s.powerOn.pbLen = State.reset.pbLen := rfl
@[simp] theorem State.powerOn_cbLen (s : State) : s.powerOn.cbLen = State.reset.cbLen := rfl
@[simp] theorem State.powerOn_ep (s : State) : s.powerOn.ep = State.reset.ep := rfl
@[simp] theorem State.powerOn_mask (s : State) : s.powerOn.mask = State.reset.mask := rfl
@[simp] theorem State.powerOn_pix (s : State) : s.powerOn.pix = State.reset.pix := rfl
@[simp] theorem State.powerOn_pal (s : State) : s.powerOn.pal = State.reset.pal := rfl
@[simp] theorem State.powerOn_blk (s : State) : s.powerOn.blk = State.reset.blk := rfl
@[simp] theorem State.powerOn_pb (s : State) : s.powerOn.pb = State.reset.pb := rfl
@[simp] theorem State.powerOn_cb (s : State) : s.powerOn.cb = State.reset.cb := rfl
@[simp] theorem State.powerOn_host (s : State) : s.powerOn.host = s.host := rfl
@[simp] theorem State.powerOn_rdata (s : State) : s.powerOn.rdata = s.rdata := rfl

/-! ### `Status` -/

@[simp] theorem Status.failed_err (st : Status) (e : CmdError) : (st.failed e).err = e.kind := rfl
@[simp] theorem Status.failed_detail (st : Status) (e : CmdError) : (st.failed e).detail = e.detail := rfl
@[simp] theorem Status.failed_refChanged (st : Status) (e : CmdError) : (st.failed e).refChanged = st.refChanged := rfl
@[simp] theorem Status.failed_refSkipped (st : Status) (e : CmdError) : (st.failed e).refSkipped = st.refSkipped := rfl
@[simp] theorem Status.failed_flat (st : Status) (e : CmdError) : (st.failed e).flat = st.flat := rfl
@[simp] theorem Status.failed_swapped (st : Status) (e : CmdError) : (st.failed e).swapped = st.swapped := rfl
@[simp] theorem Status.failed_errSeen (st : Status) (e : CmdError) : (st.failed e).errSeen = true := rfl

@[simp] theorem Status.succeeded_err (st : Status) : (st.succeeded).err = 0 := rfl
@[simp] theorem Status.succeeded_detail (st : Status) : (st.succeeded).detail = 0 := rfl
@[simp] theorem Status.succeeded_refChanged (st : Status) : (st.succeeded).refChanged = st.refChanged := rfl
@[simp] theorem Status.succeeded_refSkipped (st : Status) : (st.succeeded).refSkipped = st.refSkipped := rfl
@[simp] theorem Status.succeeded_flat (st : Status) : (st.succeeded).flat = st.flat := rfl
@[simp] theorem Status.succeeded_swapped (st : Status) : (st.succeeded).swapped = st.swapped := rfl
@[simp] theorem Status.succeeded_errSeen (st : Status) : (st.succeeded).errSeen = st.errSeen := rfl

@[simp] theorem Status.withFlat_err (st : Status) (b : Bool) : (st.withFlat b).err = st.err := rfl
@[simp] theorem Status.withFlat_detail (st : Status) (b : Bool) : (st.withFlat b).detail = st.detail := rfl
@[simp] theorem Status.withFlat_refChanged (st : Status) (b : Bool) : (st.withFlat b).refChanged = st.refChanged := rfl
@[simp] theorem Status.withFlat_refSkipped (st : Status) (b : Bool) : (st.withFlat b).refSkipped = st.refSkipped := rfl
@[simp] theorem Status.withFlat_flat (st : Status) (b : Bool) : (st.withFlat b).flat = b := rfl
@[simp] theorem Status.withFlat_swapped (st : Status) (b : Bool) : (st.withFlat b).swapped = st.swapped := rfl
@[simp] theorem Status.withFlat_errSeen (st : Status) (b : Bool) : (st.withFlat b).errSeen = st.errSeen := rfl

@[simp] theorem Status.withRefine_err (st : Status) (c k : Bool) : (st.withRefine c k).err = st.err := rfl
@[simp] theorem Status.withRefine_detail (st : Status) (c k : Bool) : (st.withRefine c k).detail = st.detail := rfl
@[simp] theorem Status.withRefine_refChanged (st : Status) (c k : Bool) : (st.withRefine c k).refChanged = c := rfl
@[simp] theorem Status.withRefine_refSkipped (st : Status) (c k : Bool) : (st.withRefine c k).refSkipped = k := rfl
@[simp] theorem Status.withRefine_flat (st : Status) (c k : Bool) : (st.withRefine c k).flat = st.flat := rfl
@[simp] theorem Status.withRefine_swapped (st : Status) (c k : Bool) : (st.withRefine c k).swapped = st.swapped := rfl
@[simp] theorem Status.withRefine_errSeen (st : Status) (c k : Bool) : (st.withRefine c k).errSeen = st.errSeen := rfl

@[simp] theorem Status.withSwapped_err (st : Status) (b : Bool) : (st.withSwapped b).err = st.err := rfl
@[simp] theorem Status.withSwapped_detail (st : Status) (b : Bool) : (st.withSwapped b).detail = st.detail := rfl
@[simp] theorem Status.withSwapped_refChanged (st : Status) (b : Bool) : (st.withSwapped b).refChanged = st.refChanged := rfl
@[simp] theorem Status.withSwapped_refSkipped (st : Status) (b : Bool) : (st.withSwapped b).refSkipped = st.refSkipped := rfl
@[simp] theorem Status.withSwapped_flat (st : Status) (b : Bool) : (st.withSwapped b).flat = st.flat := rfl
@[simp] theorem Status.withSwapped_swapped (st : Status) (b : Bool) : (st.withSwapped b).swapped = b := rfl
@[simp] theorem Status.withSwapped_errSeen (st : Status) (b : Bool) : (st.withSwapped b).errSeen = st.errSeen := rfl

end Sys2Proof.Machine
end

