-- ==== Sys2Proof/Laws/Exec.lean ====
section
/-! SUPPORT. What each frame command, each host access and a step can do, said once; and what every command keeps. -/

namespace Sys2Proof.Machine

open Sys2Proof

/-! ### The commands -/

/-- GETBLK raises the error of its checks, or loads the tile it reads. -/
theorem execGetblk_next {s t : State} (h : execGetblk s = .next t) :
    (∃ e, checkFrame .getblk s = some e ∧ t = s.raise e) ∨
      checkFrame .getblk s = none ∧ ∃ p, readTile s.pb s.selectedTile = .ok p ∧ t = (s.putPixels p).succeed := by
  simp only [execGetblk] at h
  cases hc : checkFrame .getblk s with
  | some e => rw [hc] at h; cases h; exact .inl ⟨e, rfl, rfl⟩
  | none =>
    rw [hc] at h
    cases hr : readTile s.pb s.selectedTile with
    | error e => rw [hr] at h; cases h
    | ok p => rw [hr] at h; cases h; exact .inr ⟨rfl, p, rfl, rfl⟩

/-- PUTBLK raises the error of its checks, or writes the tile. -/
theorem execPutblk_next {s t : State} (h : execPutblk s = .next t) :
    (∃ e, checkFrame .putblk s = some e ∧ t = s.raise e) ∨
      checkFrame .putblk s = none ∧
        t = (s.setBuffer .pb (writeTile s.pb (s.selectedTile.map some) s.pixels)).succeed := by
  simp only [execPutblk] at h
  cases hc : checkFrame .putblk s with
  | some e => rw [hc] at h; cases h; exact .inl ⟨e, rfl, rfl⟩
  | none => rw [hc] at h; cases h; exact .inr ⟨rfl, rfl⟩

/-- ENCIMG raises the error of its checks, or leaves in `CB` what its loop leaves there. -/
theorem execEncimg_next {m : Mode} {q : Quality} {s t : State} (h : execEncimg m q s = .next t) :
    (∃ e, checkFrame (.encimg m) s = some e ∧ t = s.raise e) ∨
      checkFrame (.encimg m) s = none ∧
        ∃ cb, encodeTiles s.cfg m q s.frame s.pb s.frame.nb 0 s.cb = .ok cb ∧
          t = (s.buildTables.setBuffer .cb cb).succeed := by
  simp only [execEncimg] at h
  cases hc : checkFrame (.encimg m) s with
  | some e => rw [hc] at h; cases h; exact .inl ⟨e, rfl, rfl⟩
  | none =>
    rw [hc] at h
    cases hr : encodeTiles s.cfg m q s.frame s.pb s.frame.nb 0 s.cb with
    | error e => rw [hr] at h; cases h
    | ok cb => rw [hr] at h; cases h; exact .inr ⟨rfl, cb, rfl, rfl⟩

/-- DECIMG raises the error of its checks, or leaves in `PB` what its loop leaves there. -/
theorem execDecimg_next {m : Mode} {s t : State} (h : execDecimg m s = .next t) :
    (∃ e, checkFrame (.decimg m) s = some e ∧ t = s.raise e) ∨
      checkFrame (.decimg m) s = none ∧
        ∃ pb, decodeTiles s.cfg m s.frame s.cb s.frame.nb 0 s.pb = .ok pb ∧
          t = (s.buildTables.setBuffer .pb pb).succeed := by
  simp only [execDecimg] at h
  cases hc : checkFrame (.decimg m) s with
  | some e => rw [hc] at h; cases h; exact .inl ⟨e, rfl, rfl⟩
  | none =>
    rw [hc] at h
    cases hr : decodeTiles s.cfg m s.frame s.cb s.frame.nb 0 s.pb with
    | error e => rw [hr] at h; cases h
    | ok pb => rw [hr] at h; cases h; exact .inr ⟨rfl, pb, rfl, rfl⟩

/-- INIT marks the tables built. -/
theorem execInit_next {s t : State} (h : execInit s = .next t) : t = s.buildTables.succeed := by
  simp only [execInit, Host.Outcome.next.injEq] at h
  exact h.symm

/-- ENC leaves the block, the ordered pair, its mask and the four flags. -/
theorem execEnc_next {m : Mode} {q : Quality} {s t : State} (h : execEnc m q s = .next t) :
    t = ((((s.buildTables.putBlock (encodeBlock s.cfg m q s.pixels)).putEndpoints (encodeColour s.cfg q s.pixels).ordered.c0
      (encodeColour s.cfg q s.pixels).ordered.c1).putMask (encodeColour s.cfg q s.pixels).ordered.mask).mapStatus
        fun st => ((st.withFlat (encodeColour s.cfg q s.pixels).flat).withRefine (encodeColour s.cfg q s.pixels).changed
          (encodeColour s.cfg q s.pixels).skipped).withSwapped (encodeColour s.cfg q s.pixels).ordered.swapped).succeed := by
  simp only [execEnc, Host.Outcome.next.injEq] at h
  exact h.symm

/-- DEC fills the pixel registers with the decoded block. -/
theorem execDec_next {m : Mode} {s t : State} (h : execDec m s = .next t) :
    t = (s.buildTables.putPixels (decodeBlock s.cfg (s.blockOf m))).succeed := by
  simp only [execDec, Host.Outcome.next.injEq] at h
  exact h.symm

/-- ESTC leaves the estimated pair. -/
theorem execEstc_next {s t : State} (h : execEstc s = .next t) :
    t = (s.putEndpoints (estimate s.cfg (s.pixels.map Pixel.rgb)).1 (estimate s.cfg (s.pixels.map Pixel.rgb)).2).succeed := by
  simp only [execEstc, Host.Outcome.next.injEq] at h
  exact h.symm

/-- PALC leaves the palette of `EP`. -/
theorem execPalc_next {s t : State} (h : execPalc s = .next t) :
    t = ((s.buildTables.putPalette (evalColours s.cfg.lerp13 (ep0 s.ep.value) (ep1 s.ep.value))).succeed) := by
  simp only [execPalc, Host.Outcome.next.injEq] at h
  exact h.symm

/-- MATCHC leaves the mask. -/
theorem execMatchc_next {q : Quality} {s t : State} (h : execMatchc q s = .next t) :
    t = (s.putMask (matchColours s.cfg q (s.pixels.map Pixel.rgb) s.palette)).succeed := by
  simp only [execMatchc, Host.Outcome.next.injEq] at h
  exact h.symm

/-- ENCA leaves the alpha sub-block. -/
theorem execEnca_next {s t : State} (h : execEnca s = .next t) :
    t = (s.putLowBlock (encodeAlpha s.cfg.alphaBitOrder s.pixels)).succeed := by
  simp only [execEnca, Host.Outcome.next.injEq] at h
  exact h.symm

/-- FLATC leaves the fast path of pixel 0 and the flat flag. -/
theorem execFlatc_next {s t : State} (h : execFlatc s = .next t) :
    t = (((s.buildTables.putEndpoints (fastMax s.pixels.r0.q0.rgb) (fastMin s.pixels.r0.q0.rgb)).putMask fastMask).mapStatus
      (·.withFlat (isFlat s.cfg.flatCompare s.pixels))).succeed := by
  simp only [execFlatc, Host.Outcome.next.injEq] at h
  exact h.symm

/-- REFC leaves what `refine` returns. -/
theorem execRefc_next {s t : State} (h : execRefc s = .next t) :
    ∃ x, x = refine s.cfg.refineNumerics (s.pixels.map Pixel.rgb) (ep0 s.ep.value) (ep1 s.ep.value) s.mask.value ∧
      t = ((s.putEndpoints x.mx x.mn).mapStatus (·.withRefine x.changed x.skipped)).succeed := by
  simp only [execRefc, Host.Outcome.next.injEq] at h
  exact ⟨_, rfl, h.symm⟩

/-- The state with a colour sub-block in the block registers ORDC uses. -/
def State.putColourBlock (s : State) (m : Mode) (sb : SubBlock) : State :=
  match m with
  | .bc1 => s.putLowBlock sb
  | .bc3 => s.putHighBlock sb

/-- ORDC leaves the ordered pair, its mask and their packing. -/
theorem execOrdc_next {m : Mode} {s t : State} (h : execOrdc m s = .next t) :
    ∃ o, o = orderEndpoints (ep0 s.ep.value) (ep1 s.ep.value) s.mask.value ∧
      t = ((((s.putColourBlock m o.block).putEndpoints o.c0 o.c1).putMask o.mask).mapStatus
        (·.withSwapped o.swapped)).succeed := by
  simp only [execOrdc, Host.Outcome.next.injEq] at h
  refine ⟨_, rfl, ?_⟩
  rw [← h]
  cases m <;> rfl

/-! ### What every command keeps -/

/-- The part of a state that no command writes: the configuration, `CMD` and the configuration registers, the host's
pending accesses and its last answer. -/
structure SameControl (s t : State) : Prop where
  cfg    : t.cfg = s.cfg
  cmd    : t.cmd = s.cmd
  imgW   : t.imgW = s.imgW
  imgH   : t.imgH = s.imgH
  bX     : t.bX = s.bX
  bY     : t.bY = s.bY
  bufcfg : t.bufcfg = s.bufcfg
  pbLen  : t.pbLen = s.pbLen
  cbLen  : t.cbLen = s.cbLen
  host   : t.host = s.host
  rdata  : t.rdata = s.rdata

/-- No command writes that part. -/
theorem exec_sameControl {i : Instr} {s t : State} (h : exec i s = .next t) : SameControl s t := by
  cases i with
  | init => rw [execInit_next h]; constructor <;> simp
  | enc m q => rw [execEnc_next h]; constructor <;> simp
  | dec m => rw [execDec_next h]; constructor <;> simp
  | encimg m q =>
    rcases execEncimg_next h with ⟨e, hc, ht⟩ | ⟨hc, cb, hd, ht⟩
    · rw [ht]; constructor <;> simp
    · rw [ht]; constructor <;> simp
  | decimg m =>
    rcases execDecimg_next h with ⟨e, hc, ht⟩ | ⟨hc, pb, hd, ht⟩
    · rw [ht]; constructor <;> simp
    · rw [ht]; constructor <;> simp
  | getblk =>
    rcases execGetblk_next h with ⟨e, hc, ht⟩ | ⟨hc, p, hd, ht⟩
    · rw [ht]; constructor <;> simp
    · rw [ht]; constructor <;> simp
  | putblk =>
    rcases execPutblk_next h with ⟨e, hc, ht⟩ | ⟨hc, ht⟩
    · rw [ht]; constructor <;> simp
    · rw [ht]; constructor <;> simp
  | estc => rw [execEstc_next h]; constructor <;> simp
  | palc => rw [execPalc_next h]; constructor <;> simp
  | matchc q => rw [execMatchc_next h]; constructor <;> simp
  | refc => obtain ⟨x, -, ht⟩ := execRefc_next h; rw [ht]; constructor <;> simp
  | enca => rw [execEnca_next h]; constructor <;> simp
  | flatc => rw [execFlatc_next h]; constructor <;> simp
  | ordc m => obtain ⟨o, -, ht⟩ := execOrdc_next h; rw [ht]; cases m <;> constructor <;> simp [State.putColourBlock]

/-- How a command ends: with an error, whose whole effect is on `STATUS`, or with ERR and DETAIL 0 (60_exceptions.md
R341, 10_state.md R36). -/
theorem exec_ends {i : Instr} {s t : State} (h : exec i s = .next t) :
    (∃ e, t = s.raise e) ∨ t.status.err = 0 ∧ t.status.detail = 0 ∧ t.status.errSeen = s.status.errSeen := by
  cases i with
  | init => rw [execInit_next h]; exact .inr (by simp)
  | enc m q => rw [execEnc_next h]; exact .inr (by simp)
  | dec m => rw [execDec_next h]; exact .inr (by simp)
  | encimg m q =>
    rcases execEncimg_next h with ⟨e, hc, ht⟩ | ⟨hc, cb, hd, ht⟩
    · exact .inl ⟨e, ht⟩
    · rw [ht]; exact .inr (by simp)
  | decimg m =>
    rcases execDecimg_next h with ⟨e, hc, ht⟩ | ⟨hc, pb, hd, ht⟩
    · exact .inl ⟨e, ht⟩
    · rw [ht]; exact .inr (by simp)
  | getblk =>
    rcases execGetblk_next h with ⟨e, hc, ht⟩ | ⟨hc, p, hd, ht⟩
    · exact .inl ⟨e, ht⟩
    · rw [ht]; exact .inr (by simp)
  | putblk =>
    rcases execPutblk_next h with ⟨e, hc, ht⟩ | ⟨hc, ht⟩
    · exact .inl ⟨e, ht⟩
    · rw [ht]; exact .inr (by simp)
  | estc => rw [execEstc_next h]; exact .inr (by simp)
  | palc => rw [execPalc_next h]; exact .inr (by simp)
  | matchc q => rw [execMatchc_next h]; exact .inr (by simp)
  | refc => obtain ⟨x, -, ht⟩ := execRefc_next h; rw [ht]; exact .inr (by simp)
  | enca => rw [execEnca_next h]; exact .inr (by simp)
  | flatc => rw [execFlatc_next h]; exact .inr (by simp)
  | ordc m => obtain ⟨o, -, ht⟩ := execOrdc_next h; rw [ht]; cases m <;> exact .inr (by simp [State.putColourBlock])

/-- `LUT_READY` is set or left alone by every command. -/
theorem exec_lutReady {i : Instr} {s t : State} (h : exec i s = .next t) :
    t.lutReady = true ∨ t.lutReady = s.lutReady := by
  cases i with
  | init => rw [execInit_next h]; simp
  | enc m q => rw [execEnc_next h]; simp
  | dec m => rw [execDec_next h]; simp
  | encimg m q =>
    rcases execEncimg_next h with ⟨e, hc, ht⟩ | ⟨hc, cb, hd, ht⟩
    · rw [ht]; simp
    · rw [ht]; simp
  | decimg m =>
    rcases execDecimg_next h with ⟨e, hc, ht⟩ | ⟨hc, pb, hd, ht⟩
    · rw [ht]; simp
    · rw [ht]; simp
  | getblk =>
    rcases execGetblk_next h with ⟨e, hc, ht⟩ | ⟨hc, p, hd, ht⟩
    · rw [ht]; simp
    · rw [ht]; simp
  | putblk =>
    rcases execPutblk_next h with ⟨e, hc, ht⟩ | ⟨hc, ht⟩
    · rw [ht]; simp
    · rw [ht]; simp
  | estc => rw [execEstc_next h]; simp
  | palc => rw [execPalc_next h]; simp
  | matchc q => rw [execMatchc_next h]; simp
  | refc => obtain ⟨x, -, ht⟩ := execRefc_next h; rw [ht]; simp
  | enca => rw [execEnca_next h]; simp
  | flatc => rw [execFlatc_next h]; simp
  | ordc m => obtain ⟨o, -, ht⟩ := execOrdc_next h; rw [ht]; cases m <;> simp [State.putColourBlock]

/-- A command changes `PB` only as PUTBLK or DECIMG does. -/
theorem exec_pb {i : Instr} {s t : State} (h : exec i s = .next t) :
    t.pb = s.pb ∨
    (i = .putblk ∧ checkFrame .putblk s = none ∧ t.pb = writeTile s.pb (s.selectedTile.map some) s.pixels) ∨
    ∃ m, i = .decimg m ∧ checkFrame (.decimg m) s = none ∧
      decodeTiles s.cfg m s.frame s.cb s.frame.nb 0 s.pb = .ok t.pb := by
  cases i with
  | init => rw [execInit_next h]; exact .inl (by simp)
  | enc m q => rw [execEnc_next h]; exact .inl (by simp)
  | dec m => rw [execDec_next h]; exact .inl (by simp)
  | encimg m q =>
    rcases execEncimg_next h with ⟨e, hc, ht⟩ | ⟨hc, cb, hd, ht⟩
    · rw [ht]; exact .inl (by simp)
    · rw [ht]; exact .inl (by simp)
  | decimg m =>
    rcases execDecimg_next h with ⟨e, hc, ht⟩ | ⟨hc, pb, hd, ht⟩
    · rw [ht]; exact .inl (by simp)
    · rw [ht]; exact .inr (.inr ⟨m, rfl, hc, by simpa using hd⟩)
  | getblk =>
    rcases execGetblk_next h with ⟨e, hc, ht⟩ | ⟨hc, p, hd, ht⟩
    · rw [ht]; exact .inl (by simp)
    · rw [ht]; exact .inl (by simp)
  | putblk =>
    rcases execPutblk_next h with ⟨e, hc, ht⟩ | ⟨hc, ht⟩
    · rw [ht]; exact .inl (by simp)
    · rw [ht]; exact .inr (.inl ⟨rfl, hc, by simp⟩)
  | estc => rw [execEstc_next h]; exact .inl (by simp)
  | palc => rw [execPalc_next h]; exact .inl (by simp)
  | matchc q => rw [execMatchc_next h]; exact .inl (by simp)
  | refc => obtain ⟨x, -, ht⟩ := execRefc_next h; rw [ht]; exact .inl (by simp)
  | enca => rw [execEnca_next h]; exact .inl (by simp)
  | flatc => rw [execFlatc_next h]; exact .inl (by simp)
  | ordc m => obtain ⟨o, -, ht⟩ := execOrdc_next h; rw [ht]; cases m <;> exact .inl (by simp [State.putColourBlock])

/-- A command changes `CB` only as ENCIMG does. -/
theorem exec_cb {i : Instr} {s t : State} (h : exec i s = .next t) :
    t.cb = s.cb ∨
    ∃ m q, i = .encimg m q ∧ checkFrame (.encimg m) s = none ∧
      encodeTiles s.cfg m q s.frame s.pb s.frame.nb 0 s.cb = .ok t.cb := by
  cases i with
  | init => rw [execInit_next h]; exact .inl (by simp)
  | enc m q => rw [execEnc_next h]; exact .inl (by simp)
  | dec m => rw [execDec_next h]; exact .inl (by simp)
  | encimg m q =>
    rcases execEncimg_next h with ⟨e, hc, ht⟩ | ⟨hc, cb, hd, ht⟩
    · rw [ht]; exact .inl (by simp)
    · rw [ht]; exact .inr ⟨m, q, rfl, hc, by simpa using hd⟩
  | decimg m =>
    rcases execDecimg_next h with ⟨e, hc, ht⟩ | ⟨hc, pb, hd, ht⟩
    · rw [ht]; exact .inl (by simp)
    · rw [ht]; exact .inl (by simp)
  | getblk =>
    rcases execGetblk_next h with ⟨e, hc, ht⟩ | ⟨hc, p, hd, ht⟩
    · rw [ht]; exact .inl (by simp)
    · rw [ht]; exact .inl (by simp)
  | putblk =>
    rcases execPutblk_next h with ⟨e, hc, ht⟩ | ⟨hc, ht⟩
    · rw [ht]; exact .inl (by simp)
    · rw [ht]; exact .inl (by simp)
  | estc => rw [execEstc_next h]; exact .inl (by simp)
  | palc => rw [execPalc_next h]; exact .inl (by simp)
  | matchc q => rw [execMatchc_next h]; exact .inl (by simp)
  | refc => obtain ⟨x, -, ht⟩ := execRefc_next h; rw [ht]; exact .inl (by simp)
  | enca => rw [execEnca_next h]; exact .inl (by simp)
  | flatc => rw [execFlatc_next h]; exact .inl (by simp)
  | ordc m => obtain ⟨o, -, ht⟩ := execOrdc_next h; rw [ht]; cases m <;> exact .inl (by simp [State.putColourBlock])

/-! ### Host accesses and the step -/

/-- A `CMD` write raises the error of its word, or runs its command, with the word stored. -/
theorem runCommand_next {w : Word} {s t : State} (h : runCommand w s = .next t) :
    (∃ d, decode w = .error d ∧ t = (s.write .cmd w).raise (decodeErrorOf d)) ∨
      ∃ i, decode w = .ok i ∧ exec i (s.write .cmd w) = .next t := by
  simp only [runCommand] at h
  cases hd : decode w with
  | error d => rw [hd] at h; cases h; exact .inl ⟨d, rfl, rfl⟩
  | ok i => rw [hd] at h; exact .inr ⟨i, rfl, h⟩

/-- The register at an aligned offset of the window. -/
theorem regOfWordNumber_offset (r : Reg) : refusedOffset r.offset = none ∧ regOfWordNumber (r.offset / 4) = some r := by
  cases r with
  | pix i => fin_cases i <;> exact ⟨rfl, rfl⟩
  | pal k => fin_cases k <;> exact ⟨rfl, rfl⟩
  | blk j => fin_cases j <;> exact ⟨rfl, rfl⟩
  | cmd => exact ⟨rfl, rfl⟩
  | status => exact ⟨rfl, rfl⟩
  | imgW => exact ⟨rfl, rfl⟩
  | imgH => exact ⟨rfl, rfl⟩
  | bX => exact ⟨rfl, rfl⟩
  | bY => exact ⟨rfl, rfl⟩
  | bufcfg => exact ⟨rfl, rfl⟩
  | pbLen => exact ⟨rfl, rfl⟩
  | cbLen => exact ⟨rfl, rfl⟩
  | ep => exact ⟨rfl, rfl⟩
  | mask => exact ⟨rfl, rfl⟩

/-- A register write runs a command at `CMD`, writes another register, or does nothing at a reserved offset. -/
theorem hostWrite_next {offset : Nat} {v : Word} {s t : State} (h : hostWrite offset v s = .next t) :
    t = s ∨ (offset = Reg.offset .cmd ∧ runCommand v s = .next t) ∨ ∃ r, r ≠ .cmd ∧ t = s.write r v := by
  simp only [hostWrite] at h
  cases ho : refusedOffset offset with
  | some r => rw [ho] at h; cases h
  | none =>
    rw [ho] at h
    cases hr : regOfWordNumber (offset / 4) with
    | none => rw [hr] at h; cases h; exact .inl rfl
    | some r =>
      rw [hr] at h
      by_cases hc : r = .cmd
      · subst hc
        refine .inr (.inl ⟨?_, h⟩)
        have h4 : offset % 4 = 0 := by
          by_contra hne
          simp [refusedOffset, hne] at ho
        have h0 : offset / 4 = 0 := by
          generalize offset / 4 = n at hr
          rcases Nat.lt_or_ge n 11 with hn | hn
          · interval_cases n <;> first | rfl | (exact absurd hr (by decide))
          · exfalso
            unfold regOfWordNumber at hr
            split at hr <;> first | omega | skip
            split at hr
            · cases hr
            · split at hr
              · cases hr
              · split at hr <;> cases hr
        simp only [Reg.offset]
        omega
      · refine .inr (.inr ⟨r, hc, ?_⟩)
        cases r <;> first | exact absurd rfl hc | (cases h; rfl)

/-- A register read changes the host's last answer only. -/
theorem hostRead_next {offset : Nat} {s t : State} (h : hostRead offset s = .next t) :
    ∃ w, t = { s with rdata := .word w } := by
  simp only [hostRead] at h
  cases ho : refusedOffset offset with
  | some r => rw [ho] at h; cases h
  | none =>
    rw [ho] at h
    cases hr : regOfWordNumber (offset / 4) with
    | none => rw [hr] at h; cases h; exact ⟨0, rfl⟩
    | some r => rw [hr] at h; cases h; exact ⟨s.read r, rfl⟩

/-- A buffer write puts its bytes at offsets that exist. -/
theorem hostWriteBuf_next {buf : Buf} {offset : Nat} {bytes : List Byte} {s t : State}
    (h : hostWriteBuf buf offset bytes s = .next t) :
    offset + bytes.length ≤ bufferSize ∧ t = s.setBuffer buf ((s.buffer buf).writeBytes offset bytes) := by
  simp only [hostWriteBuf] at h
  split at h
  · cases h
  · cases h
    exact ⟨by omega, rfl⟩

/-- A buffer read changes the host's last answer only. -/
theorem hostReadBuf_next {buf : Buf} {offset count : Nat} {s t : State} (h : hostReadBuf buf offset count s = .next t) :
    ∃ bs, readBytes buf (s.buffer buf) offset count = .ok bs ∧ t = { s with rdata := .bytes bs } := by
  simp only [hostReadBuf] at h
  split at h
  · cases h
  · cases hr : readBytes buf (s.buffer buf) offset count with
    | error e => rw [hr] at h; cases h
    | ok bs => rw [hr] at h; cases h; exact ⟨bs, rfl, rfl⟩

/-- What one access can do. -/
theorem access_next {a : HostAccess} {s t : State} (h : access a s = .next t) :
    (∃ w, a = .write (Reg.offset .cmd) w ∧ runCommand w s = .next t) ∨
    (∃ r w, r ≠ .cmd ∧ t = s.write r w) ∨
    (∃ d, t = { s with rdata := d }) ∨
    (∃ buf offset bytes, offset + bytes.length ≤ bufferSize ∧
      t = s.setBuffer buf ((s.buffer buf).writeBytes offset bytes)) ∨
    (a = .platformReset ∧ t = s.platformReset) ∨ (a = .powerOn ∧ t = s.powerOn) := by
  cases a with
  | write offset v =>
    rcases hostWrite_next h with rfl | ⟨rfl, h⟩ | ⟨r, hr, rfl⟩
    · exact .inr (.inr (.inl ⟨t.rdata, rfl⟩))
    · exact .inl ⟨v, rfl, h⟩
    · exact .inr (.inl ⟨r, v, hr, rfl⟩)
  | read offset =>
    obtain ⟨w, rfl⟩ := hostRead_next h
    exact .inr (.inr (.inl ⟨_, rfl⟩))
  | narrow offset => cases h
  | writeBuf buf offset bytes => exact .inr (.inr (.inr (.inl ⟨buf, offset, bytes, hostWriteBuf_next h⟩)))
  | readBuf buf offset count =>
    obtain ⟨bs, -, rfl⟩ := hostReadBuf_next h
    exact .inr (.inr (.inl ⟨_, rfl⟩))
  | platformReset => cases h; exact .inr (.inr (.inr (.inr (.inl ⟨rfl, rfl⟩))))
  | powerOn => cases h; exact .inr (.inr (.inr (.inr (.inr ⟨rfl, rfl⟩))))

/-- A step takes the oldest pending access, or nothing happens. -/
theorem step_next {s t : State} (h : step s = .next t) :
    (s.host = [] ∧ t = s) ∨ ∃ a rest, s.host = a :: rest ∧ access a s.dropAccess = .next t := by
  simp only [step] at h
  cases hh : s.host with
  | nil => rw [hh] at h; cases h; exact .inl ⟨rfl, rfl⟩
  | cons a rest => rw [hh] at h; exact .inr ⟨a, rest, rfl, h⟩

/-! ### Registers -/

/-- A host write of a register other than `CMD` and `STATUS` is read back, `BUFCFG` without its reserved bits. -/
theorem read_write_same (s : State) {r : Reg} (v : Word) (h : r ≠ .status) :
    (s.write r v).read r = (if r = .bufcfg then v &&& bufcfgMask else v) := by
  cases r with
  | status => exact absurd rfl h
  | bufcfg => simp [State.write, State.read, BitVec.and_assoc]
  | pix i => simp [State.write, State.read, Tile.get_set, DataReg.holding]
  | pal k => simp [State.write, State.read, Quad.get_set, DataReg.holding]
  | blk j => simp [State.write, State.read, Quad.get_set, DataReg.holding]
  | cmd => rfl
  | imgW => rfl
  | imgH => rfl
  | bX => rfl
  | bY => rfl
  | pbLen => rfl
  | cbLen => rfl
  | ep => rfl
  | mask => rfl

/-- A host write of a register leaves every other register alone. -/
theorem read_write_other (s : State) {r r' : Reg} (v : Word) (h : r' ≠ r) :
    (s.write r v).read r' = s.read r' ∧ (s.write r v).specified r' = s.specified r' := by
  cases r with
  | pix i =>
    cases r' with
    | pix i' =>
      have : i' ≠ i := fun e => h (e ▸ rfl)
      simp [State.write, State.read, State.specified, Tile.get_set, this]
    | _ => exact ⟨rfl, rfl⟩
  | pal i =>
    cases r' with
    | pal i' =>
      have : i' ≠ i := fun e => h (e ▸ rfl)
      simp [State.write, State.read, State.specified, Quad.get_set, this]
    | _ => exact ⟨rfl, rfl⟩
  | blk i =>
    cases r' with
    | blk i' =>
      have : i' ≠ i := fun e => h (e ▸ rfl)
      simp [State.write, State.read, State.specified, Quad.get_set, this]
    | _ => exact ⟨rfl, rfl⟩
  | _ => cases r' <;> first | exact absurd rfl h | exact ⟨rfl, rfl⟩

/-- After a host write a register is specified. -/
theorem specified_write (s : State) (r : Reg) (v : Word) : (s.write r v).specified r = true := by
  cases r with
  | pix i => simp [State.write, State.specified, Tile.get_set, DataReg.holding]
  | pal k => simp [State.write, State.specified, Quad.get_set, DataReg.holding]
  | blk j => simp [State.write, State.specified, Quad.get_set, DataReg.holding]
  | _ => rfl

/-! ### What the commands' operands read back -/

@[simp] theorem State.pixels_succeed (s : State) : s.succeed.pixels = s.pixels := rfl

@[simp] theorem State.palette_succeed (s : State) : s.succeed.palette = s.palette := rfl

@[simp] theorem State.blockOf_succeed (s : State) (m : Mode) : s.succeed.blockOf m = s.blockOf m := rfl

@[simp] theorem State.pixels_putPixels (s : State) (t : Tile Pixel) : (s.putPixels t).pixels = t := by
  refine Tile.ext_get fun i => ?_
  simp [State.pixels, DataReg.holding]

@[simp] theorem State.palette_putPalette (s : State) (p : Quad RGB) : (s.putPalette p).palette = p := by
  refine Quad.ext_get fun i => ?_
  simp [State.palette, DataReg.holding]

@[simp] theorem State.lowBlock_putLowBlock (s : State) (sb : SubBlock) : (s.putLowBlock sb).lowBlock = sb := by
  simp [State.lowBlock, DataReg.holding]

@[simp] theorem State.highBlock_putHighBlock (s : State) (sb : SubBlock) : (s.putHighBlock sb).highBlock = sb := by
  simp [State.highBlock, DataReg.holding]

theorem State.blockOf_length (s : State) (m : Mode) : (s.blockOf m).toList.length = Mode.blockSize m := by
  cases m <;> rfl

theorem SubBlock.toList_inj {a b : SubBlock} (h : a.toList = b.toList) : a = b := by
  obtain ⟨⟨_, _, _, _⟩, ⟨_, _, _, _⟩⟩ := a
  obtain ⟨⟨_, _, _, _⟩, ⟨_, _, _, _⟩⟩ := b
  simp only [SubBlock.toList, Quad.toList, List.cons_append, List.nil_append, List.cons.injEq, and_true] at h
  obtain ⟨rfl, rfl, rfl, rfl, rfl, rfl, rfl, rfl⟩ := h
  rfl

/-- The block registers hold a block of their mode exactly when they hold its bytes. -/
theorem State.blockOf_eq {m : Mode} {s : State} {b : Block} (h : b.toList = (s.blockOf m).toList) : s.blockOf m = b := by
  have hl := congrArg List.length h
  have h8 : ∀ sb : SubBlock, sb.toList.length = 8 := fun _ => rfl
  rw [State.blockOf_length] at hl
  cases m <;> cases b
  · simp only [State.blockOf, Block.toList] at h ⊢
    rw [SubBlock.toList_inj h]
  · simp only [Block.toList, Mode.blockSize, List.length_append, h8] at hl
    omega
  · simp only [Block.toList, Mode.blockSize, h8] at hl
    omega
  · simp only [State.blockOf, Block.toList] at h ⊢
    obtain ⟨h1, h2⟩ := List.append_inj h (by rw [h8, h8])
    rw [SubBlock.toList_inj h1, SubBlock.toList_inj h2]

end Sys2Proof.Machine
end

