-- ==== Sys2Proof/Laws/PerInstr.lean ====
section
/-! SUPPORT. A statement about every command as syntax, one lemma for each constructor: its fields are legal, and they
are the fields of its word (30_encoding.md R118, R119). -/

namespace Sys2Proof.Laws.EncodeFields

open Sys2Proof

/-- The word of a command has the command's fields, which are legal. -/
def Statement (i : Instr) : Prop := i.wf = true ∧ wordFields (encode i) = i.fields

theorem init : Statement .init := ⟨by decide, by decide⟩

theorem enc (m : Mode) (q : Quality) : Statement (.enc m q) := by cases m <;> cases q <;> exact ⟨by decide, by decide⟩

theorem dec (m : Mode) : Statement (.dec m) := by cases m <;> exact ⟨by decide, by decide⟩

theorem encimg (m : Mode) (q : Quality) : Statement (.encimg m q) := by cases m <;> cases q <;> exact ⟨by decide, by decide⟩

theorem decimg (m : Mode) : Statement (.decimg m) := by cases m <;> exact ⟨by decide, by decide⟩

theorem getblk : Statement .getblk := ⟨by decide, by decide⟩

theorem putblk : Statement .putblk := ⟨by decide, by decide⟩

theorem estc : Statement .estc := ⟨by decide, by decide⟩

theorem palc : Statement .palc := ⟨by decide, by decide⟩

theorem matchc (q : Quality) : Statement (.matchc q) := by cases q <;> exact ⟨by decide, by decide⟩

theorem refc : Statement .refc := ⟨by decide, by decide⟩

theorem enca : Statement .enca := ⟨by decide, by decide⟩

theorem flatc : Statement .flatc := ⟨by decide, by decide⟩

theorem ordc (m : Mode) : Statement (.ordc m) := by cases m <;> exact ⟨by decide, by decide⟩

end Sys2Proof.Laws.EncodeFields
end

