-- ==== Sys2Proof/Tests/Slice0.lean ====
section
/-! SUPPORT. Tests with results from the spec's own vectors (95_test_vectors.md), words written out from the encoding
tables, ill-formed words, and for every statement with hypotheses a state and operands that meet them. -/

namespace Sys2Proof.Tests

-- Each kernel evaluation waits for those before it; all at once they would need too many threads in the one-text build.
set_option Elab.async false

open Sys2Proof Sys2Proof.Machine

/-! ### Helpers -/

/-- The next state of an outcome. -/
def nextOf (o : Host.Outcome State Fault Refusal) : Option State :=
  match o with
  | .next s => some s
  | .fault _ => none
  | .refused _ => none

theorem exists_next {o : Host.Outcome State Fault Refusal} (h : (nextOf o).isSome = true) : ∃ t, o = .next t := by
  cases o with
  | next t => exact ⟨t, rfl⟩
  | fault e => cases h
  | refused r => cases h

/-- The state after a command that has a next state. -/
def after (i : Instr) (s : State) : State := (nextOf (exec i s)).getD s

theorem exec_after {i : Instr} {s : State} (h : (nextOf (exec i s)).isSome = true) : exec i s = .next (after i s) := by
  obtain ⟨t, ht⟩ := exists_next h
  simp only [after, ht, nextOf, Option.getD_some]

/-- The state after running a list of commands. -/
def afterAll (is : List Instr) (s : State) : State := is.foldl (fun s i => after i s) s

/-- The unit after reset with the pixel registers holding `f i`. -/
def pixelState (f : Nat → Word) : State :=
  { State.reset with pix := Tile.indices.map fun i => .holding (f i.val) }

/-- Sixteen times (200, 100, 50, 255), vector S1. -/
def s1 : State := pixelState fun _ => 0xFF3264C8

/-- Eight red and eight blue pixels, vector S2. -/
def s2 : State := pixelState fun i => if i < 8 then 0xFF0000FF else 0xFFFF0000

/-- Eight green and eight red pixels, vector G. -/
def g : State := pixelState fun i => if i < 8 then 0xFF00FF00 else 0xFF0000FF

/-- Pixel i is (17i, 17i, 17i, 255), vector T1. -/
def t1 : State := pixelState fun i => 0xFF000000 ||| BitVec.ofNat 32 (17 * i * 0x010101)

/-- Pixel i is (10, 20, 30, 17i), the block of program P3. -/
def p3 : State := pixelState fun i => BitVec.ofNat 32 (0x1E140A + 17 * i * 0x1000000)

/-- The unit with a pending host access. -/
def pending (a : HostAccess) (s : State) : State := { s with host := [a] }

/-- A 4×4 frame of pixels (a, a, a, 255) with both buffers written, tile (0, 0) selected. -/
def frame44 : State :=
  { State.reset with
    imgW := 4, imgH := 4, bufcfg := 3, pbLen := 64, cbLen := 16,
    pb := (List.range 64).map fun a => (a, if a % 4 = 3 then 255 else BitVec.ofNat 8 (a / 4 * 17)),
    cb := (List.range 16).map fun a => (a, BitVec.ofNat 8 a) }

/-- The registers of the 8×4 frame of the error cases (95_test_vectors.md 2.9). -/
def frame84 : State := { State.reset with imgW := 8, imgH := 4, bufcfg := 3, pbLen := 128, cbLen := 16 }

/-- The 8×4 frame with both buffers written and tile (1, 0) selected. -/
def written84 : State :=
  { frame84 with
    bX := 1
    pb := (List.range 128).map fun a => (a, BitVec.ofNat 8 (a * 5 + 1))
    cb := (List.range 16).map fun a => (a, BitVec.ofNat 8 (a * 9 + 1)) }

/-- A unit whose block registers hold block 1 of `written84` and whose buffers are unwritten. -/
def other84 : State :=
  { written84 with
    pb := []
    cb := []
    blk := ⟨.holding 0x645B5249, .holding 0x887F766D, .afterReset, .afterReset⟩ }

/-- `STATUS` after a `CMD` write. -/
def statusAfter (w : Word) (s : State) : Option Word := (nextOf (access (.write 0 w) s)).map (·.read .status)

/-! ### Well-formedness: one ill-formed word for each check -/

theorem test_wf_reserved_opcode : CmdFields.wf ⟨0x0, false, false, 0⟩ = false ∧ CmdFields.wf ⟨0xF, false, false, 0⟩ = false := by
  decide

theorem test_wf_rsv : CmdFields.wf ⟨0x1, false, false, 1⟩ = false := by decide

theorem test_wf_m : CmdFields.wf ⟨0x1, true, false, 0⟩ = false := by decide

theorem test_wf_q : CmdFields.wf ⟨0x3, false, true, 0⟩ = false := by decide

theorem test_wf_legal : CmdFields.wf ⟨0x2, true, true, 0⟩ = true := by decide

/-! ### Decoding: words written out from 30_encoding.md R118, R119 -/

theorem test_decode_init : decode 0b00000000000000000000000000000001 = .ok .init := by decide

theorem test_decode_enc : decode 0b00000000000000000000000000110010 = .ok (.enc .bc3 .dithered) := by decide

theorem test_decode_dec : decode 0b00000000000000000000000000010011 = .ok (.dec .bc3) := by decide

theorem test_decode_encimg : decode 0b00000000000000000000000000100100 = .ok (.encimg .bc1 .dithered) := by decide

theorem test_decode_decimg : decode 0b00000000000000000000000000010101 = .ok (.decimg .bc3) := by decide

theorem test_decode_getblk : decode 0b00000000000000000000000000000110 = .ok .getblk := by decide

theorem test_decode_putblk : decode 0b00000000000000000000000000000111 = .ok .putblk := by decide

theorem test_decode_estc : decode 0b00000000000000000000000000001000 = .ok .estc := by decide

theorem test_decode_palc : decode 0b00000000000000000000000000001001 = .ok .palc := by decide

theorem test_decode_matchc : decode 0b00000000000000000000000000101010 = .ok (.matchc .dithered) := by decide

theorem test_decode_refc : decode 0b00000000000000000000000000001011 = .ok .refc := by decide

theorem test_decode_enca : decode 0b00000000000000000000000000001100 = .ok .enca := by decide

theorem test_decode_flatc : decode 0b00000000000000000000000000001101 = .ok .flatc := by decide

theorem test_decode_ordc : decode 0b00000000000000000000000000011110 = .ok (.ordc .bc3) := by decide

theorem test_decode_reserved :
    [0x00, 0x0F, 0x41, 0x11, 0x23, 0x80000001].map (fun w => decode w) =
      [.error .reservedOpcode, .error .reservedOpcode, .error .reservedField, .error .reservedField,
       .error .reservedField, .error .reservedField] := by decide

theorem test_fetch_runs : (nextOf (step (State.reset.withFetchWord 32 1))).map (·.read .status) = some 0x100 := by decide

/-! ### Commands (95_test_vectors.md) -/

theorem test_init : (after .init State.reset).read .status = 0x00000100 := by decide

theorem test_enc_flat :
    (after (.enc .bc1 .fast) s1).read (.blk 0) = 0x5800FCA9 ∧ (after (.enc .bc1 .fast) s1).read (.blk 1) = 0xAAAAAAAA ∧
      (after (.enc .bc1 .fast) s1).read .status = 0x00000900 := by decide +kernel

theorem test_enc_bc3 :
    (after (.enc .bc3 .fast) p3).blk.map (·.value) = ⟨0x6FC900FF, 0x0126E4B7, 0x002110E5, 0xAAAAAAAA⟩ := by
  decide +kernel

theorem test_enc_dithered :
    (after (.enc .bc1 .dithered) t1).read .ep = 0x1082EF7D ∧ (after (.enc .bc1 .dithered) t1).read .mask = 0x02AAFFD5 ∧
      (after (.enc .bc1 .dithered) t1).read .status = 0x00000300 := by decide +kernel

theorem test_dec_three_colours :
    (after (.dec .bc1) { State.reset with blk := ⟨.holding 0xF800001F, .holding 0xE4E4E4E4, .afterReset, .afterReset⟩ }).pix.r0.map
      (fun d => unpackPixel d.value) = ⟨⟨0, 0, 255, 255⟩, ⟨255, 0, 0, 255⟩, ⟨127, 0, 127, 255⟩, ⟨0, 0, 0, 0⟩⟩ := by
  decide +kernel

theorem test_dec_bc3 :
    (after (.dec .bc3) { State.reset with
      blk := ⟨.holding 0xC68800FF, .holding 0xFAC688FA, .holding 0x001FF800, .holding 0xE4E4E4E4⟩ }).pix.r0.map
      (fun d => unpackPixel d.value) = ⟨⟨255, 0, 0, 255⟩, ⟨0, 0, 255, 0⟩, ⟨170, 0, 85, 218⟩, ⟨85, 0, 170, 182⟩⟩ := by
  decide +kernel

theorem test_estc : (after .estc t1).read .ep = 0x0000FFFF := by decide +kernel

theorem test_estc_fallback : (after .estc g).read .ep = 0xF80007E0 := by decide +kernel

theorem test_palc :
    (after .palc { State.reset with ep := .holding 0x1082EF7D }).pal.map (·.value) =
      ⟨0x00EFEFEF, 0x00101010, 0x00A5A5A5, 0x005A5A5A⟩ := by decide

theorem test_matchc :
    (afterAll [.palc, .matchc .fast] { t1 with ep := .holding 0x1082EF7D }).read .mask = 0x00AAFF55 := by decide +kernel

theorem test_matchc_dithered :
    (afterAll [.palc, .matchc .dithered] { t1 with ep := .holding 0x1082EF7D }).read .mask = 0x02AAFFD5 := by
  decide +kernel

theorem test_refc_changed :
    (after .refc { t1 with ep := .holding 0x0000FFFF, mask := .holding 0x02AAFFD5 }).read .ep = 0x1082EF7D ∧
      (after .refc { t1 with ep := .holding 0x0000FFFF, mask := .holding 0x02AAFFD5 }).read .status = 0x00000200 := by
  decide +kernel

theorem test_refc_skipped :
    (after .refc { t1 with ep := .holding 0x632C632C, mask := .holding 0 }).read .ep = 0x632C632C ∧
      (after .refc { t1 with ep := .holding 0x632C632C, mask := .holding 0 }).read .status = 0x00000400 := by
  decide +kernel

theorem test_enca : (after .enca p3).read (.blk 0) = 0x6FC900FF ∧ (after .enca p3).read (.blk 1) = 0x0126E4B7 := by
  decide +kernel

theorem test_flatc :
    (after .flatc s1).read .ep = 0x5800FCA9 ∧ (after .flatc s1).read .mask = 0xAAAAAAAA ∧
      (after .flatc s1).read .status = 0x00000900 := by decide +kernel

theorem test_flatc_not_flat : (after .flatc t1).status.flat = false := by decide +kernel

theorem test_ordc_swaps :
    (after (.ordc .bc1) { State.reset with ep := .holding 0xF80007E0, mask := .holding 0x55550000 }).blk.q0.value = 0x07E0F800 ∧
      (after (.ordc .bc1) { State.reset with ep := .holding 0xF80007E0, mask := .holding 0x55550000 }).blk.q1.value =
        0x00005555 := by decide

theorem test_ordc_bc3 :
    (after (.ordc .bc3) { State.reset with ep := .holding 0x0000FFFF, mask := .holding 0x12345678 }).blk.map (·.value) =
      ⟨0, 0, 0x0000FFFF, 0x12345678⟩ := by decide

/-- The 6 × 5 frame of program P4. -/
def frame65 : State :=
  { State.reset with
    imgW := 6, imgH := 5, bufcfg := 3, pbLen := 120, cbLen := 32,
    pb := (List.range 120).map fun a =>
      let x := a / 4 % 6
      let y := a / 24
      (a, BitVec.ofNat 8 (match a % 4 with
        | 0 => 40 * x
        | 1 => 50 * y
        | 2 => 200 - 20 * x - 10 * y
        | _ => 255)) }

theorem test_encimg_clamps_edges :
    (after (.encimg .bc1 .fast) frame65).cb.map (·.2) =
      [0xef, 0x64, 0x17, 0x18, 0xf5, 0xbf, 0xab, 0x0a, 0xa9, 0xbc, 0x0d, 0xb8, 0x55, 0xff, 0xaa, 0x00,
       0x2c, 0x7e, 0x33, 0x06, 0x2d, 0x2d, 0x2d, 0x2d, 0x27, 0xc6, 0x2a, 0x9e, 0x01, 0x01, 0x01, 0x01] := by
  decide +kernel

theorem test_decimg_row :
    ((afterAll [.encimg .bc1 .fast, .decimg .bc1] frame65).pb.drop 96).map (·.2) =
      [0, 199, 156, 255, 41, 199, 137, 255, 82, 199, 118, 255, 123, 199, 99, 255, 156, 199, 82, 255, 198, 199, 57, 255] := by
  decide +kernel

theorem test_getblk :
    (after .getblk { frame65 with bX := 0 }).read (.pix 0) = 0xFFC80000 ∧
      (after .getblk { frame65 with bX := 0 }).read (.pix 6) = 0xFF963250 := by decide +kernel

theorem test_getblk_outside : (after .getblk { frame65 with bX := 1 }).read .status = 0x00008081 := by decide

theorem test_putblk :
    (after .putblk { t1 with imgW := 8, imgH := 4, bufcfg := 1, pbLen := 128, bX := 1 }).pb.read (4 * (8 + 5) + 1) = some 85 ∧
      (after .putblk { t1 with imgW := 8, imgH := 4, bufcfg := 1, pbLen := 128, bX := 1 }).pb.read (4 * (8 + 3)) = none := by
  decide +kernel

/-! ### Errors: the cases of 95_test_vectors.md 2.9 -/

theorem test_error_words : [0x00, 0x0F, 0x41, 0x11, 0x23].map (fun w => statusAfter w State.reset) =
    [some 0x8011, some 0x8011, some 0x8021, some 0x8021, some 0x8021] := by decide

theorem test_error_frames :
    [statusAfter 0x04 State.reset, statusAfter 0x04 { frame84 with bufcfg := 1 },
     statusAfter 0x04 { frame84 with imgW := 0xFFFFFFFF }, statusAfter 0x06 { frame84 with imgW := 32768, imgH := 32768 },
     statusAfter 0x04 { frame84 with pbLen := 127 }, statusAfter 0x04 { frame84 with cbLen := 15 },
     statusAfter 0x14 { frame84 with cbLen := 31 }] =
    [some 0x8031, some 0x8031, some 0x8041, some 0x8051, some 0x8061, some 0x8071, some 0x8071] := by decide

theorem test_error_tiles :
    [statusAfter 0x06 { frame84 with bX := 2 }, statusAfter 0x07 { frame84 with bY := 0xFFFFFFFF },
     statusAfter 0x05 { frame84 with cbLen := 15 }, statusAfter 0x15 { frame84 with cbLen := 16 },
     statusAfter 0x05 { frame84 with pbLen := 0, cbLen := 15 }] =
    [some 0x8081, some 0x8081, some 0x8012, some 0x8012, some 0x8061] := by decide

/-! ### The free values -/

/-- Under `cfg.ditherMatch = Opaque` the dithered matcher still completes, and its mask is the free value. -/
theorem test_free_dither_mask :
    (after (.matchc .dithered) { t1 with cfg := { Cfg.default with ditherMatch := .uninterpreted } }).read .mask =
      Config.freeDitherMask (t1.pixels.map Pixel.rgb) t1.palette := rfl

/-! ### Witnesses: states and operands that meet the hypotheses of the statements -/

theorem witness_ResetLeavesTheStatedValues :
    (pending .platformReset frame44).host = .platformReset :: [] ∧ (pending .powerOn frame44).host = .powerOn :: [] :=
  ⟨rfl, rfl⟩

theorem frame44_inv : frame44.Inv := by
  refine ⟨?_, ?_, ?_, ?_, ?_⟩ <;> decide +kernel

theorem witness_EveryStepKeepsTheInvariant :
    (pending (.write 0 1) frame44).Inv ∧ ∃ t, step (pending (.write 0 1) frame44) = .next t :=
  ⟨⟨frame44_inv.1, frame44_inv.2, frame44_inv.3, frame44_inv.4, frame44_inv.5⟩, exists_next (by decide +kernel)⟩

theorem witness_StepRunsTheDecodedCommand :
    (pending (.write 0 0x32) t1).host = .write 0 0x32 :: [] ∧ decode 0x32 = .ok (.enc .bc3 .dithered) ∧ t1.host = [] :=
  ⟨rfl, by decide, rfl⟩

theorem witness_StickyBitsClearOnlyAtReset :
    let s := pending (.write 0 1) { State.reset with lutReady := true, status := { Status.afterReset with errSeen := true } }
    (∃ t, step s = .next t) ∧ s.host.head? ≠ some .platformReset ∧ s.host.head? ≠ some .powerOn ∧
      s.status.errSeen = true ∧ s.lutReady = true ∧ s.specified .imgW = true :=
  ⟨exists_next (by decide), by decide, by decide, rfl, rfl, rfl⟩

theorem witness_FlagsChangeOnlyByNamedCommands :
    ∃ t, step (pending (.write 0 0x0D) s1) = .next t ∧ t.status.flag .flat ≠ (pending (.write 0 0x0D) s1).status.flag .flat :=
  ⟨_, rfl, by decide +kernel⟩

theorem witness_UnspecifiedBitsDoNotReachDefinedRuns :
    SpecEqual (pending (.write 0 1) { State.reset with ep := ⟨5, false⟩ }) (pending (.write 0 1) State.reset) ∧
      SpecDefined (pending (.write 0 1) { State.reset with ep := ⟨5, false⟩ }) := by
  refine ⟨⟨rfl, fun r => ?_⟩, rfl⟩
  cases r <;> rfl

theorem witness_ReservedWordsFail :
    ((0x00 : Word).extractLsb' 0 4 = 0x0) ∧ ((0x0F : Word).extractLsb' 0 4 = 0xF) ∧
    (0x80000001 : Word).extractLsb' 6 26 ≠ 0 ∧ (0x41 : Word).extractLsb' 6 26 ≠ 0 ∧
    ((0x11 : Word).getLsbD 4 = true ∧ (0x11 : Word).extractLsb' 0 4 ∉ [(0x2 : BitVec 4), 0x3, 0x4, 0x5, 0xE]) ∧
    ((0x23 : Word).getLsbD 5 = true ∧ (0x23 : Word).extractLsb' 0 4 ∉ [(0x2 : BitVec 4), 0x4, 0xA]) ∧
    (∃ i, decode 0x3F = .error i) ∧ (∃ i, decode 0x1E = .ok i) := by
  refine ⟨by decide, by decide, by decide, by decide, by decide, by decide, ⟨_, rfl⟩, ⟨_, rfl⟩⟩

theorem witness_AssemblyRoundTrips :
    commandTextBc1 (.enc .bc1 .dithered) = some "ENC.BC1.D" ∧ decode 0x41 = .error .reservedField := by decide +kernel

theorem witness_FailingCommandWritesOnlyStatus :
    decode 0x0F = .error .reservedOpcode ∧ decode 0x41 = .error .reservedField ∧
    [validation .getblk State.reset, validation .putblk { frame84 with imgH := 0 },
     validation .getblk { frame84 with imgW := 32768, imgH := 32768 }, validation (.decimg .bc1) { frame84 with pbLen := 127 },
     validation (.encimg .bc3 .fast) frame84, validation .getblk { frame84 with bX := 2 },
     validation (.decimg .bc3) frame84] =
    [some .nullBuffer, some .badDimension, some .sizeOverflow, some .pbUndersize, some .cbUndersize,
     some .blockOutOfRange, some .cbShort] := by decide

/-- The checks at the edge of each range: sizes exactly reached, the last tile inside, the largest frame. -/
theorem witness_CommandsValidateInTheFixedOrder :
    (pending (.write 0 0x04) frame44).host = .write 0 0x04 :: [] ∧
    [checkFrame (.encimg .bc1) frame84, checkFrame (.decimg .bc1) frame84, checkFrame .getblk { frame84 with bX := 1 },
     checkFrame .putblk { frame84 with imgW := 32768, imgH := 32767, pbLen := 0xFFFE0000, bX := 8191, bY := 8190 },
     checkFrame (.encimg .bc1) { frame84 with imgW := 6, cfg := { Cfg.default with edgePolicy := .reject } }] =
    [none, none, none, none, some .blockOutOfRange] := ⟨rfl, by decide⟩

/-- A host access other than a `CMD` write and a reset. -/
theorem witness_CommandsValidateInTheFixedOrder_others :
    (∃ t, step (pending (.write 4 7) frame44) = .next t) ∧
    (∀ w : Word, (pending (.write 4 7) frame44).host.head? ≠ some (.write 0 w)) ∧
    (pending (.write 4 7) frame44).host.head? ≠ some .platformReset ∧
    (pending (.write 4 7) frame44).host.head? ≠ some .powerOn := by
  refine ⟨exists_next (by decide), fun w h => ?_, by decide, by decide⟩
  cases h

theorem witness_UnwrittenBytesStopTheReaders :
    (checkFrame .getblk { frame44 with pb := frame44.pb.dropLast } = none ∧
      inTile { frame44 with pb := frame44.pb.dropLast }.selectedTile 63 ∧ Memory.read frame44.pb.dropLast 63 = none) ∧
    (checkFrame (.encimg .bc1) { frame44 with pb := frame44.pb.tail } = none ∧ 0 < frame44.frame.pbSize ∧
      Memory.read frame44.pb.tail 0 = none) ∧
    (checkFrame (.decimg .bc3) { frame44 with cb := frame44.cb.dropLast } = none ∧ 15 < frame44.frame.cbSize .bc3 ∧
      Memory.read frame44.cb.dropLast 15 = none) := by
  refine ⟨⟨by decide +kernel, ⟨15, by decide +kernel⟩, by decide +kernel⟩, ⟨by decide +kernel, by decide, by decide +kernel⟩,
    ⟨by decide +kernel, by decide, by decide +kernel⟩⟩

theorem witness_RegisterAccessFollowsTheMap :
    Reg.bufcfg ≠ .cmd ∧ Reg.bufcfg ≠ .status ∧ (Reg.blk 3).offset = 0x9C ∧ (Reg.pix 15).offset = 0x7C ∧
    (0x2C ≤ 4 * 11 ∧ 4 * 15 < 0x40) ∧ (0xA0 ≤ 4 * 40 ∧ 4 * 63 < 0x100) ∧ 1 % 4 ≠ 0 := by decide

theorem tile44_written : ∀ a : Nat, a < 64 → (frame44.pb.read a).isSome = true := by decide +kernel

/-- A write at the top, a read of written bytes that ends at the last of them, one that goes a byte further, and an
access one byte beyond the buffer. -/
theorem witness_BufferReadReturnsTheLastWrite :
    (2 ^ 32 - 2 + [(7 : Byte), 9].length ≤ 2 ^ 32 ∧
      (nextOf (access (.writeBuf .cb (2 ^ 32 - 2) [7, 9]) frame44)).isSome = true) ∧
    (60 + 4 ≤ 2 ^ 32 ∧ ∀ a : Nat, 60 ≤ a → a < 60 + 4 → ((frame44.buffer .pb).read a).isSome = true) ∧
    (60 + 5 ≤ 2 ^ 32 ∧ 60 ≤ 64 ∧ 64 < 60 + 5 ∧ (frame44.buffer .pb).read 64 = none) ∧
    (2 ^ 32 < 2 ^ 32 - 1 + 2 ∧ [(7 : Byte), 9].length = 2) :=
  ⟨by decide, ⟨by decide, fun a _ h => tile44_written a h⟩, by decide +kernel, by decide⟩

theorem witness_MulShift8Rounds :
    mulShift8 255 255 = 255 ∧ mulShift8 0 255 = 0 ∧ mulShift8 (-255) 85 = -85 ∧ mulShift8 255 85 = 85 ∧
      mulShift8 (-90) 85 = -30 := by decide

theorem witness_ExpansionTables :
    (0 : BitVec 5).toNat < (31 : BitVec 5).toNat ∧ (0 : BitVec 6).toNat < (63 : BitVec 6).toNat := by decide

theorem witness_OMatchTables :
    omatch5 2 = (0, 1) ∧ omatch5 200 = (31, 11) ∧ omatch6 1 = (0, 1) ∧ omatch6 22 = (0, 16) ∧ omatch6 255 = (63, 63) := by
  decide

theorem witness_PlainMatchIsNearestAlongTheAxis :
    matchPlain (t1.pixels.map Pixel.rgb) (evalColours .mulShift8 0xEF7D 0x1082) = 0x00AAFF55 := by decide +kernel

/-- A tie: 5 lies midway between the two-bit values 4 and 6, and the even significand is taken. -/
theorem witness_RoundingIsToNearestEven : roundBinary 2 0 5 1 0 = ⟨2, 1⟩ ∧ (0 : Nat) < 2 ∧ (0 : Nat) < 1 := by decide

/-- The ends of both ranges of iterations, with a seed that is not zero. -/
theorem witness_PowerIterationStaysInRange :
    0 < 4 ∧ 3 < 4 ∧ 1 ≤ 4 ∧ 4 ≤ 4 ∧ seedVector (t1.pixels.map Pixel.rgb) = ⟨f32OfInt 255, f32OfInt 255, f32OfInt 255⟩ := by
  decide +kernel

/-- The fallback just below magnitude 4 (eight black pixels and eight of red 7), and just above it (red 8); a greatest
component that becomes 511 (red 27) and one that becomes 512 (T1). -/
theorem witness_DirectionComponentsAreBounded :
    let red (k : Word) := (pixelState fun i => if i < 8 then 0xFF000000 else k).pixels.map Pixel.rgb
    (magnitude (powerVector (red 7))).lt (Flt.ofInt 4) = true ∧ direction .ref32 (red 7) = ⟨148, 300, 58⟩ ∧
      (magnitude (powerVector (red 8))).lt (Flt.ofInt 4) = false ∧ (direction .ref32 (red 27)).r = 511 ∧
      direction .ref32 (t1.pixels.map Pixel.rgb) = ⟨512, 512, 512⟩ := by decide +kernel

theorem witness_FlatcTestsAndWritesTheFastPath :
    (after .flatc { p3 with cfg := { Cfg.default with flatCompare := .rgba } }).status.flat = false ∧
      (after .flatc p3).status.flat = true := by decide +kernel

theorem witness_MatchcDitheredDiffusesTheError :
    t1.cfg.ditherMatch = .ref ∧
      { t1 with cfg := { Cfg.default with ditherMatch := .uninterpreted } }.cfg.ditherMatch = .uninterpreted := ⟨rfl, rfl⟩

theorem witness_EqualEndpointsMatchToZero :
    (evalColours .mulShift8 0x632C 0x632C).q0 = (evalColours .mulShift8 0x632C 0x632C).q1 := rfl

theorem witness_RefinementSkippedIffOneIndex :
    [0x00000000, 0x55555555, 0xAAAAAAAA, 0xFFFFFFFF, 0x00000001].map (fun m => (normalTerms m).degenerate) =
      [true, true, true, true, false] := by decide

theorem witness_RefcSolvesOrSkips :
    (∀ i : Fin 16, maskIndex 0xAAAAAAAA i = maskIndex 0xAAAAAAAA 0) ∧
      ¬ ∀ i : Fin 16, maskIndex 0x55550000 i = maskIndex 0x55550000 0 := by decide

/-- For each endpoint and channel a numerator below 0. -/
theorem witness_SolvedFieldsAreClamped :
    let blkG := g.pixels.map Pixel.rgb
    let blkS := s2.pixels.map Pixel.rgb
    (normalTerms 0xFFFFAAAA).degenerate = false ∧ (normalTerms 0xAAAAFFFF).degenerate = false ∧
      solveMax 0xFFFFAAAA (channel RGB.r blkG) < 0 ∧ solveMin 0xFFFFAAAA (channel RGB.g blkG) < 0 ∧
      solveMax 0xAAAAFFFF (channel RGB.g blkG) < 0 ∧ solveMin 0xAAAAFFFF (channel RGB.r blkG) < 0 ∧
      solveMax 0xFFFFAAAA (channel RGB.b blkS) < 0 ∧ solveMin 0xAAAAFFFF (channel RGB.b blkS) < 0 := by
  decide +kernel

theorem witness_AlphaRampLevels :
    (255 : Byte).toNat > (0 : Byte).toNat ∧ (128 : Byte).toNat ≤ (128 : Byte).toNat ∧
    alphaRamp 255 0 7 = 36 ∧ alphaRamp 40 200 5 = 168 ∧ alphaRamp 40 200 6 = 0 ∧ alphaRamp 128 128 7 = 255 := by decide

theorem witness_EncaEncodesWithinNineteen :
    ∀ i : Fin 16, (s1.pixels.get i).a.toNat = (s1.pixels.get 0).a.toNat := by decide +kernel

theorem witness_OrderingKeepsTheColours :
    (orderEndpoints 0x07E0 0xF800 0x55550000).swapped = true ∧ (orderEndpoints 0xF800 0x07E0 0).swapped = false ∧
      (orderEndpoints 0xF800 0xF800 0).swapped = false := by decide

theorem witness_EncWritesTheBlockAndReports :
    (after (.enc .bc1 .fast) s1).status.flat = true ∧ (after (.enc .bc1 .fast) s1).read (.blk 2) = s1.read (.blk 2) ∧
      ((1 : Fin 4).val < 2 ∧ (after (.enc .bc1 .fast) s1).specified (.blk 1) = true) ∧
      (after (.enc .bc1 .fast) s1).specified (.blk 2) = false := by decide +kernel

/-- The register commands complete. -/
theorem completes {i : Instr} (s : State)
    (h : i = .estc ∨ i = .palc ∨ (∃ q, i = .matchc q) ∨ i = .refc ∨ i = .flatc ∨ i = .enca ∨ (∃ m q, i = .enc m q) ∨
      (∃ m, i = .dec m) ∨ ∃ m, i = .ordc m) : exec i s = .next (after i s) := by
  rcases h with rfl | rfl | ⟨q, rfl⟩ | rfl | rfl | rfl | ⟨m, q, rfl⟩ | ⟨m, rfl⟩ | ⟨m, rfl⟩ <;> exact exec_after rfl

/-- Vector T1, whose refinement changes the endpoints, so that the block is matched again. -/
theorem witness_EncIsThePipelineOfItsStages :
    ∃ s0 s1 s2 s3 s4 s5 s6 s7 t, exec .flatc t1 = .next s0 ∧ s0.status.flat = false ∧ exec .estc s0 = .next s1 ∧
      exec .palc s1 = .next s2 ∧ exec (.matchc .fast) s2 = .next s3 ∧ exec .refc s3 = .next s4 ∧
      s4.status.refChanged = true ∧ exec .palc s4 = .next s5 ∧ exec (.matchc .fast) s5 = .next s6 ∧
      exec (.ordc .bc1) s6 = .next s7 ∧ exec (.enc .bc1 .fast) t1 = .next t := by
  refine ⟨_, _, _, _, _, _, _, _, _, completes _ (by simp), by decide +kernel, completes _ (by simp), completes _ (by simp),
    completes _ (by simp), completes _ (by simp), by decide +kernel, completes _ (by simp), completes _ (by simp),
    completes _ (by simp), completes _ (by simp)⟩

/-- Vector S2, whose refinement changes nothing, on the dithered path. -/
theorem witness_EncIsThePipelineOfItsStages_unchanged :
    s2.cfg.preDither = false ∧ (after .flatc s2).status.flat = false ∧
      (afterAll [.flatc, .estc, .palc, .matchc .dithered, .refc] s2).status.refChanged = false := by decide +kernel

/-- Vector T1 with the estimator input pre-dithered. -/
theorem witness_EncIsThePipelineOfItsStages_dithered :
    let s : State := { t1 with cfg := { Cfg.default with preDither := true } }
    ∃ (dblk : Tile Pixel) (s0 s1 s2 s3 s4 s5 s6 s7 t : State), s.cfg.preDither = true ∧
      dblk.map Pixel.rgb = ditherBlock (s.pixels.map Pixel.rgb) ∧
      exec .flatc s = .next s0 ∧ s0.status.flat = false ∧
      exec .estc (s0.putPixels dblk) = .next s1 ∧ exec .palc (s1.putPixels s.pixels) = .next s2 ∧
      exec (.matchc .dithered) s2 = .next s3 ∧ exec .refc (s3.putPixels dblk) = .next s4 ∧
      s4.status.refChanged = true ∧ exec .palc (s4.putPixels s.pixels) = .next s5 ∧
      exec (.matchc .dithered) s5 = .next s6 ∧ exec (.ordc .bc1) s6 = .next s7 ∧
      exec (.enc .bc1 .dithered) s = .next t := by
  refine ⟨(ditherBlock (t1.pixels.map Pixel.rgb)).map fun c => ⟨c.r, c.g, c.b, 0⟩, _, _, _, _, _, _, _, _, _, rfl,
    by decide +kernel, completes _ (by simp), by decide +kernel, completes _ (by simp), completes _ (by simp),
    completes _ (by simp), completes _ (by simp), by decide +kernel, completes _ (by simp), completes _ (by simp),
    completes _ (by simp), completes _ (by simp)⟩

theorem witness_FlatAndBc3BlocksAreAssembledFromStages :
    isFlat p3.cfg.flatCompare p3.pixels = true ∧ exec .flatc p3 = .next (after .flatc p3) ∧
      exec .enca p3 = .next (after .enca p3) ∧ exec (.enc .bc3 .fast) p3 = .next (after (.enc .bc3 .fast) p3) :=
  ⟨by decide +kernel, completes _ (by simp), completes _ (by simp), completes _ (by simp)⟩

/-- Both palette modes, and every index. -/
theorem witness_DecLooksUpPaletteAndRamp :
    (0x001F : Half).toNat < (0xF800 : Half).toNat ∧ ¬ (0xF800 : Half).toNat < (0x001F : Half).toNat ∧
    [maskIndex 0xE4E4E4E4 0, maskIndex 0xE4E4E4E4 1, maskIndex 0xE4E4E4E4 2, maskIndex 0xE4E4E4E4 3] = [0, 1, 2, 3] := by
  decide

theorem witness_FlatBlocksRoundTripWithinOne :
    s1.cfg.lerp13 = .mulShift8 ∧ isFlat s1.cfg.flatCompare s1.pixels = true ∧
      (afterAll [.enc .bc1 .fast, .dec .bc1] s1).read (.pix 15) = 0xFF3164C8 := by decide +kernel

theorem witness_EncoderOutputDecodesAlikeInBothPaletteRules :
    (encodeColour Cfg.default .fast State.reset.pixels).ordered.c0 = (encodeColour Cfg.default .fast State.reset.pixels).ordered.c1 ∧
      Cfg.default.ditherMatch = .ref := by decide +kernel

theorem witness_GetblkLoadsTheTile :
    checkFrame .getblk frame44 = none ∧ ∀ a : Nat, inTile frame44.selectedTile a → (frame44.pb.read a).isSome = true := by
  refine ⟨by decide, fun a ⟨i, h1, h2⟩ => tile44_written a ?_⟩
  have : ∀ i : Fin 16, frame44.selectedTile.get i + 4 ≤ 64 := by decide
  have := this i
  omega

theorem witness_PutblkStoresTheTile : checkFrame .putblk frame44 = none ∧ ∃ t, exec .putblk frame44 = .next t :=
  ⟨by decide, exists_next (by decide +kernel)⟩

theorem witness_PutblkThenGetblkReturnsTheRegisters :
    checkFrame .putblk frame44 = none ∧ exec .putblk frame44 = .next (after .putblk frame44) :=
  ⟨by decide, exec_after (by decide +kernel)⟩

theorem witness_EncimgEncodesEveryTile : checkFrame (.encimg .bc3) frame44 = none ∧ PbWritten frame44 :=
  ⟨by decide, tile44_written⟩

theorem witness_DecimgDecodesEveryTile : checkFrame (.decimg .bc3) frame44 = none ∧ CbWritten .bc3 frame44 := by
  have : ∀ a : Nat, a < 16 → (frame44.cb.read a).isSome = true := by decide
  exact ⟨by decide, this⟩

/-- GETBLK and ENC in a unit whose `CB` and block registers differ from the frame's unit, on its second tile. -/
theorem witness_BlockCommandsAgreeWithEncimg :
    let x : State := { other84 with pb := written84.pb }
    x.cfg = written84.cfg ∧ x.imgW = written84.imgW ∧ x.imgH = written84.imgH ∧
    checkFrame .getblk x = none ∧ checkFrame (.encimg .bc1) written84 = none ∧
    (∀ a : Nat, inTile x.selectedTile a → x.pb.read a = written84.pb.read a) ∧
    ∃ g e t, exec .getblk x = .next g ∧ exec (.enc .bc1 .fast) g = .next e ∧
      exec (.encimg .bc1 .fast) written84 = .next t :=
  ⟨rfl, rfl, rfl, by decide, by decide, fun _ _ => rfl, _, _, _, exec_after (by decide +kernel), completes _ (by simp),
    exec_after (by decide +kernel)⟩

/-- DEC and PUTBLK in a unit whose block registers hold the bytes of the second tile. -/
theorem witness_BlockCommandsAgreeWithEncimg_decoding :
    other84.cfg = written84.cfg ∧ other84.imgW = written84.imgW ∧ other84.imgH = written84.imgH ∧
    checkFrame .putblk other84 = none ∧ checkFrame (.decimg .bc1) written84 = none ∧
    other84.bY.toInt.toNat * written84.frame.bw + other84.bX.toInt.toNat = 1 ∧
    (∀ k : Fin 8, (other84.blockOf .bc1).toList[k]? = written84.cb.read (1 * 8 + k)) ∧
    ∃ d p t, exec (.dec .bc1) other84 = .next d ∧ exec .putblk d = .next p ∧ exec (.decimg .bc1) written84 = .next t :=
  ⟨rfl, rfl, rfl, by decide, by decide, by decide, by decide, _, _, _, completes _ (by simp), exec_after (by decide +kernel),
    exec_after (by decide +kernel)⟩

/-- The two tiles of an 8×4 frame. -/
theorem witness_BlockCommandsAgreeWithEncimg_tiles :
    4 * 0 + 3 < frame84.frame.w ∧ 4 * 0 + 3 < frame84.frame.h ∧ 4 * 1 + 3 < frame84.frame.w ∧ ((0 : Nat) ≠ 1 ∨ (0 : Nat) ≠ 0) ∧
      0 < Mode.blockSize .bc1 ∧ 15 < Mode.blockSize .bc3 := by decide

theorem witness_RegisterCommandsKeepTheRest : ∃ t, exec (.ordc .bc3) t1 = .next t := ⟨_, completes _ (by simp)⟩

/-- A frame command that succeeds and one that fails. -/
theorem witness_FrameCommandsKeepTheRest :
    (after .getblk frame44).status.err = 0 ∧ (after (.decimg .bc1) frame44).status.err = 0 ∧
      (after .getblk State.reset).status.err = 1 ∧ exec .getblk State.reset = .next (after .getblk State.reset) :=
  ⟨by decide +kernel, by decide +kernel, by decide, exec_after (by decide)⟩

theorem witness_UnitsDoNotInterfere :
    ∃ sys1 sys2, System.stepUnit ⟨[pending (.write 0 1) frame44, pending (.write 8 5) State.reset]⟩ 0 = .next sys1 ∧
      ∃ h : 1 < sys1.units.length, sys1.stepUnit ⟨1, h⟩ = .next sys2 :=
  ⟨_, _, rfl, by decide, rfl⟩

end Sys2Proof.Tests
end

section
/-! PROOFS. The reset events (10_state.md R52): both are one operation on the registers, and differ only in the
buffers they start from. -/

namespace Sys2Proof.Machine

open Sys2Proof

/-- No byte of an empty buffer is specified (20_memory.md R81). -/
@[simp] theorem Memory.read_nil (a : Nat) : Memory.read [] a = none := rfl

theorem step_eq_access {s : State} {a : HostAccess} {rest : List HostAccess} (h : s.host = a :: rest) :
    step s = access a s.dropAccess := by
  simp only [step, h]

/-- Power-on reset is the platform reset of the unit with empty buffers. -/
theorem State.powerOn_eq_platformReset (s : State) : s.powerOn = { s with pb := [], cb := [] }.platformReset := rfl

/-- A reset event runs the platform reset, from the unit's own buffers or from empty ones. -/
theorem step_of_resetEvent {s : State} {rest : List HostAccess} {ev : HostAccess}
    (hev : ev = .platformReset ∨ ev = .powerOn) (hhost : s.host = ev :: rest) :
    ∃ pb cb : Memory, step s = .next { s.dropAccess with pb := pb, cb := cb }.platformReset ∧
      (ev = .platformReset → pb = s.pb ∧ cb = s.cb) ∧ (ev = .powerOn → pb = [] ∧ cb = []) := by
  rw [step_eq_access hhost]
  rcases hev with rfl | rfl
  · exact ⟨s.pb, s.cb, rfl, fun _ => ⟨rfl, rfl⟩, nofun⟩
  · exact ⟨[], [], congrArg Host.Outcome.next s.dropAccess.powerOn_eq_platformReset, nofun, fun _ => ⟨rfl, rfl⟩⟩

/-! ### The registers after a reset -/

theorem State.read_platformReset (s : State) (r : Reg) : s.platformReset.read r = State.reset.read r := by
  cases r <;> rfl

theorem State.specified_platformReset (s : State) (r : Reg) :
    s.platformReset.specified r = State.reset.specified r := by
  cases r <;> rfl

/-- The control and configuration registers read 0 after a reset. -/
theorem State.read_reset_of_control :
    ∀ r ∈ [Reg.cmd, .status, .imgW, .imgH, .bX, .bY, .bufcfg, .pbLen, .cbLen], State.reset.read r = 0 := by
  decide

theorem State.specified_reset_pix (i : Fin 16) : State.reset.specified (.pix i) = false :=
  congrArg DataReg.specified (Tile.get_fill DataReg.afterReset i)

theorem State.specified_reset_pal (k : Fin 4) : State.reset.specified (.pal k) = false :=
  congrArg DataReg.specified (Quad.get_fill DataReg.afterReset k)

theorem State.specified_reset_blk (j : Fin 4) : State.reset.specified (.blk j) = false :=
  congrArg DataReg.specified (Quad.get_fill DataReg.afterReset j)

/-- A register without a value after power-on has none after any reset, in the spec's own view (R53). -/
theorem State.option_platformReset (s : State) {r : Reg} (h : State.reset.specified r = false) :
    s.platformReset.option r = none := by
  simp [State.option, State.specified_platformReset, h]

/-- Settles O1: either event is the platform reset of some buffers, whose registers are those of `State.reset`. -/
theorem resetLeavesTheStatedValues : Obligations.ResetLeavesTheStatedValues := by
  intro s rest ev hev hhost
  obtain ⟨pb, cb, hstep, hkept, hempty⟩ := step_of_resetEvent hev hhost
  refine ⟨_, hstep, fun r hr => ?_, rfl, State.option_platformReset _ rfl, State.option_platformReset _ rfl,
    fun i => State.option_platformReset _ (State.specified_reset_pix i),
    fun k => State.option_platformReset _ (State.specified_reset_pal k),
    fun j => State.option_platformReset _ (State.specified_reset_blk j), hkept, fun hon a => ?_⟩
  · rw [State.read_platformReset]
    exact State.read_reset_of_control r hr
  · obtain ⟨rfl, rfl⟩ := hempty hon
    exact ⟨Memory.read_nil a, Memory.read_nil a⟩

end Sys2Proof.Machine
end

section
/-! PROOFS. The command words (30_encoding.md R118 to R121): a word is determined by its four fields, the opcode map
has a row exactly for the legal fields, and so the decoder accepts exactly the words `encode` makes. -/

namespace Sys2Proof

/-! ### The fields of a word -/

/-- The four fields cover all 32 bits (30_encoding.md R118). -/
theorem wordFields_injective : Function.Injective wordFields := by
  intro v w h
  obtain ⟨hop, hm, hq, hrsv⟩ := CmdFields.mk.inj h
  apply BitVec.eq_of_getLsbD_eq
  intro i hi
  by_cases h4 : i < 4
  · simpa [h4] using congrArg (·.getLsbD i) hop
  by_cases h6 : i < 6
  · obtain rfl | rfl : i = 4 ∨ i = 5 := by omega
    · exact hm
    · exact hq
  · have hin : i - 6 < 26 := by omega
    have hat : 6 + (i - 6) = i := by omega
    simpa [hin, hat] using congrArg (·.getLsbD (i - 6)) hrsv

/-! ### The legal fields -/

theorem CmdFields.opDefined_iff (f : CmdFields) : f.opDefined = true ↔ ¬ (f.op = 0x0 ∨ f.op = 0xF) := by
  simp [CmdFields.opDefined]

theorem CmdFields.mAccepted_iff (f : CmdFields) :
    f.mAccepted = true ↔ ¬ (f.m = true ∧ f.op ∉ [0x2, 0x3, 0x4, 0x5, 0xE]) := by
  rw [CmdFields.mAccepted, Bool.or_eq_true, Bool.not_eq_true', List.contains_iff_mem, not_and, not_not,
    ← Bool.not_eq_true, imp_iff_not_or]

theorem CmdFields.qAccepted_iff (f : CmdFields) :
    f.qAccepted = true ↔ ¬ (f.q = true ∧ f.op ∉ [0x2, 0x4, 0xA]) := by
  rw [CmdFields.qAccepted, Bool.or_eq_true, Bool.not_eq_true', List.contains_iff_mem, not_and, not_not,
    ← Bool.not_eq_true, imp_iff_not_or]

/-- Fields with a defined opcode are illegal exactly by the rows of 30_encoding.md R120 that name RSV, M and Q. -/
theorem CmdFields.wf_iff (f : CmdFields) :
    f.wf = true ↔ f.opDefined = true ∧
      ¬ (f.rsv ≠ 0 ∨ (f.m = true ∧ f.op ∉ [0x2, 0x3, 0x4, 0x5, 0xE]) ∨ (f.q = true ∧ f.op ∉ [0x2, 0x4, 0xA])) := by
  rw [not_or, not_or, ← f.mAccepted_iff, ← f.qAccepted_iff, not_not, CmdFields.wf, CmdFields.rsvZero]
  simp only [Bool.and_eq_true, beq_iff_eq, and_assoc]

/-! ### The opcode map -/

/-- Every row of the map holds the command with the row's fields (30_encoding.md R119). -/
theorem fields_of_rowOfMap :
    ∀ (op : BitVec 4) (m q : Bool), ∀ i ∈ rowOfMap op.toNat m q, i.fields = ⟨op, m, q, 0⟩ := by
  decide

/-- The map has a row exactly for the legal fields (30_encoding.md R119, R120). -/
theorem rowOfMap_isSome :
    ∀ (op : BitVec 4) (m q : Bool), (rowOfMap op.toNat m q).isSome = CmdFields.wf ⟨op, m, q, 0⟩ := by
  decide

/-! ### The decoder -/

/-- What the decoder answers: the error of an undefined opcode, then that of an illegal field, then the command whose
fields are the word's (30_encoding.md R119, R120). -/
theorem decode_cases (w : Word) :
    ((wordFields w).opDefined = false ∧ decode w = .error .reservedOpcode) ∨
    ((wordFields w).opDefined = true ∧ (wordFields w).wf = false ∧ decode w = .error .reservedField) ∨
    (∃ i : Instr, (wordFields w).wf = true ∧ i.fields = wordFields w ∧ decode w = .ok i) := by
  rw [decode]
  generalize wordFields w = f
  obtain ⟨op, m, q, rsv⟩ := f
  have hdef : CmdFields.opDefined ⟨op, m, q, rsv⟩ = true ↔ ¬ (op.toNat = 0x0 ∨ op.toNat = 0xF) := by
    simp [CmdFields.opDefined_iff, ← BitVec.toNat_inj]
  by_cases hop : op.toNat = 0x0 ∨ op.toNat = 0xF
  · exact .inl ⟨Bool.eq_false_iff.mpr fun h => hdef.mp h hop, if_pos hop⟩
  by_cases hrsv : rsv.toNat = 0
  · obtain rfl : rsv = 0 := BitVec.eq_of_toNat_eq hrsv
    have hsome := rowOfMap_isSome op m q
    cases hrow : rowOfMap op.toNat m q with
    | none => exact .inr (.inl ⟨hdef.mpr hop, by simpa [hrow] using hsome.symm, by simp [hop]⟩)
    | some i => exact .inr (.inr ⟨i, by simpa [hrow] using hsome.symm, fields_of_rowOfMap op m q i hrow, by simp [hop]⟩)
  · have hwf : CmdFields.wf ⟨op, m, q, rsv⟩ ≠ true := fun h =>
      ((CmdFields.wf_iff _).mp h).2 (.inl fun h0 => hrsv (congrArg BitVec.toNat h0))
    exact .inr (.inl ⟨hdef.mpr hop, Bool.eq_false_iff.mpr hwf, by simp [hop, hrsv]⟩)

theorem fields_of_decode {w : Word} {i : Instr} (h : decode w = .ok i) : i.fields = wordFields w := by
  rcases decode_cases w with ⟨-, hw⟩ | ⟨-, -, hw⟩ | ⟨j, -, hj, hw⟩ <;> rw [hw] at h <;> cases h
  exact hj

theorem decode_encode (i : Instr) : decode (encode i) = .ok i := by
  cases i with
  | enc m q | encimg m q => cases m <;> cases q <;> rfl
  | dec m | decimg m | ordc m => cases m <;> rfl
  | matchc q => cases q <;> rfl
  | _ => rfl

/-- A word decodes to a command exactly when it is the command's word: both have the command's fields. -/
theorem decode_eq_ok_iff {w : Word} {i : Instr} : decode w = .ok i ↔ w = encode i := by
  refine ⟨fun h => wordFields_injective ?_, fun h => h ▸ decode_encode i⟩
  rw [← fields_of_decode h, fields_of_decode (decode_encode i)]

/-! ### The legal words -/

theorem Mode.exists_iff {p : Mode → Prop} : (∃ m, p m) ↔ p .bc1 ∨ p .bc3 :=
  ⟨fun ⟨m, h⟩ => by cases m <;> simp [h], fun h => h.elim (⟨_, ·⟩) (⟨_, ·⟩)⟩

theorem Quality.exists_iff {p : Quality → Prop} : (∃ q, p q) ↔ p .fast ∨ p .dithered :=
  ⟨fun ⟨q, h⟩ => by cases q <;> simp [h], fun h => h.elim (⟨_, ·⟩) (⟨_, ·⟩)⟩

/-- The words of a command that takes a mode only: the opcode, and the opcode with M (30_encoding.md R121). -/
theorem exists_mode_decode_iff {w : Word} {f : Mode → Instr} :
    (∃ m, decode w = .ok (f m)) ↔ w = encode (f .bc1) ∨ w = encode (f .bc3) := by
  simp only [decode_eq_ok_iff, Mode.exists_iff]

theorem exists_quality_decode_iff {w : Word} {f : Quality → Instr} :
    (∃ q, decode w = .ok (f q)) ↔ w = encode (f .fast) ∨ w = encode (f .dithered) := by
  simp only [decode_eq_ok_iff, Quality.exists_iff]

/-- The words of a command that takes a mode and a quality: the opcode, with M, with Q and with both. -/
theorem exists_mode_quality_decode_iff {w : Word} {f : Mode → Quality → Instr} :
    (∃ m q, decode w = .ok (f m q)) ↔ w = encode (f .bc1 .fast) ∨ w = encode (f .bc3 .fast) ∨
      w = encode (f .bc1 .dithered) ∨ w = encode (f .bc3 .dithered) := by
  rw [exists_comm]
  simp only [decode_eq_ok_iff, Mode.exists_iff, Quality.exists_iff, or_assoc]

/-- Settles O10: a word decodes to a command exactly when it is the command's word, and each command with a mode or a
quality has one word for each. -/
theorem legalCommandWords : Obligations.LegalCommandWords := fun _ =>
  ⟨decode_eq_ok_iff, decode_eq_ok_iff, decode_eq_ok_iff, decode_eq_ok_iff, decode_eq_ok_iff, decode_eq_ok_iff,
    decode_eq_ok_iff, decode_eq_ok_iff, exists_mode_decode_iff, exists_mode_decode_iff, exists_mode_decode_iff,
    exists_mode_quality_decode_iff, exists_mode_quality_decode_iff, exists_quality_decode_iff⟩

end Sys2Proof

namespace Sys2Proof.Machine

open Sys2Proof

/-! ### The step of a `CMD` write -/

/-- A step that takes a `CMD` write stores the word and runs it (10_state.md R34). -/
theorem step_of_cmdWrite {s : State} {w : Word} {rest : List HostAccess} (h : s.host = .write 0 w :: rest) :
    step s = runCommand w { s with host := rest } := by
  rw [step_eq_access h, State.dropAccess, h]
  rfl

theorem runCommand_of_error {w : Word} {d : DecodeError} (h : decode w = .error d) (s : State) :
    runCommand w s = .next (State.raise { s with cmd := w } (decodeErrorOf d)) := by
  rw [runCommand, h]
  rfl

theorem runCommand_of_ok {w : Word} {i : Instr} (h : decode w = .ok i) (s : State) :
    runCommand w s = exec i { s with cmd := w } := by
  rw [runCommand, h]
  rfl

/-- Settles O11: the rows of 30_encoding.md R120 are the cases of the decoder, and the step answers by what the word
decodes to. -/
theorem reservedWordsFail : Obligations.ReservedWordsFail := by
  intro s w rest hhost op m q rsv s0 badField
  rw [step_of_cmdWrite hhost]
  have hdef : (wordFields w).opDefined = true ↔ ¬ (op = 0x0 ∨ op = 0xF) := (wordFields w).opDefined_iff
  have hwf : (wordFields w).wf = true ↔ (wordFields w).opDefined = true ∧ ¬ badField := (wordFields w).wf_iff
  rcases decode_cases w with ⟨hd, hw⟩ | ⟨hd, hf, hw⟩ | ⟨i, hf, -, hw⟩
  · have hop : op = 0x0 ∨ op = 0xF := not_not.mp (mt hdef.mpr (Bool.eq_false_iff.mp hd))
    exact ⟨fun _ => runCommand_of_error hw _, fun h => absurd hop h, fun h => absurd hop h⟩
  · have hop := hdef.mp hd
    have hbad : badField := by simpa [hd, hf] using hwf
    exact ⟨fun h => absurd h hop, fun _ _ => runCommand_of_error hw _, fun _ h => absurd hbad h⟩
  · obtain ⟨hd, hok⟩ := hwf.mp hf
    exact ⟨fun h => absurd h (hdef.mp hd), fun _ h => absurd h hok, fun _ _ => ⟨i, hw, runCommand_of_ok hw _⟩⟩

end Sys2Proof.Machine
end

section
/-! PROOFS. The fixed-point multiply and the tables (40_tables.md R160 to R162, R169): what `mulShift8` computes for a
product it meets, bit replication as a sum, and the properties of the literal OMatch tables. -/

namespace Sys2Proof.Machine

open Sys2Proof

/-! ### The fixed-point multiply -/

/-- `mulShift8` shifts by an integer literal; the library states its shift lemmas for natural amounts. -/
theorem shiftRight_intEight (m : Int) : m >>> (8 : Int) = m >>> (8 : Nat) :=
  Int.shiftRight_natCast_right m 8

theorem mulShift8_eq (a b : Int) : mulShift8 a b = ((a * b + 128) + (a * b + 128) / 256) / 256 := by
  simp only [mulShift8, shiftRight_intEight, Int.shiftRight_eq_div_pow]
  rfl

/-- The formula rounds a product to the nearest 255th, halves up (40_tables.md R160). Below 0 it does so except
just under a half, where `a * b + 128` is a multiple of 255. -/
theorem mulShift8_rounds {a b : Int} (hlo : -65025 ≤ a * b) (hhi : a * b ≤ 65025)
    (hhalf : 0 ≤ a * b ∨ (a * b + 128) % 255 ≠ 0) : mulShift8 a b = (2 * a * b + 255) / 510 := by
  rw [mulShift8_eq, mul_assoc]
  generalize a * b = m at *
  omega

/-- Settles O20: both domains keep the product in range, and a multiple of 85 is never just under a half. -/
theorem mulShift8Rounds : Obligations.MulShift8Rounds := by
  refine ⟨mulShift8_eq, fun a b ha ha' hb hb' => ?_, fun a ha ha' => ?_⟩
  · have hlo : 0 ≤ a * b := mul_nonneg ha hb
    have hhi : a * b ≤ 255 * 255 := mul_le_mul ha' hb' hb (by decide)
    exact ⟨mulShift8_rounds (by omega) (by omega) (.inl hlo), abs_le.mpr (by omega)⟩
  · exact ⟨mulShift8_rounds (by omega) (by omega) (.inr (by omega)), abs_le.mpr (by omega)⟩

/-! ### The expansion tables -/

/-- Bit replication puts the high bits of an index below the shifted index, so the OR is a sum (40_tables.md R161,
R162). -/
theorem toNat_bitReplication {w k j : Nat} (i : BitVec w) (hwidth : w + k = 8) (hlow : i.toNat / 2 ^ j < 2 ^ k) :
    ((i.zeroExtend 8 <<< k) ||| (i.zeroExtend 8 >>> j)).toNat = i.toNat * 2 ^ k + i.toNat / 2 ^ j := by
  have hindex : i.toNat < 2 ^ 8 := i.isLt.trans_le (Nat.pow_le_pow_right (by decide) (by omega))
  have hshift : i.toNat * 2 ^ k < 2 ^ 8 := by
    rw [← hwidth, pow_add]
    exact Nat.mul_lt_mul_of_pos_right i.isLt (Nat.two_pow_pos k)
  rw [BitVec.toNat_or, BitVec.toNat_shiftLeft, BitVec.toNat_ushiftRight, BitVec.zeroExtend, BitVec.toNat_setWidth,
    Nat.mod_eq_of_lt hindex, Nat.shiftRight_eq_div_pow, Nat.mod_eq_of_lt (by rwa [Nat.shiftLeft_eq]),
    ← Nat.shiftLeft_add_eq_or_of_lt hlow, Nat.shiftLeft_eq]

theorem toNat_expand5 (i : BitVec 5) : (expand5 i).toNat = i.toNat * 8 + i.toNat / 4 :=
  toNat_bitReplication (k := 3) (j := 2) i rfl (by omega)

theorem toNat_expand6 (i : BitVec 6) : (expand6 i).toNat = i.toNat * 4 + i.toNat / 16 :=
  toNat_bitReplication (k := 2) (j := 4) i rfl (by omega)

theorem expand5_strictMono {i j : BitVec 5} (h : i.toNat < j.toNat) : (expand5 i).toNat < (expand5 j).toNat := by
  rw [toNat_expand5, toNat_expand5]
  omega

theorem expand6_strictMono {i j : BitVec 6} (h : i.toNat < j.toNat) : (expand6 i).toNat < (expand6 j).toNat := by
  rw [toNat_expand6, toNat_expand6]
  omega

/-- Settles O21: each table is a sum that increases with its index. -/
theorem expansionTables : Obligations.ExpansionTables :=
  ⟨toNat_expand5, rfl, rfl, fun _ _ => expand5_strictMono, toNat_expand6, rfl, rfl, fun _ _ => expand6_strictMono⟩

/-! ### The optimal-match tables -/

/-- How far the 1/3 blend of the pair `OMatch5[v]` is from `v` (40_tables.md R169). -/
def omatch5Residual (v : Byte) : Int :=
  |chan (lerp13 .mulShift8 (expand5 (omatch5 v).1) (expand5 (omatch5 v).2)) - chan v|

/-- How far the 1/3 blend of the pair `OMatch6[v]` is from `v` (40_tables.md R169). -/
def omatch6Residual (v : Byte) : Int :=
  |chan (lerp13 .mulShift8 (expand6 (omatch6 v).1) (expand6 (omatch6 v).2)) - chan v|

theorem omatch5Residual_eq_zero_or_one : ∀ v : Byte, omatch5Residual v = 0 ∨ omatch5Residual v = 1 := by
  decide +kernel

theorem omatch6Residual_eq_zero_or_one : ∀ v : Byte, omatch6Residual v = 0 ∨ omatch6Residual v = 1 := by
  decide +kernel

/-- A function whose values are 0 and 1 takes the value 1 wherever it does not take 0. -/
theorem length_filter_eq_one {f : Byte → Int} (hf : ∀ v, f v = 0 ∨ f v = 1) (l : List Byte) :
    (l.filter fun v => f v = 1).length = l.length - (l.filter fun v => f v = 0).length := by
  have hnot : (fun v => decide (f v = 1)) = fun v => !decide (f v = 0) := by
    funext v
    rcases hf v with h | h <;> simp [h]
  rw [hnot, List.length_eq_length_filter_add (l := l) fun v => decide (f v = 0), Nat.add_sub_cancel_left]

/-- Every target `v` of the tables, in order. -/
def allBytes : List Byte := (List.range 256).map (BitVec.ofNat 8)

theorem length_allBytes : allBytes.length = 256 :=
  (List.length_map ..).trans List.length_range

theorem length_filter_omatch5Residual_zero : (allBytes.filter fun v => omatch5Residual v = 0).length = 136 := by
  decide +kernel

theorem length_filter_omatch6Residual_zero : (allBytes.filter fun v => omatch6Residual v = 0).length = 246 := by
  decide +kernel

theorem length_filter_omatch5Residual_one : (allBytes.filter fun v => omatch5Residual v = 1).length = 120 := by
  rw [length_filter_eq_one omatch5Residual_eq_zero_or_one, length_filter_omatch5Residual_zero, length_allBytes]

theorem length_filter_omatch6Residual_one : (allBytes.filter fun v => omatch6Residual v = 1).length = 10 := by
  rw [length_filter_eq_one omatch6Residual_eq_zero_or_one, length_filter_omatch6Residual_zero, length_allBytes]

theorem omatch5_lt_targets :
    (allBytes.filter fun v => (omatch5 v).1.toNat < (omatch5 v).2.toNat) = [2, 3, 14, 32, 36, 234] := by
  decide +kernel

theorem omatch6_lt_targets :
    (allBytes.filter fun v => (omatch6 v).1.toNat < (omatch6 v).2.toNat) = [1, 22, 26, 30, 34, 38, 42, 64] := by
  decide +kernel

theorem omatch5_eq_targets :
    (allBytes.filter fun v => (omatch5 v).1 = (omatch5 v).2) = [0, 1, 7, 8, 9, 24, 254, 255] := by
  decide +kernel

theorem omatch6_eq_targets : (allBytes.filter fun v => (omatch6 v).1 = (omatch6 v).2) = [0, 4, 60, 255] := by
  decide +kernel

/-- Settles O24: the tables hold finitely many entries; each property is read off them, and the entries of residual 1
are those that do not have residual 0. -/
theorem oMatchTableProperties : Obligations.OMatchTableProperties :=
  ⟨fun v => ⟨omatch5Residual_eq_zero_or_one v, omatch6Residual_eq_zero_or_one v⟩,
    length_filter_omatch5Residual_zero, length_filter_omatch5Residual_one,
    length_filter_omatch6Residual_zero, length_filter_omatch6Residual_one,
    omatch5_lt_targets, omatch6_lt_targets, omatch5_eq_targets, omatch6_eq_targets⟩

end Sys2Proof.Machine
end

section
/-! PROOFS. The terms of the normal equations (43_refine.md R240 to R242): each is a sum over the sixteen pixels, so the
packed accumulator holds them side by side, and the determinant is a sum of squares of differences of weights. -/

namespace Sys2Proof.Machine

open Sys2Proof

/-! ### Sums over a tile -/

theorem tileSum_eq_sum (t : Tile Int) : tileSum t = ∑ i : Fin 16, t.get i := by
  simp only [Fin.sum_univ_succ, Fin.sum_univ_zero, add_zero, ← add_assoc]
  simp only [tileSum, Tile.fold, Quad.fold, ← add_assoc]
  rfl

/-- The sum of sixteen numbers from 0 to `hi`. -/
theorem sum_fin16_bounds {f : Fin 16 → Int} {hi : Int} (h : ∀ i, 0 ≤ f i ∧ f i ≤ hi) :
    0 ≤ ∑ i, f i ∧ ∑ i, f i ≤ 16 * hi := by
  refine ⟨Finset.sum_nonneg fun i _ => (h i).1, ?_⟩
  simpa using Finset.sum_le_card_nsmul Finset.univ f hi fun i _ => (h i).2

/-- Lagrange's identity: what the Cauchy–Schwarz inequality leaves over is a sum of squares. -/
theorem two_mul_cauchySchwarz_gap {n : Nat} (a b : Fin n → Int) :
    2 * ((∑ i, a i * a i) * (∑ i, b i * b i) - (∑ i, a i * b i) * (∑ i, a i * b i)) =
      ∑ i, ∑ j, (a i * b j - a j * b i) ^ 2 := by
  have expand (i j : Fin n) : (a i * b j - a j * b i) ^ 2 =
      a i * a i * (b j * b j) + b i * b i * (a j * a j) - 2 * (a i * b i * (a j * b j)) := by ring
  simp only [expand, Finset.sum_sub_distrib, Finset.sum_add_distrib, ← Finset.mul_sum, ← Finset.sum_mul]
  ring

/-! ### The three terms as sums over the pixels -/

theorem covariance_eq_sum (d e : Tile Int) : covariance d e = ∑ i : Fin 16, d.get i * e.get i := by
  simp [covariance, tileSum_eq_sum]

@[simp] theorem get_unpackMask (mask : Word) (i : Fin 16) : (unpackMask mask).get i = maskIndex mask i := by
  simp [unpackMask]

@[simp] theorem get_weights1 (mask : Word) (i : Fin 16) : (weights1 mask).get i = weight1 (maskIndex mask i) := by
  simp [weights1]

/-- `w2_i = 3 - w1_i` of a pixel with index `k` (43_refine.md R240). -/
def weight2 (k : BitVec 2) : Int := 3 - weight1 k

@[simp] theorem get_weights2 (mask : Word) (i : Fin 16) : (weights2 mask).get i = weight2 (maskIndex mask i) := by
  simp [weights2, weight2]

theorem xx_eq_sum (mask : Word) :
    (normalTerms mask).xx = ∑ i, weight1 (maskIndex mask i) * weight1 (maskIndex mask i) := by
  simp [normalTerms, covariance_eq_sum]

theorem yy_eq_sum (mask : Word) :
    (normalTerms mask).yy = ∑ i, weight2 (maskIndex mask i) * weight2 (maskIndex mask i) := by
  simp [normalTerms, covariance_eq_sum]

theorem xy_eq_sum (mask : Word) :
    (normalTerms mask).xy = ∑ i, weight1 (maskIndex mask i) * weight2 (maskIndex mask i) := by
  simp [normalTerms, covariance_eq_sum]

/-! ### Ranges (43_refine.md R241) -/

theorem xx_bounds (mask : Word) : 0 ≤ (normalTerms mask).xx ∧ (normalTerms mask).xx ≤ 144 := by
  have term : ∀ k, 0 ≤ weight1 k * weight1 k ∧ weight1 k * weight1 k ≤ 9 := by decide
  rw [xx_eq_sum]
  exact sum_fin16_bounds fun i => term (maskIndex mask i)

theorem yy_bounds (mask : Word) : 0 ≤ (normalTerms mask).yy ∧ (normalTerms mask).yy ≤ 144 := by
  have term : ∀ k, 0 ≤ weight2 k * weight2 k ∧ weight2 k * weight2 k ≤ 9 := by decide
  rw [yy_eq_sum]
  exact sum_fin16_bounds fun i => term (maskIndex mask i)

theorem xy_bounds (mask : Word) : 0 ≤ (normalTerms mask).xy ∧ (normalTerms mask).xy ≤ 32 := by
  have term : ∀ k, 0 ≤ weight1 k * weight2 k ∧ weight1 k * weight2 k ≤ 2 := by decide
  rw [xy_eq_sum]
  exact sum_fin16_bounds fun i => term (maskIndex mask i)

/-! ### The packed accumulator (43_refine.md R241) -/

/-- `P[k]`, what a pixel with index `k` adds to the accumulator (43_refine.md R241). -/
def packedTerm (k : BitVec 2) : Int :=
  match k.toNat with
  | 0 => 0x090000
  | 1 => 0x000900
  | 2 => 0x040102
  | _ => 0x010402

/-- A pixel adds its three products, each in its own field. -/
theorem packedTerm_eq (k : BitVec 2) :
    packedTerm k = 65536 * (weight1 k * weight1 k) + 256 * (weight2 k * weight2 k) + weight1 k * weight2 k := by
  revert k
  decide

theorem accumulator_eq (mask : Word) :
    tileSum ((unpackMask mask).map packedTerm) =
      65536 * (normalTerms mask).xx + 256 * (normalTerms mask).yy + (normalTerms mask).xy := by
  simp only [tileSum_eq_sum, Tile.get_map, get_unpackMask, packedTerm_eq, Finset.sum_add_distrib, ← Finset.mul_sum,
    xx_eq_sum, yy_eq_sum, xy_eq_sum]

/-- Settles O38: the accumulator is the sum of the three terms, each times the weight of its field, and each term is in
the range of its field. -/
theorem accumulatorHoldsTheNormalTerms : Obligations.AccumulatorHoldsTheNormalTerms := by
  intro mask n akku
  have hakku : akku = 65536 * n.xx + 256 * n.yy + n.xy := accumulator_eq mask
  obtain ⟨hxx, hxx'⟩ : 0 ≤ n.xx ∧ n.xx ≤ 144 := xx_bounds mask
  obtain ⟨hyy, hyy'⟩ : 0 ≤ n.yy ∧ n.yy ≤ 144 := yy_bounds mask
  obtain ⟨hxy, hxy'⟩ : 0 ≤ n.xy ∧ n.xy ≤ 32 := xy_bounds mask
  exact ⟨rfl, rfl, rfl, by omega, by omega, by omega, hxx, hxx', hyy, hyy', hxy, hxy'⟩

/-! ### The determinant (43_refine.md R242) -/

theorem weight1_injective : Function.Injective weight1 := by
  unfold Function.Injective
  decide

/-- With `w2 = 3 - w1`, a 2×2 minor of the weights of two pixels is three times the difference of their `w1`. -/
theorem weight_minor (k l : BitVec 2) :
    weight1 k * weight2 l - weight1 l * weight2 k = 3 * (weight1 k - weight1 l) := by
  unfold weight2
  ring

theorem two_mul_det (mask : Word) :
    2 * (normalTerms mask).det =
      ∑ i, ∑ j, (3 * (weight1 (maskIndex mask i) - weight1 (maskIndex mask j))) ^ 2 := by
  simp only [NormalTerms.det, xx_eq_sum, yy_eq_sum, xy_eq_sum, two_mul_cauchySchwarz_gap, weight_minor]

theorem det_nonneg (mask : Word) : 0 ≤ (normalTerms mask).det := by
  have h : 0 ≤ 2 * (normalTerms mask).det := by
    rw [two_mul_det]
    positivity
  omega

theorem det_le (mask : Word) : (normalTerms mask).det ≤ 20736 := by
  obtain ⟨-, hxx⟩ := xx_bounds mask
  obtain ⟨hyy, hyy'⟩ := yy_bounds mask
  calc (normalTerms mask).det
      ≤ (normalTerms mask).xx * (normalTerms mask).yy := sub_le_self _ (mul_self_nonneg _)
    _ ≤ 144 * 144 := mul_le_mul hxx hyy' hyy (by decide)

/-- A sum of squares is 0 exactly when each square is: no two pixels have different weights. -/
theorem det_eq_zero_iff (mask : Word) :
    (normalTerms mask).det = 0 ↔ ∀ i : Fin 16, maskIndex mask i = maskIndex mask 0 := by
  have pairs : (normalTerms mask).det = 0 ↔ ∀ i j, maskIndex mask i = maskIndex mask j := by
    rw [← mul_eq_zero_iff_left (two_ne_zero (α := Int)), two_mul_det]
    simp only [Finset.sum_eq_zero_iff_of_nonneg, Finset.sum_nonneg, sq_nonneg, implies_true, Finset.mem_univ,
      forall_const, sq_eq_zero_iff, mul_eq_zero, OfNat.ofNat_ne_zero, false_or, sub_eq_zero, weight1_injective.eq_iff]
  rw [pairs]
  exact ⟨fun h i => h i 0, fun h i j => (h i).trans (h j).symm⟩

/-! ### The skip condition (43_refine.md R242) -/

theorem degenerate_iff (n : NormalTerms) : n.degenerate = true ↔ n.xx = 0 ∨ n.yy = 0 ∨ n.det = 0 := by
  simp [NormalTerms.degenerate, or_assoc]

theorem refine_of_degenerate {mask : Word} (h : (normalTerms mask).degenerate = true) (form : Numerics)
    (blk : Tile RGB) (mx mn : Half) : refine form blk mx mn mask = ⟨mx, mn, false, true⟩ :=
  if_pos h

/-- Where a diagonal term is 0 the determinant is minus a square, so it is 0 too. -/
theorem degenerate_iff_det_eq_zero (mask : Word) :
    (normalTerms mask).degenerate = true ↔ (normalTerms mask).det = 0 := by
  have diagonal (h : (normalTerms mask).xx * (normalTerms mask).yy = 0) : (normalTerms mask).det = 0 := by
    refine le_antisymm ?_ (det_nonneg mask)
    rw [NormalTerms.det, h, zero_sub]
    exact neg_nonpos.mpr (mul_self_nonneg _)
  rw [degenerate_iff, ← or_assoc, ← mul_eq_zero]
  exact or_iff_right_of_imp diagonal

/-- Settles O39: skipping is a zero determinant, and the determinant is a sum of squares of weight differences. -/
theorem refinementSkippedIffOneIndex : Obligations.RefinementSkippedIffOneIndex := fun mask =>
  ⟨degenerate_iff _, refine_of_degenerate, det_nonneg mask, det_le mask,
    (degenerate_iff_det_eq_zero mask).trans (det_eq_zero_iff mask), det_eq_zero_iff mask⟩

end Sys2Proof.Machine
end

section
/-! PROOFS. The alpha ramp (44_alpha.md R266): the two weights of a blended level add up to the divisor, so the blend is
a byte, and each branch of the ramp gives the level the rule writes. -/

namespace Sys2Proof.Machine

open Sys2Proof

@[simp] theorem get_decodeAlpha (order : BitOrder) (sb : SubBlock) (i : Fin 16) :
    (decodeAlpha order sb).get i = alphaRamp sb.lo.q0 sb.lo.q1 (sb.alphaIndex order i) := by
  simp [decodeAlpha]

/-- A weighted average of two bytes is a byte, so storing it loses nothing. -/
theorem toNat_ofNat_weightedAverage (a b : Byte) {p q k : Nat} (hsum : p + q = k) :
    (BitVec.ofNat 8 ((p * a.toNat + q * b.toNat) / k)).toNat = (p * a.toNat + q * b.toNat) / k := by
  have ha : p * a.toNat ≤ p * 255 := Nat.mul_le_mul_left p (by omega)
  have hb : q * b.toNat ≤ q * 255 := Nat.mul_le_mul_left q (by omega)
  have hbyte : (p * a.toNat + q * b.toNat) / k ≤ 255 := Nat.div_le_of_le_mul (by omega)
  rw [BitVec.toNat_ofNat, Nat.mod_eq_of_lt (by omega)]

/-! ### The levels of the ramp -/

section

variable {a0 a1 : Byte} {i : BitVec 3}

theorem alphaRamp_of_zero (hi : i.toNat = 0) : alphaRamp a0 a1 i = a0 := by
  simp [alphaRamp, hi]

theorem alphaRamp_of_one (hi : i.toNat = 1) : alphaRamp a0 a1 i = a1 := by
  simp [alphaRamp, hi]

theorem toNat_alphaRamp_of_gt (hi : 2 ≤ i.toNat) (h : a0.toNat > a1.toNat) :
    (alphaRamp a0 a1 i).toNat = ((8 - i.toNat) * a0.toNat + (i.toNat - 1) * a1.toNat) / 7 := by
  rw [alphaRamp, if_neg (by omega), if_neg (by omega), if_pos h]
  exact toNat_ofNat_weightedAverage a0 a1 (by omega)

theorem toNat_alphaRamp_of_le (hi : 2 ≤ i.toNat) (hi' : i.toNat ≤ 5) (h : a0.toNat ≤ a1.toNat) :
    (alphaRamp a0 a1 i).toNat = ((6 - i.toNat) * a0.toNat + (i.toNat - 1) * a1.toNat) / 5 := by
  rw [alphaRamp, if_neg (by omega), if_neg (by omega), if_neg h.not_gt, if_neg (by omega), if_neg (by omega)]
  exact toNat_ofNat_weightedAverage a0 a1 (by omega)

theorem alphaRamp_of_six_of_le (hi : i.toNat = 6) (h : a0.toNat ≤ a1.toNat) : alphaRamp a0 a1 i = 0 := by
  simp [alphaRamp, hi, h.not_gt]

theorem alphaRamp_of_seven_of_le (hi : i.toNat = 7) (h : a0.toNat ≤ a1.toNat) : alphaRamp a0 a1 i = 255 := by
  simp [alphaRamp, hi, h.not_gt]

end

/-- Settles O42: each clause is one branch of the ramp. -/
theorem alphaRampLevels : Obligations.AlphaRampLevels :=
  ⟨get_decodeAlpha, fun _ _ _ =>
    ⟨fun hi => congrArg BitVec.toNat (alphaRamp_of_zero hi), fun hi => congrArg BitVec.toNat (alphaRamp_of_one hi),
      toNat_alphaRamp_of_gt, toNat_alphaRamp_of_le,
      fun hi h => congrArg BitVec.toNat (alphaRamp_of_six_of_le hi h),
      fun hi h => congrArg BitVec.toNat (alphaRamp_of_seven_of_le hi h)⟩⟩

end Sys2Proof.Machine
end

section
/-! PROOFS. Endpoint ordering (45_block_codec.md R280): the XOR of the mask exchanges index 0 with 1 and 2 with 3, which
is what exchanging the endpoints does to the palette, so every pixel keeps its colour. -/

namespace Sys2Proof.Machine

open Sys2Proof

theorem orderEndpoints_of_lt {mx mn : Half} (h : mx.toNat < mn.toNat) (mask : Word) :
    orderEndpoints mx mn mask = ⟨mn, mx, mask ^^^ 0x55555555, true⟩ := if_pos h

theorem orderEndpoints_of_le {mx mn : Half} (h : mn.toNat ≤ mx.toNat) (mask : Word) :
    orderEndpoints mx mn mask = ⟨mx, mn, mask, false⟩ := if_neg h.not_gt

/-- The constant of the swap has index 1 at every pixel. -/
theorem maskIndex_swapConstant (i : Fin 16) : maskIndex 0x55555555 i = 1 := by
  revert i
  decide

theorem maskIndex_xor_swapConstant (mask : Word) (i : Fin 16) :
    maskIndex (mask ^^^ 0x55555555) i = maskIndex mask i ^^^ 1 := by
  calc maskIndex (mask ^^^ 0x55555555) i
      = maskIndex mask i ^^^ maskIndex 0x55555555 i := BitVec.extractLsb'_xor
    _ = maskIndex mask i ^^^ 1 := by rw [maskIndex_swapConstant]

/-- Exchanging the endpoints exchanges colours 0 and 1, and the two blends, of the palette. -/
theorem evalColours_swap (form : LerpForm) (e0 e1 : Half) (k : BitVec 2) :
    (evalColours form e1 e0).get (k ^^^ 1).toFin = (evalColours form e0 e1).get k.toFin := by
  obtain ⟨k⟩ := k
  fin_cases k <;> rfl

/-- Settles O44: by the order of the packed endpoints. Where they swap, the exchanged indices read the exchanged
palette. -/
theorem orderingKeepsTheColours : Obligations.OrderingKeepsTheColours := by
  intro form mx mn mask
  rcases Nat.lt_or_ge mx.toNat mn.toNat with h | h
  · rw [orderEndpoints_of_lt h]
    refine ⟨h.le, iff_of_true rfl h, fun _ => ⟨rfl, rfl, rfl⟩, nofun, fun i => ?_⟩
    rw [maskIndex_xor_swapConstant, evalColours_swap]
  · rw [orderEndpoints_of_le h]
    exact ⟨h, iff_of_false nofun h.not_gt, nofun, fun _ => ⟨rfl, rfl, rfl⟩, fun _ => rfl⟩

end Sys2Proof.Machine
end

section
/-! PROOFS. How a command fails (60_exceptions.md R341 to R343): a rejected word and a frame command that fails its checks
raise their error and write nothing else; every other end of a command clears the error (10_state.md R36). -/

namespace Sys2Proof

/-! ### The first two checks: the fields of the word -/

theorem CmdFields.opDefined_eq_false_iff (f : CmdFields) :
    f.opDefined = false ↔ f.op.toNat = 0 ∨ f.op.toNat = 15 := by
  rw [← Bool.not_eq_true, f.opDefined_iff, not_not, ← BitVec.toNat_inj, ← BitVec.toNat_inj]
  rfl

/-- With a defined opcode, what 30_encoding.md R120 says of RSV, M and Q is what makes the fields illegal; here with the
opcode as a number. -/
theorem CmdFields.wf_eq_false_iff {f : CmdFields} (hop : f.opDefined = true) :
    f.wf = false ↔ f.rsv.toNat ≠ 0 ∨ (f.m = true ∧ f.op.toNat ∉ [2, 3, 4, 5, 14]) ∨
      (f.q = true ∧ f.op.toNat ∉ [2, 4, 10]) := by
  rw [← Bool.not_eq_true, f.wf_iff, and_iff_right hop, not_not]
  simp only [List.mem_cons, List.not_mem_nil, ne_eq, ← BitVec.toNat_inj]
  rfl

end Sys2Proof

namespace Sys2Proof.Machine

open Sys2Proof

/-! ### A command that fails its checks, and one that passes them -/

/-- A command that fails validation raises the error of its check, and its whole effect is on `STATUS` (60_exceptions.md
R341). -/
theorem exec_of_validation_some {i : Instr} {s : State} {e : CmdError} (h : validation i s = some e) :
    exec i s = .next (s.raise e) := by
  cases i <;> simp only [validation, reduceCtorEq] at h
  case encimg m q => simp only [exec, execEncimg, h]
  case decimg m => simp only [exec, execDecimg, h]
  case getblk => simp only [exec, execGetblk, h]
  case putblk => simp only [exec, execPutblk, h]

/-- A command that passes validation and completes ends with `State.succeed`. -/
theorem exec_of_validation_none {i : Instr} {s t : State} (hv : validation i s = none) (h : exec i s = .next t) :
    ∃ u : State, t = u.succeed := by
  cases i with
  | init => exact ⟨_, execInit_next h⟩
  | enc m q => exact ⟨_, execEnc_next h⟩
  | dec m => exact ⟨_, execDec_next h⟩
  | encimg m q =>
    obtain ⟨e, he, -⟩ | ⟨-, cb, -, ht⟩ := execEncimg_next h
    · cases he.symm.trans hv
    · exact ⟨_, ht⟩
  | decimg m =>
    obtain ⟨e, he, -⟩ | ⟨-, pb, -, ht⟩ := execDecimg_next h
    · cases he.symm.trans hv
    · exact ⟨_, ht⟩
  | getblk =>
    obtain ⟨e, he, -⟩ | ⟨-, p, -, ht⟩ := execGetblk_next h
    · cases he.symm.trans hv
    · exact ⟨_, ht⟩
  | putblk =>
    obtain ⟨e, he, -⟩ | ⟨-, ht⟩ := execPutblk_next h
    · cases he.symm.trans hv
    · exact ⟨_, ht⟩
  | estc => exact ⟨_, execEstc_next h⟩
  | palc => exact ⟨_, execPalc_next h⟩
  | matchc q => exact ⟨_, execMatchc_next h⟩
  | refc => obtain ⟨x, -, ht⟩ := execRefc_next h; exact ⟨_, ht⟩
  | enca => exact ⟨_, execEnca_next h⟩
  | flatc => exact ⟨_, execFlatc_next h⟩
  | ordc m => obtain ⟨o, -, ht⟩ := execOrdc_next h; exact ⟨_, ht⟩

/-- Settles O14: a rejected word and a failed check both end in `State.raise`, which writes the three fields. -/
theorem failingCommandWritesOnlyStatus : Obligations.FailingCommandWritesOnlyStatus := by
  refine ⟨rfl, fun s w d h => ?_, fun i s e h => exec_of_validation_some h⟩
  rw [runCommand_of_error h]
  cases d <;> rfl

/-! ### The frame checks, each written out from the registers -/

/-- The opcode of a command that runs `check_frame` (30_encoding.md R119). -/
def FrameCommand.opcode : FrameCommand → Nat
  | .encimg _ => 4
  | .decimg _ => 5
  | .getblk => 6
  | .putblk => 7

/-- The bit M of such a command. -/
def FrameCommand.modeBit : FrameCommand → Bool
  | .encimg m => m.bit
  | .decimg m => m.bit
  | .getblk => false
  | .putblk => false

/-- `PBSIZE` as an integer of the s32 dimensions (46_frame.md R310). -/
def State.pbBytes (s : State) : Int := 4 * s.imgW.toInt * s.imgH.toInt

/-- `CBSIZE` as an integer of the s32 dimensions, for a value of M (46_frame.md R310). -/
def State.cbBytes (s : State) (m : Bool) : Int :=
  ((s.imgW.toInt + 3) / 4) * ((s.imgH.toInt + 3) / 4) * (if m then 16 else 8)

section
variable (c : FrameCommand) (s : State)

theorem FrameCommand.isFrame_opcode : c.opcode = 4 ∨ c.opcode = 5 ∨ c.opcode = 6 ∨ c.opcode = 7 := by
  cases c <;> simp [FrameCommand.opcode]

theorem nullBuffer_iff :
    nullBuffer c s = true ↔
      s.bufcfg.getLsbD 0 = false ∨ ((c.opcode = 4 ∨ c.opcode = 5) ∧ s.bufcfg.getLsbD 1 = false) := by
  cases c <;> simp [nullBuffer, FrameCommand.wholeFrame, FrameCommand.opcode, State.pbValid, State.cbValid]

theorem badDimension_iff : badDimension s = true ↔ s.imgW.toInt ≤ 0 ∨ s.imgH.toInt ≤ 0 := by
  simp [badDimension]

theorem maxLength_lt_iff {n : Nat} {z : Int} (h : (n : Int) = z) : maxLength < n ↔ z > 2 ^ 32 - 1 := by
  rw [maxLength, ← h]
  omega

theorem tileInside_iff :
    tileInside s = true ↔ s.bX.toInt ≥ 0 ∧ s.bY.toInt ≥ 0 ∧ 4 * s.bX.toInt + 3 < s.imgW.toInt ∧
      4 * s.bY.toInt + 3 < s.imgH.toInt := by
  simp [tileInside, and_assoc]

section
variable {s} (hdim : ¬ (s.imgW.toInt ≤ 0 ∨ s.imgH.toInt ≤ 0))
include hdim

/-- A frame that passes step 4 has the dimensions of the registers. -/
theorem frame_dims : (s.frame.w : Int) = s.imgW.toInt ∧ (s.frame.h : Int) = s.imgH.toInt := by
  simp only [State.frame]
  omega

theorem pbSize_eq_pbBytes : (s.frame.pbSize : Int) = s.pbBytes := by
  obtain ⟨hw, hh⟩ := frame_dims hdim
  rw [Frame.pbSize, State.pbBytes, ← hw, ← hh]
  push_cast
  rfl

theorem cbSize_eq_cbBytes (m : Mode) : (s.frame.cbSize m : Int) = s.cbBytes m.bit := by
  obtain ⟨hw, hh⟩ := frame_dims hdim
  rw [Frame.cbSize, Frame.nb, Frame.bw, Frame.bh, State.cbBytes, ← hw, ← hh]
  cases m <;> push_cast <;> rfl

theorem sizeOverflow_iff :
    sizeOverflow c s.frame = true ↔
      s.pbBytes > 2 ^ 32 - 1 ∨ ((c.opcode = 4 ∨ c.opcode = 5) ∧ s.cbBytes c.modeBit > 2 ^ 32 - 1) := by
  have hpb := maxLength_lt_iff (pbSize_eq_pbBytes hdim)
  cases c with
  | encimg m | decimg m =>
    have hcb := maxLength_lt_iff (cbSize_eq_cbBytes hdim m)
    simp [sizeOverflow, FrameCommand.wholeFrame, FrameCommand.opcode, FrameCommand.modeBit, hpb, hcb]
  | getblk | putblk => simp [sizeOverflow, FrameCommand.wholeFrame, FrameCommand.opcode, hpb]

theorem pbUndersize_iff : pbUndersize s s.frame = true ↔ (s.pbLen.toNat : Int) < s.pbBytes := by
  rw [← pbSize_eq_pbBytes hdim, pbUndersize, decide_eq_true_eq, Nat.cast_lt]

/-- `CB_LEN < CBSIZE`, the comparison of steps 7 and 9. -/
theorem cbLen_lt_cbSize_iff (m : Mode) :
    decide (s.cbLen.toNat < s.frame.cbSize m) = true ↔ (s.cbLen.toNat : Int) < s.cbBytes m.bit := by
  rw [← cbSize_eq_cbBytes hdim, decide_eq_true_eq, Nat.cast_lt]

theorem cbUndersize_iff :
    cbUndersize c s s.frame = true ↔ c.opcode = 4 ∧ (s.cbLen.toNat : Int) < s.cbBytes c.modeBit := by
  cases c with
  | encimg m => exact (cbLen_lt_cbSize_iff hdim m).trans (and_iff_right rfl).symm
  | _ => simp [cbUndersize, FrameCommand.opcode]

theorem cbShort_iff :
    cbShort c s s.frame = true ↔ c.opcode = 5 ∧ (s.cbLen.toNat : Int) < s.cbBytes c.modeBit := by
  cases c with
  | decimg m => exact (cbLen_lt_cbSize_iff hdim m).trans (and_iff_right rfl).symm
  | _ => simp [cbShort, FrameCommand.opcode]

theorem outOfRange_iff :
    outOfRange c s s.frame = true ↔
      (¬ (c.opcode = 4 ∨ c.opcode = 5) ∧ ¬ (s.bX.toInt ≥ 0 ∧ s.bY.toInt ≥ 0 ∧ 4 * s.bX.toInt + 3 < s.imgW.toInt ∧
        4 * s.bY.toInt + 3 < s.imgH.toInt)) ∨
      ((c.opcode = 4 ∨ c.opcode = 5) ∧ s.cfg.edgePolicy = .reject ∧ (s.imgW.toInt % 4 ≠ 0 ∨ s.imgH.toInt % 4 ≠ 0)) := by
  obtain ⟨hw, hh⟩ := frame_dims hdim
  have hw4 : s.frame.w % 4 = 0 ↔ 4 ∣ s.imgW.toInt := by omega
  have hh4 : s.frame.h % 4 = 0 ↔ 4 ∣ s.imgH.toInt := by omega
  cases c with
  | encimg m | decimg m => simp [outOfRange, FrameCommand.wholeFrame, FrameCommand.opcode, hw4, hh4]
  | getblk | putblk => simp [outOfRange, FrameCommand.wholeFrame, FrameCommand.opcode, ← Bool.not_eq_true, tileInside_iff]

end

/-- Steps 3 to 9 of 60_exceptions.md R343 for an opcode and a value of M, from the registers. -/
def writtenFrameChecks (op : Nat) (m : Bool) (s : State) : Option CmdError :=
  if ¬ (op = 4 ∨ op = 5 ∨ op = 6 ∨ op = 7) then none
  else if s.bufcfg.getLsbD 0 = false ∨ ((op = 4 ∨ op = 5) ∧ s.bufcfg.getLsbD 1 = false) then some .nullBuffer
  else if s.imgW.toInt ≤ 0 ∨ s.imgH.toInt ≤ 0 then some .badDimension
  else if s.pbBytes > 2 ^ 32 - 1 ∨ ((op = 4 ∨ op = 5) ∧ s.cbBytes m > 2 ^ 32 - 1) then some .sizeOverflow
  else if (s.pbLen.toNat : Int) < s.pbBytes then some .pbUndersize
  else if op = 4 ∧ (s.cbLen.toNat : Int) < s.cbBytes m then some .cbUndersize
  else if ¬ (op = 4 ∨ op = 5) ∧ ¬ (s.bX.toInt ≥ 0 ∧ s.bY.toInt ≥ 0 ∧ 4 * s.bX.toInt + 3 < s.imgW.toInt ∧
    4 * s.bY.toInt + 3 < s.imgH.toInt) then some .blockOutOfRange
  else if (op = 4 ∨ op = 5) ∧ s.cfg.edgePolicy = .reject ∧ (s.imgW.toInt % 4 ≠ 0 ∨ s.imgH.toInt % 4 ≠ 0) then
    some .blockOutOfRange
  else if op = 5 ∧ (s.cbLen.toNat : Int) < s.cbBytes m then some .cbShort
  else none

/-- The two chains agree check by check. Those after step 4 are reached with positive dimensions only, where the sizes of
the frame are the integers of the registers. -/
theorem checkFrame_eq_writtenFrameChecks : checkFrame c s = writtenFrameChecks c.opcode c.modeBit s := by
  rw [writtenFrameChecks, if_neg (not_not.mpr c.isFrame_opcode)]
  refine ite_congr (propext (nullBuffer_iff c s)) (fun _ => rfl) fun _ =>
    ite_congr (propext (badDimension_iff s)) (fun _ => rfl) fun hdim => ?_
  rw [← ite_or]
  exact if_congr (sizeOverflow_iff c hdim) rfl <| if_congr (pbUndersize_iff hdim) rfl <|
    if_congr (cbUndersize_iff c hdim) rfl <| if_congr (outOfRange_iff c hdim) rfl <| if_congr (cbShort_iff c hdim) rfl rfl

end

theorem validation_eq_writtenFrameChecks (i : Instr) (s : State) :
    validation i s = writtenFrameChecks i.fields.op.toNat i.fields.m s := by
  cases i with
  | encimg m q => exact checkFrame_eq_writtenFrameChecks (.encimg m) s
  | decimg m => exact checkFrame_eq_writtenFrameChecks (.decimg m) s
  | getblk => exact checkFrame_eq_writtenFrameChecks .getblk s
  | putblk => exact checkFrame_eq_writtenFrameChecks .putblk s
  | _ => rfl

/-! ### The nine checks together -/

/-- The first failing check of 60_exceptions.md R343 for a word with these fields, from the registers. -/
def firstFailing (f : CmdFields) (s : State) : Option CmdError :=
  if f.op.toNat = 0 ∨ f.op.toNat = 15 then some .reservedOpcode
  else if f.rsv.toNat ≠ 0 ∨ (f.m = true ∧ f.op.toNat ∉ [2, 3, 4, 5, 14]) ∨ (f.q = true ∧ f.op.toNat ∉ [2, 4, 10]) then
    some .reservedField
  else writtenFrameChecks f.op.toNat f.m s

/-- The decoder makes the first two checks and validation the rest: a word is rejected with the first failing check, or
is a command whose validation is the first failing check. -/
theorem firstFailing_cases (w : Word) (s : State) :
    (∃ d, decode w = .error d ∧ firstFailing (wordFields w) s = some (decodeErrorOf d)) ∨
      ∃ i, decode w = .ok i ∧ firstFailing (wordFields w) s = validation i s := by
  rcases decode_cases w with ⟨hop, hw⟩ | ⟨hop, hwf, hw⟩ | ⟨i, hwf, hi, hw⟩
  · exact .inl ⟨_, hw, if_pos ((CmdFields.opDefined_eq_false_iff _).mp hop)⟩
  · refine .inl ⟨_, hw, ?_⟩
    rw [firstFailing, if_neg (mt (CmdFields.opDefined_eq_false_iff _).mpr (by simp [hop])),
      if_pos ((CmdFields.wf_eq_false_iff hop).mp hwf)]
    rfl
  · have hop := ((CmdFields.wf_iff _).mp hwf).1
    refine .inr ⟨i, hw, ?_⟩
    rw [firstFailing, if_neg (mt (CmdFields.opDefined_eq_false_iff _).mpr (by simp [hop])),
      if_neg (mt (CmdFields.wf_eq_false_iff hop).mpr (by simp [hwf])), validation_eq_writtenFrameChecks, hi]

/-- A `CMD` write raises the first failing check. Where none fails the command runs, and ends without error where it
completes. -/
theorem step_of_firstFailing {s : State} {w : Word} {rest : List HostAccess} (h : s.host = .write 0 w :: rest) :
    (∀ e, firstFailing (wordFields w) s = some e → step s = .next ({ s with host := rest, cmd := w }.raise e)) ∧
    (firstFailing (wordFields w) s = none → ∃ i, decode w = .ok i ∧
      step s = exec i { s with host := rest, cmd := w } ∧
      ∀ t, step s = .next t → t.status.err = 0 ∧ t.status.detail = 0) := by
  have hchecks : firstFailing (wordFields w) s = firstFailing (wordFields w) { s with host := rest, cmd := w } := rfl
  rw [step_of_cmdWrite h, hchecks]
  rcases firstFailing_cases w { s with host := rest, cmd := w } with ⟨d, hw, hf⟩ | ⟨i, hw, hf⟩
  · rw [hf, runCommand_of_error hw]
    exact ⟨fun e he => by cases he; rfl, nofun⟩
  · rw [hf, runCommand_of_ok hw]
    refine ⟨fun e he => exec_of_validation_some he, fun hnone => ⟨i, hw, rfl, fun t ht => ?_⟩⟩
    obtain ⟨u, rfl⟩ := exec_of_validation_none hnone ht
    exact ⟨rfl, rfl⟩

/-! ### The other host accesses -/

theorem State.write_status (s : State) (r : Reg) (v : Word) : (s.write r v).status = s.status := by
  cases r <;> rfl

theorem State.setBuffer_status (s : State) (buf : Buf) (m : Memory) : (s.setBuffer buf m).status = s.status := by
  cases buf <;> rfl

/-- No access but a `CMD` write and a reset event changes `STATUS` (10_state.md R36). -/
theorem step_status {s t : State} (h : step s = .next t) (hcmd : ∀ w : Word, s.host.head? ≠ some (.write 0 w))
    (hreset : s.host.head? ≠ some .platformReset) (hpower : s.host.head? ≠ some .powerOn) : t.status = s.status := by
  obtain ⟨-, rfl⟩ | ⟨a, rest, hhost, ha⟩ := step_next h
  · rfl
  · simp only [hhost, List.head?_cons, ne_eq, Option.some.injEq] at hcmd hreset hpower
    obtain ⟨w, hw, -⟩ | ⟨r, w, -, rfl⟩ | ⟨d, rfl⟩ | ⟨buf, offset, bytes, -, rfl⟩ | ⟨hr, -⟩ | ⟨hp, -⟩ := access_next ha
    · exact absurd hw (hcmd w)
    · exact State.write_status _ r w
    · rfl
    · exact State.setBuffer_status _ buf _
    · exact absurd hr hreset
    · exact absurd hp hpower

/-- Settles O15: the decoder and `check_frame` are the nine checks in order, and every command that passes them ends with
`State.succeed`. -/
theorem commandsValidateInTheFixedOrder : Obligations.CommandsValidateInTheFixedOrder := by
  refine ⟨fun s t h hcmd hreset hpower => ?_, fun s w rest h => step_of_firstFailing h⟩
  rw [step_status h hcmd hreset hpower]
  exact ⟨rfl, rfl⟩

end Sys2Proof.Machine
end

section
/-! PROOFS. The decoder and the encoder are inverse to each other (30_encoding.md R118 to R121). -/

namespace Sys2Proof

/-- Settles O9: a word and the command it decodes to have the same fields. -/
theorem decodeAndEncodeAgree : Obligations.DecodeAndEncodeAgree :=
  fun _ _ => decode_eq_ok_iff.trans eq_comm

/-- Settles O8: seven of the words are those of their commands; the other two have a reserved opcode and a reserved bit. -/
theorem sampleWordsDecode : Obligations.SampleWordsDecode :=
  ⟨decode_encode .init, decode_encode (.enc .bc3 .dithered), decode_encode (.dec .bc3),
    decode_encode (.encimg .bc1 .dithered), decode_encode (.matchc .dithered), decode_encode (.ordc .bc3),
    decode_encode .putblk, by decide, by decide⟩

end Sys2Proof
end

section
/-! PROOFS. The invariant of a unit (20_memory.md R80, 10_state.md R37, R43, 60_exceptions.md R342): it holds after
power-on, and each way a step can end keeps it. -/

namespace Sys2Proof.Machine

open Sys2Proof

/-- The pixels of the selected tile lie in the frame when the checks of GETBLK or PUTBLK pass (46_frame.md R311). -/
theorem selectedTile_lt {c : FrameCommand} {s : State} (h : checkFrame c s = none) (hc : c.wholeFrame = none)
    (i : Fin 16) : s.selectedTile.get i + 4 ≤ s.frame.pbSize := by
  obtain ⟨-, -, hx, hy⟩ := checkFrame_tile h hc
  rw [State.selectedTile, get_tileAddrs]
  exact s.frame.pixelAddr_lt (by omega) (by omega)

theorem pbSize_le_bufferSize {c : FrameCommand} {s : State} (h : checkFrame c s = none) :
    s.frame.pbSize ≤ bufferSize :=
  (checkFrame_pbSize h).1.trans (by decide)

theorem cbSize_le_bufferSize {c : FrameCommand} {m : Mode} {s : State} (h : checkFrame c s = none)
    (hm : c.wholeFrame = some m) : s.frame.cbSize m ≤ bufferSize :=
  (checkFrame_cbSize h hm).1.trans (by decide)

/-! ### The buffers -/

theorem exec_pb_wf {i : Instr} {s t : State} (h : exec i s = .next t) (hs : s.pb.wf) : t.pb.wf := by
  obtain hpb | ⟨-, hc, hpb⟩ | ⟨m, -, hc, hpb⟩ := exec_pb h
  · rwa [hpb]
  · rw [hpb]
    refine wf_writeTile hs _ _ fun i a ha => ?_
    obtain rfl : s.selectedTile.get i = a := by simpa using ha
    exact (selectedTile_lt hc rfl i).trans (pbSize_le_bufferSize hc)
  · exact wf_decodeTiles _ _ _ _ hs (pbSize_le_bufferSize hc) hpb

theorem exec_cb_wf {i : Instr} {s t : State} (h : exec i s = .next t) (hs : s.cb.wf) : t.cb.wf := by
  obtain hcb | ⟨m, q, -, hc, hcb⟩ := exec_cb h
  · rwa [hcb]
  · refine wf_encodeTiles _ _ _ _ _ _ _ _ _ hs ?_ hcb
    rw [Nat.zero_add]
    exact cbSize_le_bufferSize hc rfl

/-! ### Each way a step can end -/

/-- The codes of an error are a row of the table (60_exceptions.md R342). -/
theorem Status.codesLegal_failed (st : Status) (e : CmdError) : (st.failed e).codesLegal = true := by
  cases e <;> rfl

namespace State.Inv

variable {s t : State}

theorem raise (h : s.Inv) (e : CmdError) : (s.raise e).Inv :=
  ⟨h.pbForm, h.cbForm, h.bufcfg, s.status.codesLegal_failed e, fun _ => rfl⟩

theorem write (h : s.Inv) (r : Reg) (v : Word) : (s.write r v).Inv := by
  obtain ⟨hpb, hcb, hbufcfg, hcodes, hseen⟩ := h
  have hmask : (v &&& bufcfgMask).toNat < 4 := by
    rw [BitVec.toNat_and]
    exact Nat.and_lt_two_pow (n := 2) _ (by decide)
  cases r with
  | bufcfg => exact ⟨hpb, hcb, hmask, hcodes, hseen⟩
  | _ => exact ⟨hpb, hcb, hbufcfg, hcodes, hseen⟩

theorem writeBuf (h : s.Inv) (buf : Buf) {offset : Nat} {bytes : List Byte}
    (hsize : offset + bytes.length ≤ bufferSize) :
    (s.setBuffer buf ((s.buffer buf).writeBytes offset bytes)).Inv := by
  obtain ⟨hpb, hcb, hbufcfg, hcodes, hseen⟩ := h
  cases buf with
  | pb => exact ⟨Memory.wf_writeBytes hpb bytes hsize, hcb, hbufcfg, hcodes, hseen⟩
  | cb => exact ⟨hpb, Memory.wf_writeBytes hcb bytes hsize, hbufcfg, hcodes, hseen⟩

/-- Of the parts of the invariant a reset keeps only those of the buffers; its registers meet the others. -/
theorem platformReset (hpb : s.pb.wf) (hcb : s.cb.wf) : s.platformReset.Inv :=
  ⟨hpb, hcb, show State.reset.bufcfg.toNat < 4 by decide, rfl, fun h => absurd rfl h⟩

theorem exec {i : Instr} (hs : s.Inv) (h : exec i s = .next t) : t.Inv := by
  obtain ⟨e, rfl⟩ | ⟨herr, hdetail, -⟩ := exec_ends h
  · exact hs.raise e
  · exact ⟨exec_pb_wf h hs.pbForm, exec_cb_wf h hs.cbForm, (exec_sameControl h).bufcfg ▸ hs.bufcfg,
      by simp [Status.codesLegal, herr, hdetail], fun hne => absurd herr hne⟩

theorem access {a : HostAccess} (hs : s.Inv) (h : access a s = .next t) : t.Inv := by
  obtain ⟨w, -, hrun⟩ | ⟨r, w, -, rfl⟩ | ⟨d, rfl⟩ | ⟨buf, offset, bytes, hsize, rfl⟩ | ⟨-, rfl⟩ | ⟨-, rfl⟩ :=
    access_next h
  · obtain ⟨d, -, rfl⟩ | ⟨i, -, hexec⟩ := runCommand_next hrun
    · exact (hs.write .cmd w).raise _
    · exact (hs.write .cmd w).exec hexec
  · exact hs.write r w
  · exact ⟨hs.pbForm, hs.cbForm, hs.bufcfg, hs.codes, hs.seen⟩
  · exact hs.writeBuf buf hsize
  · exact platformReset hs.pbForm hs.cbForm
  · exact platformReset (s := { s with pb := [], cb := [] }) Memory.wf_nil Memory.wf_nil

end State.Inv

/-- Settles O2: the state after power-on is a reset state with empty buffers. -/
theorem resetStateMeetsTheInvariant : Obligations.ResetStateMeetsTheInvariant :=
  State.Inv.platformReset (s := State.reset) Memory.wf_nil Memory.wf_nil

/-- Settles O3: a step does nothing or is an access, and every access keeps the invariant. -/
theorem everyStepKeepsTheInvariant : Obligations.EveryStepKeepsTheInvariant := by
  intro s t hs h
  obtain ⟨-, rfl⟩ | ⟨a, rest, -, ha⟩ := step_next h
  · exact hs
  · exact State.Inv.access (s := s.dropAccess) ⟨hs.pbForm, hs.cbForm, hs.bufcfg, hs.codes, hs.seen⟩ ha

end Sys2Proof.Machine
end

section
/-! PROOFS. What a command leaves unchanged (10_state.md R33, R35, R37, R39, R53): the registers it writes become
specified and the others keep their value and mark, the flags that are not its own keep theirs, and `ERR_SEEN`,
`LUT_READY` and the marks are never cleared by a command. -/

namespace Sys2Proof.Machine

open Sys2Proof

/-! ### The registers an update writes -/

/-- From `s` to `t` the registers listed become specified, and every other but `STATUS` is as it was. -/
structure WritesRegs (regs : List Reg) (s t : State) : Prop where
  keeps     : KeepsRegsExcept regs s t
  specified : ∀ r ∈ regs, t.specified r = true

namespace WritesRegs

variable {regs regs' : List Reg} {s t u : State}

theorem trans (h : WritesRegs regs s t) (h' : WritesRegs regs' t u) : WritesRegs (regs ++ regs') s u where
  keeps r hr hmem := by
    rw [List.mem_append, not_or] at hmem
    obtain ⟨hread, hspec⟩ := h.keeps r hr hmem.1
    obtain ⟨hread', hspec'⟩ := h'.keeps r hr hmem.2
    exact ⟨hread'.trans hread, hspec'.trans hspec⟩
  specified r hmem := by
    by_cases hr' : r ∈ regs'
    · exact h'.specified r hr'
    by_cases hstatus : r = .status
    · subst hstatus; rfl
    · rw [(h'.keeps r hstatus hr').2]
      exact h.specified r ((List.mem_append.mp hmem).resolve_right hr')

theorem congr (h : WritesRegs regs s t) (heq : ∀ r, r ∈ regs ↔ r ∈ regs') : WritesRegs regs' s t where
  keeps r hr hmem := h.keeps r hr (mt (heq r).mp hmem)
  specified r hmem := h.specified r ((heq r).mpr hmem)

/-- A specified register stays specified. -/
theorem specified_mono (h : WritesRegs regs s t) {r : Reg} (hr : s.specified r = true) : t.specified r = true := by
  by_cases hmem : r ∈ regs
  · exact h.specified r hmem
  by_cases hstatus : r = .status
  · subst hstatus; rfl
  · rw [(h.keeps r hstatus hmem).2, hr]

end WritesRegs

theorem mem_pixRegs (i : Fin 16) : Reg.pix i ∈ pixRegs := by
  rw [pixRegs, List.mem_map]
  exact ⟨i, (Tile.mem_toList _ i).mpr ⟨i, Tile.get_indices i⟩, rfl⟩

theorem mem_pixRegs_iff {r : Reg} : r ∈ pixRegs ↔ ∃ i, r = .pix i := by
  constructor
  · intro h
    obtain ⟨i, -, rfl⟩ := List.mem_map.mp h
    exact ⟨i, rfl⟩
  · rintro ⟨i, rfl⟩
    exact mem_pixRegs i

section
variable (s : State)

theorem writesRegs_mapStatus (f : Status → Status) : WritesRegs [] s (s.mapStatus f) :=
  ⟨fun r hr _ => by
    cases r
    case status => exact absurd rfl hr
    all_goals exact ⟨rfl, rfl⟩, nofun⟩

theorem writesRegs_succeed : WritesRegs [] s s.succeed := writesRegs_mapStatus s _

theorem writesRegs_raise (e : CmdError) : WritesRegs [] s (s.raise e) := writesRegs_mapStatus s _

theorem writesRegs_buildTables : WritesRegs [] s s.buildTables :=
  ⟨fun r hr _ => by
    cases r
    case status => exact absurd rfl hr
    all_goals exact ⟨rfl, rfl⟩, nofun⟩

theorem writesRegs_setBuffer (buf : Buf) (m : Memory) : WritesRegs [] s (s.setBuffer buf m) :=
  ⟨fun r _ _ => by cases buf <;> cases r <;> exact ⟨rfl, rfl⟩, nofun⟩

theorem writesRegs_putEndpoints (e0 e1 : Half) : WritesRegs [.ep] s (s.putEndpoints e0 e1) :=
  ⟨fun r _ hr => by
    cases r
    case ep => exact absurd (List.mem_singleton.mpr rfl) hr
    all_goals exact ⟨rfl, rfl⟩,
    fun r hr => by rw [List.mem_singleton.mp hr]; rfl⟩

theorem writesRegs_putMask (m : Word) : WritesRegs [.mask] s (s.putMask m) :=
  ⟨fun r _ hr => by
    cases r
    case mask => exact absurd (List.mem_singleton.mpr rfl) hr
    all_goals exact ⟨rfl, rfl⟩,
    fun r hr => by rw [List.mem_singleton.mp hr]; rfl⟩

theorem writesRegs_putPixels (t : Tile Pixel) : WritesRegs pixRegs s (s.putPixels t) where
  keeps r _ hr := by
    cases r with
    | pix i => exact absurd (mem_pixRegs i) hr
    | _ => exact ⟨rfl, rfl⟩
  specified r hr := by
    obtain ⟨i, rfl⟩ := mem_pixRegs_iff.mp hr
    simp [State.specified, DataReg.holding]

theorem writesRegs_putPalette (p : Quad RGB) : WritesRegs [.pal 0, .pal 1, .pal 2, .pal 3] s (s.putPalette p) where
  keeps r _ hr := by
    cases r with
    | pal k => exact absurd (by fin_cases k <;> decide) hr
    | _ => exact ⟨rfl, rfl⟩
  specified r hr := by
    simp only [List.mem_cons, List.not_mem_nil, or_false] at hr
    rcases hr with rfl | rfl | rfl | rfl <;> rfl

theorem writesRegs_putLowBlock (sb : SubBlock) : WritesRegs [.blk 0, .blk 1] s (s.putLowBlock sb) where
  keeps r _ hr := by
    cases r with
    | blk j =>
      fin_cases j
      · exact absurd (by decide) hr
      · exact absurd (by decide) hr
      · exact ⟨rfl, rfl⟩
      · exact ⟨rfl, rfl⟩
    | _ => exact ⟨rfl, rfl⟩
  specified r hr := by
    simp only [List.mem_cons, List.not_mem_nil, or_false] at hr
    rcases hr with rfl | rfl <;> rfl

theorem writesRegs_putHighBlock (sb : SubBlock) : WritesRegs [.blk 2, .blk 3] s (s.putHighBlock sb) where
  keeps r _ hr := by
    cases r with
    | blk j =>
      fin_cases j
      · exact ⟨rfl, rfl⟩
      · exact ⟨rfl, rfl⟩
      · exact absurd (by decide) hr
      · exact absurd (by decide) hr
    | _ => exact ⟨rfl, rfl⟩
  specified r hr := by
    simp only [List.mem_cons, List.not_mem_nil, or_false] at hr
    rcases hr with rfl | rfl <;> rfl

/-- The block registers a block of a mode goes to (10_state.md R49). -/
def blockRegs : Block → List Reg
  | .bc1 _ => [.blk 0, .blk 1]
  | .bc3 _ _ => [.blk 0, .blk 1, .blk 2, .blk 3]

theorem writesRegs_putBlock (b : Block) : WritesRegs (blockRegs b) s (s.putBlock b) := by
  cases b with
  | bc1 c => exact writesRegs_putLowBlock s c
  | bc3 a c => exact (writesRegs_putLowBlock s a).trans (writesRegs_putHighBlock _ c)

end

/-! ### The registers a command writes -/

@[simp] theorem CmdError.kind_ne_zero (e : CmdError) : e.kind ≠ 0#2 := by cases e <;> decide

/-- A command that completes without error writes the registers of its rule. -/
theorem exec_succeeds_writesRegs {i : Instr} {s t : State} (h : exec i s = .next t) (herr : t.status.err = 0) :
    WritesRegs (writtenRegs i) s t := by
  have notRaised {e : CmdError} {p : Prop} (ht : t = s.raise e) : p :=
    absurd (ht ▸ herr : (s.raise e).status.err = 0) e.kind_ne_zero
  cases i with
  | init =>
    rw [execInit_next h]
    exact (writesRegs_buildTables s).trans (writesRegs_succeed _)
  | enc m q =>
    rw [execEnc_next h]
    refine ((((((writesRegs_buildTables s).trans (writesRegs_putBlock _ _)).trans (writesRegs_putEndpoints _ _ _)).trans
      (writesRegs_putMask _ _)).trans (writesRegs_mapStatus _ _)).trans (writesRegs_succeed _)).congr ?_
    cases m <;> simp [writtenRegs, blockRegs, encodeBlock]
  | dec m =>
    rw [execDec_next h]
    refine (((writesRegs_buildTables s).trans (writesRegs_putPixels _ _)).trans (writesRegs_succeed _)).congr ?_
    simp [writtenRegs]
  | encimg m q =>
    obtain ⟨e, -, ht⟩ | ⟨-, cb, -, ht⟩ := execEncimg_next h
    · exact notRaised ht
    · rw [ht]
      exact ((writesRegs_buildTables s).trans (writesRegs_setBuffer _ _ _)).trans (writesRegs_succeed _)
  | decimg m =>
    obtain ⟨e, -, ht⟩ | ⟨-, pb, -, ht⟩ := execDecimg_next h
    · exact notRaised ht
    · rw [ht]
      exact ((writesRegs_buildTables s).trans (writesRegs_setBuffer _ _ _)).trans (writesRegs_succeed _)
  | getblk =>
    obtain ⟨e, -, ht⟩ | ⟨-, p, -, ht⟩ := execGetblk_next h
    · exact notRaised ht
    · rw [ht]
      refine ((writesRegs_putPixels s p).trans (writesRegs_succeed _)).congr ?_
      simp [writtenRegs]
  | putblk =>
    obtain ⟨e, -, ht⟩ | ⟨-, ht⟩ := execPutblk_next h
    · exact notRaised ht
    · rw [ht]
      exact (writesRegs_setBuffer s _ _).trans (writesRegs_succeed _)
  | estc =>
    rw [execEstc_next h]
    exact (writesRegs_putEndpoints s _ _).trans (writesRegs_succeed _)
  | palc =>
    rw [execPalc_next h]
    exact ((writesRegs_buildTables s).trans (writesRegs_putPalette _ _)).trans (writesRegs_succeed _)
  | matchc q =>
    rw [execMatchc_next h]
    exact (writesRegs_putMask s _).trans (writesRegs_succeed _)
  | refc =>
    obtain ⟨x, -, ht⟩ := execRefc_next h
    rw [ht]
    exact ((writesRegs_putEndpoints s _ _).trans (writesRegs_mapStatus _ _)).trans (writesRegs_succeed _)
  | enca =>
    rw [execEnca_next h]
    exact (writesRegs_putLowBlock s _).trans (writesRegs_succeed _)
  | flatc =>
    rw [execFlatc_next h]
    exact ((((writesRegs_buildTables s).trans (writesRegs_putEndpoints _ _ _)).trans (writesRegs_putMask _ _)).trans
      (writesRegs_mapStatus _ _)).trans (writesRegs_succeed _)
  | ordc m =>
    obtain ⟨o, -, ht⟩ := execOrdc_next h
    rw [ht]
    have rest (u : State) := (((writesRegs_putEndpoints u o.c0 o.c1).trans (writesRegs_putMask _ o.mask)).trans
      (writesRegs_mapStatus _ (·.withSwapped o.swapped))).trans (writesRegs_succeed _)
    cases m with
    | bc1 => exact ((writesRegs_putLowBlock s o.block).trans (rest _)).congr (by simp [writtenRegs]; tauto)
    | bc3 => exact ((writesRegs_putHighBlock s o.block).trans (rest _)).congr (by simp [writtenRegs]; tauto)

/-- A command writes the registers of its rule, or none where it fails (60_exceptions.md R341). -/
theorem exec_writesRegs {i : Instr} {s t : State} (h : exec i s = .next t) :
    WritesRegs (if t.status.err = 0 then writtenRegs i else []) s t := by
  split
  · exact exec_succeeds_writesRegs h ‹_›
  · obtain ⟨e, rfl⟩ | ⟨herr, -, -⟩ := exec_ends h
    · exact writesRegs_raise s e
    · exact absurd herr ‹_›

/-! ### The flags a command writes -/

@[simp] theorem Status.flag_failed (st : Status) (e : CmdError) (f : Flag) : (st.failed e).flag f = st.flag f := by
  cases f <;> rfl

@[simp] theorem Status.flag_succeeded (st : Status) (f : Flag) : st.succeeded.flag f = st.flag f := by
  cases f <;> rfl

theorem Status.flag_withFlat (st : Status) (b : Bool) {f : Flag} (hf : f ∉ [Flag.flat]) :
    (st.withFlat b).flag f = st.flag f := by
  cases f
  case flat => exact absurd (List.mem_singleton.mpr rfl) hf
  all_goals rfl

theorem Status.flag_withSwapped (st : Status) (b : Bool) {f : Flag} (hf : f ∉ [Flag.swapped]) :
    (st.withSwapped b).flag f = st.flag f := by
  cases f
  case swapped => exact absurd (List.mem_singleton.mpr rfl) hf
  all_goals rfl

theorem Status.flag_withRefine (st : Status) (c k : Bool) {f : Flag} (hf : f ∉ [Flag.refChanged, .refSkipped]) :
    (st.withRefine c k).flag f = st.flag f := by
  cases f
  case refChanged => exact absurd (by decide) hf
  case refSkipped => exact absurd (by decide) hf
  all_goals rfl

/-- A flag that is not a command's own is as it was (10_state.md R39). -/
theorem exec_flag {i : Instr} {s t : State} (h : exec i s = .next t) {f : Flag} (hf : f ∉ writtenFlags i) :
    t.status.flag f = s.status.flag f := by
  cases i with
  | init => rw [execInit_next h]; simp
  | enc m q => cases f <;> exact absurd (by decide : _ ∈ [Flag.refChanged, .refSkipped, .flat, .swapped]) hf
  | dec m => rw [execDec_next h]; simp
  | encimg m q => obtain ⟨e, -, ht⟩ | ⟨-, cb, -, ht⟩ := execEncimg_next h <;> rw [ht] <;> simp
  | decimg m => obtain ⟨e, -, ht⟩ | ⟨-, pb, -, ht⟩ := execDecimg_next h <;> rw [ht] <;> simp
  | getblk => obtain ⟨e, -, ht⟩ | ⟨-, p, -, ht⟩ := execGetblk_next h <;> rw [ht] <;> simp
  | putblk => obtain ⟨e, -, ht⟩ | ⟨-, ht⟩ := execPutblk_next h <;> rw [ht] <;> simp
  | estc => rw [execEstc_next h]; simp
  | palc => rw [execPalc_next h]; simp
  | matchc q => rw [execMatchc_next h]; simp
  | refc => obtain ⟨x, -, ht⟩ := execRefc_next h; rw [ht]; simp [Status.flag_withRefine _ _ _ hf]
  | enca => rw [execEnca_next h]; simp
  | flatc => rw [execFlatc_next h]; simp [Status.flag_withFlat _ _ hf]
  | ordc m =>
    obtain ⟨o, -, ht⟩ := execOrdc_next h
    rw [ht]
    cases m <;> simp [State.putColourBlock, Status.flag_withSwapped _ _ hf]

/-! ### `ERR_SEEN` and `LUT_READY` -/

/-- `ERR_SEEN` is set by a command that fails, and by no other (10_state.md R37). -/
theorem exec_errSeen {i : Instr} {s t : State} (h : exec i s = .next t) :
    t.status.errSeen = true ↔ s.status.errSeen = true ∨ t.status.err ≠ 0 := by
  obtain ⟨e, rfl⟩ | ⟨h0, -, hseen⟩ := exec_ends h
  · simp
  · simp [h0, hseen]

/-- `LUT_READY` is set by a table user that completes without error, and left alone by every other command. -/
theorem exec_lutReady_eq {i : Instr} {s t : State} (h : exec i s = .next t) :
    t.lutReady = (s.lutReady || (usesTables i && t.status.err == 0)) := by
  cases i with
  | init => rw [execInit_next h]; simp [usesTables]
  | enc m q => rw [execEnc_next h]; simp [usesTables]
  | dec m => rw [execDec_next h]; simp [usesTables]
  | encimg m q =>
    obtain ⟨e, -, ht⟩ | ⟨-, cb, -, ht⟩ := execEncimg_next h <;> rw [ht]
    · simp
    · simp [usesTables]
  | decimg m =>
    obtain ⟨e, -, ht⟩ | ⟨-, pb, -, ht⟩ := execDecimg_next h <;> rw [ht]
    · simp
    · simp [usesTables]
  | getblk => obtain ⟨e, -, ht⟩ | ⟨-, p, -, ht⟩ := execGetblk_next h <;> rw [ht] <;> simp [usesTables]
  | putblk => obtain ⟨e, -, ht⟩ | ⟨-, ht⟩ := execPutblk_next h <;> rw [ht] <;> simp [usesTables]
  | estc => rw [execEstc_next h]; simp [usesTables]
  | palc => rw [execPalc_next h]; simp [usesTables]
  | matchc q => rw [execMatchc_next h]; simp [usesTables]
  | refc => obtain ⟨x, -, ht⟩ := execRefc_next h; rw [ht]; simp [usesTables]
  | enca => rw [execEnca_next h]; simp [usesTables]
  | flatc => rw [execFlatc_next h]; simp [usesTables]
  | ordc m => obtain ⟨o, -, ht⟩ := execOrdc_next h; rw [ht]; cases m <;> simp [usesTables, State.putColourBlock]

end Sys2Proof.Machine
end

section
/-! PROOFS. The frames of the commands (10_state.md R33, R35, 46_frame.md section 3), and what follows for a step: which
bits are sticky (10_state.md R37, R50, R53) and which commands change a flag (R39). -/

namespace Sys2Proof.Machine

open Sys2Proof

/-! ### The buffers a command leaves alone -/

section
variable {i : Instr} {s t : State} (h : exec i s = .next t)
include h

theorem exec_pb_eq (hput : i ≠ .putblk) (hdecimg : ∀ m, i ≠ .decimg m) : t.pb = s.pb := by
  obtain hpb | ⟨hi, -, -⟩ | ⟨m, hi, -, -⟩ := exec_pb h
  · exact hpb
  · exact absurd hi hput
  · exact absurd hi (hdecimg m)

theorem exec_cb_eq (hencimg : ∀ m q, i ≠ .encimg m q) : t.cb = s.cb := by
  obtain hcb | ⟨m, q, hi, -, -⟩ := exec_cb h
  · exact hcb
  · exact absurd hi (hencimg m q)

end

section
variable {s t : State}

theorem putblk_keepsBytesExcept (h : exec .putblk s = .next t) :
    KeepsBytesExcept (inTile s.selectedTile) s.pb t.pb := by
  intro a ha
  obtain hpb | ⟨-, -, hpb⟩ | ⟨m, hi, -, -⟩ := exec_pb h
  · rw [hpb]
  · rw [hpb]
    refine read_writeTile_outside _ _ _ _ fun i x hx hin => ha ⟨i, ?_⟩
    obtain rfl : s.selectedTile.get i = x := by simpa using hx
    exact hin
  · cases hi

theorem decimg_keepsBytesExcept {m : Mode} (h : exec (.decimg m) s = .next t) :
    KeepsBytesExcept (· < s.frame.pbSize) s.pb t.pb := by
  intro a ha
  obtain hpb | ⟨hi, -, -⟩ | ⟨m, -, -, hpb⟩ := exec_pb h
  · rw [hpb]
  · cases hi
  · exact decodeTiles_outside _ _ _ _ (Nat.le_of_not_lt ha) hpb

theorem encimg_keepsBytesExcept {m : Mode} {q : Quality} (h : exec (.encimg m q) s = .next t) :
    KeepsBytesExcept (· < s.frame.cbSize m) s.cb t.cb := by
  intro a ha
  obtain hcb | ⟨m', q', hi, -, hcb⟩ := exec_cb h
  · rw [hcb]
  · cases hi
    refine (encodeTiles_ok _ _ _ _ _ _ _ _ _ hcb).2 a fun hin => ha ?_
    rw [Nat.zero_add] at hin
    exact hin.2

end

theorem exec_keepsOutside {i : Instr} {s t : State} (h : exec i s = .next t) : KeepsOutside s t :=
  have same := exec_sameControl h
  ⟨same.cfg, same.host, same.rdata⟩

/-- Settles O59: the registers, flags and bits are those of any command, which writes nothing but `STATUS` where it fails;
of the buffers a command writes only the tile or frame it stores to. -/
theorem frameCommandsKeepTheRest : Obligations.FrameCommandsKeepTheRest := by
  intro i s t hi h
  have flags : writtenFlags i = [] := by
    obtain rfl | rfl | ⟨m, q, rfl⟩ | ⟨m, rfl⟩ := hi <;> rfl
  refine ⟨(exec_writesRegs h).keeps, exec_keepsOutside h, fun f => exec_flag h (flags ▸ List.not_mem_nil),
    exec_errSeen h, exec_lutReady_eq h, ?_, ?_, ?_, ?_, ?_, fun herr => ?_⟩
  · rintro rfl
    exact putblk_keepsBytesExcept h
  · rintro ⟨m, rfl⟩
    exact decimg_keepsBytesExcept h
  · rintro (rfl | ⟨m, q, rfl⟩) a <;> rw [exec_pb_eq h nofun nofun]
  · rintro m q rfl
    exact encimg_keepsBytesExcept h
  · rintro (rfl | rfl | ⟨m, rfl⟩) a <;> rw [exec_cb_eq h nofun]
  · obtain ⟨e, rfl⟩ | ⟨h0, -, -⟩ := exec_ends h
    · exact ⟨rfl, rfl⟩
    · exact absurd h0 herr

/-- Settles O58: none of these commands has checks to fail, so each completes and clears the error; what it then writes
is said for every command. -/
theorem registerCommandsKeepTheRest : Obligations.RegisterCommandsKeepTheRest := by
  intro i s t hi h
  obtain ⟨hcheck, hput, hdecimg, hencimg⟩ : validation i s = none ∧ i ≠ .putblk ∧ (∀ m, i ≠ .decimg m) ∧
      ∀ m q, i ≠ .encimg m q := by
    obtain rfl | rfl | rfl | rfl | rfl | rfl | ⟨q, rfl⟩ | ⟨m, q, rfl⟩ | ⟨m, rfl⟩ | ⟨m, rfl⟩ := hi <;>
      exact ⟨rfl, nofun, nofun, nofun⟩
  obtain ⟨herr, hdetail⟩ : t.status.err = 0 ∧ t.status.detail = 0 := by
    obtain ⟨u, rfl⟩ := exec_of_validation_none hcheck h
    exact ⟨rfl, rfl⟩
  refine ⟨(exec_succeeds_writesRegs h herr).keeps, ⟨fun f hf => exec_flag h hf, ?_⟩, exec_keepsOutside h,
    fun a => by rw [exec_pb_eq h hput hdecimg], fun a => by rw [exec_cb_eq h hencimg], herr, hdetail, ?_⟩
  · simpa [herr] using exec_errSeen h
  · simpa [herr] using exec_lutReady_eq h

/-! ### Steps -/

theorem specified_write_mono (s : State) (r : Reg) (v : Word) {r' : Reg} (h : s.specified r' = true) :
    (s.write r v).specified r' = true := by
  by_cases hr : r' = r
  · rw [hr]
    exact specified_write s r v
  · rwa [(read_write_other s v hr).2]

/-- What no step but a reset clears: the configuration stays, `ERR_SEEN` and `LUT_READY` stay set, and a specified
register stays specified (10_state.md R37, R50, R53). -/
structure KeepsSticky (s t : State) : Prop where
  cfg       : t.cfg = s.cfg
  errSeen   : s.status.errSeen = true → t.status.errSeen = true
  lutReady  : s.lutReady = true → t.lutReady = true
  specified : ∀ r, s.specified r = true → t.specified r = true

namespace KeepsSticky

variable {s t u : State}

theorem trans (h : KeepsSticky s t) (h' : KeepsSticky t u) : KeepsSticky s u :=
  ⟨h'.cfg.trans h.cfg, h'.errSeen ∘ h.errSeen, h'.lutReady ∘ h.lutReady, fun r => h'.specified r ∘ h.specified r⟩

theorem write (s : State) (r : Reg) (v : Word) : KeepsSticky s (s.write r v) := by
  refine ⟨?_, ?_, ?_, fun r' => specified_write_mono s r v⟩
  · cases r <;> rfl
  · cases r <;> exact id
  · cases r <;> exact id

theorem setBuffer (s : State) (buf : Buf) (m : Memory) : KeepsSticky s (s.setBuffer buf m) := by
  cases buf <;> exact ⟨rfl, id, id, fun r => by cases r <;> exact id⟩

theorem exec {i : Instr} (h : exec i s = .next t) : KeepsSticky s t where
  cfg := (exec_sameControl h).cfg
  errSeen hseen := (exec_errSeen h).mpr (.inl hseen)
  lutReady hready := by rw [exec_lutReady_eq h, hready, Bool.true_or]
  specified _ := (exec_writesRegs h).specified_mono

theorem runCommand {w : Word} (h : runCommand w s = .next t) : KeepsSticky s t := by
  obtain ⟨d, -, rfl⟩ | ⟨i, -, hexec⟩ := runCommand_next h
  · exact (write s .cmd w).trans ⟨rfl, fun _ => rfl, id, fun _ => (writesRegs_raise _ _).specified_mono⟩
  · exact (write s .cmd w).trans (exec hexec)

end KeepsSticky

/-- Settles O5: every access but the two resets keeps the sticky bits, and the resets keep the configuration. -/
theorem stickyBitsClearOnlyAtReset : Obligations.StickyBitsClearOnlyAtReset := by
  intro s t h
  suffices t.cfg = s.cfg ∧ (s.host.head? ≠ some .platformReset → s.host.head? ≠ some .powerOn → KeepsSticky s t) by
    refine ⟨this.1, fun hreset hpower => ?_⟩
    obtain ⟨-, hseen, hready, hspec⟩ := this.2 hreset hpower
    exact ⟨hseen, hready, hspec⟩
  have of_sticky (hs : KeepsSticky s t) :
      t.cfg = s.cfg ∧ (s.host.head? ≠ some .platformReset → s.host.head? ≠ some .powerOn → KeepsSticky s t) :=
    ⟨hs.cfg, fun _ _ => hs⟩
  have dropped : KeepsSticky s s.dropAccess := ⟨rfl, id, id, fun r => by cases r <;> exact id⟩
  obtain ⟨-, rfl⟩ | ⟨a, rest, hhost, ha⟩ := step_next h
  · exact of_sticky ⟨rfl, id, id, fun _ => id⟩
  · obtain ⟨w, -, hrun⟩ | ⟨r, w, -, rfl⟩ | ⟨d, rfl⟩ | ⟨buf, offset, bytes, -, rfl⟩ | ⟨rfl, rfl⟩ | ⟨rfl, rfl⟩ :=
      access_next ha
    · exact of_sticky (dropped.trans (.runCommand hrun))
    · exact of_sticky (dropped.trans (.write _ r w))
    · exact of_sticky (dropped.trans ⟨rfl, id, id, fun r => by cases r <;> exact id⟩)
    · exact of_sticky (dropped.trans (.setBuffer _ buf _))
    · exact ⟨rfl, fun hreset _ => absurd (by rw [hhost]; rfl) hreset⟩
    · exact ⟨rfl, fun _ hpower => absurd (by rw [hhost]; rfl) hpower⟩

/-- Settles O6: no access but a `CMD` write and a reset changes `STATUS`; a rejected word and a failing command change no
flag, and a command that completes changes its own flags only. -/
theorem flagsChangeOnlyByNamedCommands : Obligations.FlagsChangeOnlyByNamedCommands := by
  intro s t f h hne
  by_contra hnot
  obtain ⟨hreset, hpower, hcmd⟩ : s.host.head? ≠ some .platformReset ∧ s.host.head? ≠ some .powerOn ∧
      ¬ ∃ w i, s.host.head? = some (.write 0 w) ∧ decode w = .ok i ∧ f ∈ writtenFlags i ∧
        t.status.err = 0 ∧ t.status.detail = 0 := by
    simpa only [not_or] using hnot
  by_cases hw : ∃ w, s.host.head? = some (.write 0 w)
  · obtain ⟨w, hw⟩ := hw
    obtain ⟨rest, hhost⟩ : ∃ rest, s.host = .write 0 w :: rest := by
      cases hs : s.host with
      | nil => simp [hs] at hw
      | cons a rest =>
        obtain rfl : a = .write 0 w := by simpa [hs] using hw
        exact ⟨rest, rfl⟩
    rw [step_of_cmdWrite hhost] at h
    obtain ⟨d, -, rfl⟩ | ⟨i, hi, hexec⟩ := runCommand_next h
    · exact hne (Status.flag_failed _ _ f)
    · by_cases hf : f ∈ writtenFlags i
      · obtain ⟨e, rfl⟩ | ⟨herr, hdetail, -⟩ := exec_ends hexec
        · exact hne (Status.flag_failed _ _ f)
        · exact hcmd ⟨w, i, hw, hi, hf, herr, hdetail⟩
      · exact hne (exec_flag hexec hf)
  · exact hne (by rw [step_status h (fun w hw' => hw ⟨w, hw'⟩) hreset hpower])

/-- Settles O4: the step of a `CMD` write runs what its word decodes to; with nothing pending the state stays. -/
theorem stepRunsTheDecodedCommand : Obligations.StepRunsTheDecodedCommand :=
  ⟨fun _ _ _ _ hhost hw => (step_of_cmdWrite hhost).trans (runCommand_of_ok hw _), fun s hs => by rw [step, hs]⟩

/-- Settles O25: INIT is `State.buildTables` and `State.succeed`. -/
theorem initMarksTheTablesBuilt : Obligations.InitMarksTheTablesBuilt := fun _ => rfl

end Sys2Proof.Machine
end

section
/-! PROOFS. Unspecified registers (10_state.md R53, 60_exceptions.md R360): every named update takes states the spec does
not tell apart to states it does not tell apart, and where the operands of a command are specified two such states hand
the same values to the updates it makes. -/

namespace Sys2Proof.Machine

open Sys2Proof

/-! ### States the spec does not tell apart -/

namespace SpecEqual

variable {s t : State}

/-- Equal states without their data registers have equal fields outside them. -/
theorem field {α : Type} {s t : State} (h : SpecEqual s t) (f : State → α)
    (hf : ∀ u : State, f u.control = f u := by exact fun _ => rfl) : f s = f t :=
  (hf s).symm.trans ((congrArg f h.1).trans (hf t))

theorem cfg (h : SpecEqual s t) : s.cfg = t.cfg := h.field State.cfg

theorem frame (h : SpecEqual s t) : s.frame = t.frame := h.field State.frame

theorem pb (h : SpecEqual s t) : s.pb = t.pb := h.field State.pb

theorem cb (h : SpecEqual s t) : s.cb = t.cb := h.field State.cb

theorem selectedTile (h : SpecEqual s t) : s.selectedTile = t.selectedTile := h.field State.selectedTile

theorem validation (h : SpecEqual s t) (i : Instr) : validation i s = validation i t :=
  h.field (Machine.validation i) fun u => by cases i <;> rfl

/-- The marks agree. -/
theorem specified (h : SpecEqual s t) (r : Reg) : s.specified r = t.specified r := by
  have := h.2 r
  simp only [State.option] at this
  cases hs : s.specified r <;> cases ht : t.specified r <;> simp_all

/-- A specified register holds the same value in both. -/
theorem read (h : SpecEqual s t) {r : Reg} (hr : s.specified r = true) : s.read r = t.read r := by
  have := h.2 r
  simpa only [State.option, hr, ← h.specified r, if_true, Option.some.injEq] using this

/-! ### The operands of a command -/

theorem pixels (h : SpecEqual s t) (hpix : ∀ r ∈ pixRegs, s.specified r = true) : s.pixels = t.pixels := by
  refine Tile.ext_get fun i => ?_
  rw [State.pixels, State.pixels, Tile.get_map, Tile.get_map]
  exact congrArg unpackPixel (h.read (hpix _ (mem_pixRegs i)))

theorem palette (h : SpecEqual s t) (hpal : ∀ k, s.specified (.pal k) = true) : s.palette = t.palette := by
  refine Quad.ext_get fun k => ?_
  rw [State.palette, State.palette, Quad.get_map, Quad.get_map]
  exact congrArg (fun w => (unpackPixel w).rgb) (h.read (hpal k))

theorem ep (h : SpecEqual s t) (hep : s.specified .ep = true) : s.ep.value = t.ep.value := h.read hep

theorem mask (h : SpecEqual s t) (hmask : s.specified .mask = true) : s.mask.value = t.mask.value := h.read hmask

theorem lowBlock (h : SpecEqual s t) (h0 : s.specified (.blk 0) = true) (h1 : s.specified (.blk 1) = true) :
    s.lowBlock = t.lowBlock :=
  congrArg₂ (fun v w => SubBlock.mk (wordBytes v) (wordBytes w)) (h.read h0) (h.read h1)

theorem highBlock (h : SpecEqual s t) (h2 : s.specified (.blk 2) = true) (h3 : s.specified (.blk 3) = true) :
    s.highBlock = t.highBlock :=
  congrArg₂ (fun v w => SubBlock.mk (wordBytes v) (wordBytes w)) (h.read h2) (h.read h3)

theorem blockOf (h : SpecEqual s t) {m : Mode} (hblk : ∀ r ∈ operandRegs (.dec m), s.specified r = true) :
    s.blockOf m = t.blockOf m := by
  cases m with
  | bc1 => exact congrArg Block.bc1 (h.lowBlock (hblk _ (by decide)) (hblk _ (by decide)))
  | bc3 =>
    exact congrArg₂ Block.bc3 (h.lowBlock (hblk _ (by decide)) (hblk _ (by decide)))
      (h.highBlock (hblk _ (by decide)) (hblk _ (by decide)))

/-! ### The updates -/

/-- An update that writes the same values to the same registers of both. -/
theorem updateRegs (h : SpecEqual s t) (f : State → State) {regs : List Reg} (hcontrol : (f s).control = (f t).control)
    (hwrites : ∀ u, WritesRegs regs u (f u)) (hread : ∀ r ∈ regs, (f s).read r = (f t).read r) :
    SpecEqual (f s) (f t) := by
  refine ⟨hcontrol, fun r => ?_⟩
  by_cases hmem : r ∈ regs
  · rw [State.option, State.option, (hwrites s).specified r hmem, (hwrites t).specified r hmem, hread r hmem]
  by_cases hr : r = .status
  · subst hr
    exact congrArg some (congrArg (fun u => u.read .status) hcontrol)
  · have option (u : State) : (f u).option r = u.option r := by
      obtain ⟨hread, hspec⟩ := (hwrites u).keeps r hr hmem
      rw [State.option, State.option, hread, hspec]
    rw [option, option, h.2 r]

/-- An update of the fields that are no data registers. -/
theorem update (h : SpecEqual s t) (f : State → State) (hcontrol : (f s).control = (f t).control)
    (hkeeps : ∀ u, WritesRegs [] u (f u)) : SpecEqual (f s) (f t) :=
  h.updateRegs f hcontrol hkeeps nofun

theorem mapStatus (h : SpecEqual s t) (f : Status → Status) : SpecEqual (s.mapStatus f) (t.mapStatus f) :=
  h.update (·.mapStatus f) (congrArg (·.mapStatus f) h.1) (writesRegs_mapStatus · f)

theorem succeed (h : SpecEqual s t) : SpecEqual s.succeed t.succeed := h.mapStatus _

theorem raise (h : SpecEqual s t) (e : CmdError) : SpecEqual (s.raise e) (t.raise e) := h.mapStatus _

theorem buildTables (h : SpecEqual s t) : SpecEqual s.buildTables t.buildTables :=
  h.update State.buildTables (congrArg State.buildTables h.1) writesRegs_buildTables

theorem setBuffer (h : SpecEqual s t) (buf : Buf) (m : Memory) : SpecEqual (s.setBuffer buf m) (t.setBuffer buf m) :=
  h.update (·.setBuffer buf m)
    (match buf with
      | .pb => congrArg (State.setBuffer · .pb m) h.1
      | .cb => congrArg (State.setBuffer · .cb m) h.1)
    (writesRegs_setBuffer · buf m)

theorem setRdata (h : SpecEqual s t) (d : BusData) : SpecEqual { s with rdata := d } { t with rdata := d } :=
  h.update (fun u => { u with rdata := d }) (congrArg (fun u : State => { u with rdata := d }) h.1)
    fun u => ⟨fun r _ _ => by cases r <;> exact ⟨rfl, rfl⟩, nofun⟩

theorem dropAccess (h : SpecEqual s t) : SpecEqual s.dropAccess t.dropAccess :=
  h.update State.dropAccess (congrArg State.dropAccess h.1)
    fun u => ⟨fun r _ _ => by cases r <;> exact ⟨rfl, rfl⟩, nofun⟩

theorem putEndpoints (h : SpecEqual s t) (e0 e1 : Half) : SpecEqual (s.putEndpoints e0 e1) (t.putEndpoints e0 e1) :=
  h.updateRegs (·.putEndpoints e0 e1) h.1 (writesRegs_putEndpoints · e0 e1)
    fun r hr => by rw [List.mem_singleton.mp hr]; rfl

theorem putMask (h : SpecEqual s t) (m : Word) : SpecEqual (s.putMask m) (t.putMask m) :=
  h.updateRegs (·.putMask m) h.1 (writesRegs_putMask · m) fun r hr => by rw [List.mem_singleton.mp hr]; rfl

theorem putPixels (h : SpecEqual s t) (p : Tile Pixel) : SpecEqual (s.putPixels p) (t.putPixels p) :=
  h.updateRegs (·.putPixels p) h.1 (writesRegs_putPixels · p)
    fun r hr => by obtain ⟨i, rfl⟩ := mem_pixRegs_iff.mp hr; rfl

theorem putPalette (h : SpecEqual s t) (p : Quad RGB) : SpecEqual (s.putPalette p) (t.putPalette p) :=
  h.updateRegs (·.putPalette p) h.1 (writesRegs_putPalette · p) fun r hr => by
    simp only [List.mem_cons, List.not_mem_nil, or_false] at hr
    rcases hr with rfl | rfl | rfl | rfl <;> rfl

theorem putLowBlock (h : SpecEqual s t) (sb : SubBlock) : SpecEqual (s.putLowBlock sb) (t.putLowBlock sb) :=
  h.updateRegs (·.putLowBlock sb) h.1 (writesRegs_putLowBlock · sb) fun r hr => by
    simp only [List.mem_cons, List.not_mem_nil, or_false] at hr
    rcases hr with rfl | rfl <;> rfl

theorem putHighBlock (h : SpecEqual s t) (sb : SubBlock) : SpecEqual (s.putHighBlock sb) (t.putHighBlock sb) :=
  h.updateRegs (·.putHighBlock sb) h.1 (writesRegs_putHighBlock · sb) fun r hr => by
    simp only [List.mem_cons, List.not_mem_nil, or_false] at hr
    rcases hr with rfl | rfl <;> rfl

theorem putBlock (h : SpecEqual s t) (b : Block) : SpecEqual (s.putBlock b) (t.putBlock b) := by
  cases b with
  | bc1 c => exact h.putLowBlock c
  | bc3 a c => exact (h.putLowBlock a).putHighBlock c

theorem putColourBlock (h : SpecEqual s t) (m : Mode) (sb : SubBlock) :
    SpecEqual (s.putColourBlock m sb) (t.putColourBlock m sb) := by
  cases m with
  | bc1 => exact h.putLowBlock sb
  | bc3 => exact h.putHighBlock sb

end SpecEqual

/-! ### The commands and the accesses -/

/-- Two states the spec does not tell apart run a command whose operands are specified to outcomes it does not tell
apart. -/
theorem exec_specEqual {i : Instr} {s t : State} (h : SpecEqual s t) (hcheck : validation i s = none)
    (hspec : ∀ r ∈ operandRegs i, s.specified r = true) : OutcomeEqual (exec i s) (exec i t) := by
  have hcheck' : validation i t = none := h.validation i ▸ hcheck
  cases i with
  | init => exact h.buildTables.succeed
  | enc m q =>
    simp only [exec, execEnc, ← h.pixels hspec, ← h.cfg]
    exact ((((h.buildTables.putBlock _).putEndpoints _ _).putMask _).mapStatus _).succeed
  | dec m =>
    simp only [exec, execDec, ← h.blockOf hspec, ← h.cfg]
    exact (h.buildTables.putPixels _).succeed
  | encimg m q =>
    simp only [exec, execEncimg, show checkFrame _ s = none from hcheck, show checkFrame _ t = none from hcheck',
      ← h.cfg, ← h.frame, ← h.pb, ← h.cb]
    cases encodeTiles s.cfg m q s.frame s.pb s.frame.nb 0 s.cb with
    | error e => rfl
    | ok cb => exact (h.buildTables.setBuffer .cb cb).succeed
  | decimg m =>
    simp only [exec, execDecimg, show checkFrame _ s = none from hcheck, show checkFrame _ t = none from hcheck',
      ← h.cfg, ← h.frame, ← h.pb, ← h.cb]
    cases decodeTiles s.cfg m s.frame s.cb s.frame.nb 0 s.pb with
    | error e => rfl
    | ok pb => exact (h.buildTables.setBuffer .pb pb).succeed
  | getblk =>
    simp only [exec, execGetblk, show checkFrame _ s = none from hcheck, show checkFrame _ t = none from hcheck',
      ← h.pb, ← h.selectedTile]
    cases readTile s.pb s.selectedTile with
    | error e => rfl
    | ok p => exact (h.putPixels p).succeed
  | putblk =>
    simp only [exec, execPutblk, show checkFrame _ s = none from hcheck, show checkFrame _ t = none from hcheck',
      ← h.pb, ← h.selectedTile, ← h.pixels hspec]
    exact (h.setBuffer .pb _).succeed
  | estc =>
    simp only [exec, execEstc, ← h.pixels hspec, ← h.cfg]
    exact (h.putEndpoints _ _).succeed
  | palc =>
    simp only [exec, execPalc, ← h.ep (hspec _ (by decide)), ← h.cfg]
    exact (h.buildTables.putPalette _).succeed
  | matchc q =>
    have hpal (k : Fin 4) : s.specified (.pal k) = true :=
      hspec _ (List.mem_append_right _ (by fin_cases k <;> decide))
    simp only [exec, execMatchc, ← h.pixels fun r hr => hspec r (List.mem_append_left _ hr), ← h.palette hpal, ← h.cfg]
    exact (h.putMask _).succeed
  | refc =>
    simp only [exec, execRefc, ← h.pixels fun r hr => hspec r (List.mem_append_left _ hr),
      ← h.ep (hspec _ (List.mem_append_right _ (by decide))), ← h.mask (hspec _ (List.mem_append_right _ (by decide))),
      ← h.cfg]
    exact ((h.putEndpoints _ _).mapStatus _).succeed
  | enca =>
    simp only [exec, execEnca, ← h.pixels hspec, ← h.cfg]
    exact (h.putLowBlock _).succeed
  | flatc =>
    simp only [exec, execFlatc, ← h.pixels hspec, ← h.cfg]
    exact (((h.buildTables.putEndpoints _ _).putMask _).mapStatus _).succeed
  | ordc m =>
    simp only [exec, execOrdc, ← h.ep (hspec _ (by simp [operandRegs])), ← h.mask (hspec _ (by simp [operandRegs]))]
    exact ((((h.putColourBlock m _).putEndpoints _ _).putMask _).mapStatus _).succeed

/-- A command the spec defines: it fails the checks both states fail, or its operands are specified. -/
theorem exec_outcomeEqual {i : Instr} {s t : State} (h : SpecEqual s t) (hdef : commandDefined i s = true) :
    OutcomeEqual (exec i s) (exec i t) := by
  cases hcheck : validation i s with
  | some e =>
    rw [exec_of_validation_some hcheck, exec_of_validation_some (h.validation i ▸ hcheck)]
    exact h.raise e
  | none =>
    refine exec_specEqual h hcheck fun r hr => ?_
    simp only [commandDefined, hcheck, Option.isSome_none, Bool.false_or, List.all_eq_true] at hdef
    exact hdef r hr

theorem SpecEqual.refl (s : State) : SpecEqual s s := ⟨rfl, fun _ => rfl⟩

theorem writesRegs_write (s : State) (r : Reg) (v : Word) : WritesRegs [r] s (s.write r v) :=
  ⟨fun _ _ hmem => read_write_other s v (mt List.mem_singleton.mpr hmem),
    fun r' hmem => by rw [List.mem_singleton.mp hmem]; exact specified_write s r v⟩

theorem SpecEqual.write {s t : State} (h : SpecEqual s t) (r : Reg) (v : Word) :
    SpecEqual (s.write r v) (t.write r v) := by
  have control (u : State) : (u.write r v).control = (u.control.write r v).control := by cases r <;> rfl
  have hcontrol : (s.write r v).control = (t.write r v).control := by rw [control s, control t, h.1]
  refine h.updateRegs (·.write r v) hcontrol (writesRegs_write · r v) fun r' hmem => ?_
  obtain rfl := List.mem_singleton.mp hmem
  by_cases hr : r' = .status
  · subst hr
    exact congrArg (fun u => u.read .status) hcontrol
  · exact (read_write_same s v hr).trans (read_write_same t v hr).symm

theorem refusedOffset_eq_none_iff {offset : Nat} : refusedOffset offset = none ↔ offset % 4 = 0 ∧ offset < 256 := by
  by_cases halign : offset % 4 = 0
  · rcases Nat.lt_or_ge offset 256 with hin | hout
    · simp [refusedOffset, regWindow, halign, hin, hin.not_ge]
    · simp [refusedOffset, regWindow, halign, hout, hout.not_gt]
  · simp [refusedOffset, halign]

/-- The register at word number `n` of the window has offset `4n` (10_state.md R32). -/
theorem offset_of_mem_regOfWordNumber : ∀ n < 64, ∀ r ∈ regOfWordNumber n, r.offset = 4 * n := by
  decide

/-- The register at an accepted offset has that offset. -/
theorem offset_of_regOfWordNumber {offset : Nat} {r : Reg} (haccepted : refusedOffset offset = none)
    (hreg : regOfWordNumber (offset / 4) = some r) : offset = r.offset := by
  obtain ⟨halign, hlt⟩ := refusedOffset_eq_none_iff.mp haccepted
  rw [offset_of_mem_regOfWordNumber (offset / 4) (by omega) r hreg]
  omega

/-- The spec does not define more or less of a command once its word is stored. -/
theorem commandDefined_write_cmd (i : Instr) (s : State) (w : Word) :
    commandDefined i (s.write .cmd w) = commandDefined i s := by
  have hvalid : validation i (s.write .cmd w) = validation i s := by cases i <;> rfl
  have hspec : (s.write .cmd w).specified = s.specified := by funext r; cases r <;> rfl
  rw [commandDefined, commandDefined, hvalid, hspec]

theorem runCommand_outcomeEqual {s t : State} (h : SpecEqual s t) {w : Word}
    (hdef : accessDefined (.write (Reg.offset .cmd) w) s = true) : OutcomeEqual (runCommand w s) (runCommand w t) := by
  simp only [accessDefined, if_true] at hdef
  unfold runCommand
  cases hw : decode w with
  | error d => exact (h.write .cmd w).raise _
  | ok i =>
    rw [hw] at hdef
    exact exec_outcomeEqual (h.write .cmd w) ((commandDefined_write_cmd i s w).trans hdef)

theorem hostWrite_outcomeEqual {s t : State} (h : SpecEqual s t) {offset : Nat} {v : Word}
    (hdef : accessDefined (.write offset v) s = true) : OutcomeEqual (hostWrite offset v s) (hostWrite offset v t) := by
  unfold hostWrite
  cases haccepted : refusedOffset offset with
  | some r => rfl
  | none =>
    cases hreg : regOfWordNumber (offset / 4) with
    | none => exact h
    | some r =>
      cases r with
      | cmd => exact runCommand_outcomeEqual h (offset_of_regOfWordNumber haccepted hreg ▸ hdef)
      | _ => exact h.write _ v

theorem hostRead_outcomeEqual {s t : State} (h : SpecEqual s t) {offset : Nat}
    (hdef : accessDefined (.read offset) s = true) : OutcomeEqual (hostRead offset s) (hostRead offset t) := by
  unfold hostRead
  cases refusedOffset offset with
  | some r => rfl
  | none =>
    simp only [accessDefined] at hdef
    cases hreg : regOfWordNumber (offset / 4) with
    | none => exact h.setRdata _
    | some r =>
      rw [hreg] at hdef
      simp only [← h.read hdef]
      exact h.setRdata _

theorem access_outcomeEqual {s t : State} (h : SpecEqual s t) {a : HostAccess} (hdef : accessDefined a s = true) :
    OutcomeEqual (access a s) (access a t) := by
  cases a with
  | write offset v => exact hostWrite_outcomeEqual h hdef
  | read offset => exact hostRead_outcomeEqual h hdef
  | narrow offset => rfl
  | writeBuf buf offset bytes =>
    have hbuf : s.buffer buf = t.buffer buf := by cases buf <;> simp only [State.buffer, h.pb, h.cb]
    simp only [access, hostWriteBuf, ← hbuf]
    split
    · rfl
    · exact h.setBuffer buf _
  | readBuf buf offset count =>
    have hbuf : s.buffer buf = t.buffer buf := by cases buf <;> simp only [State.buffer, h.pb, h.cb]
    simp only [access, hostReadBuf, ← hbuf]
    split
    · rfl
    · cases readBytes buf (s.buffer buf) offset count with
      | error e => rfl
      | ok bs => exact h.setRdata _
  | platformReset =>
    have same : s.platformReset = t.platformReset := h.field State.platformReset
    show SpecEqual s.platformReset t.platformReset
    exact same ▸ .refl _
  | powerOn =>
    have same : s.powerOn = t.powerOn := h.field State.powerOn
    show SpecEqual s.powerOn t.powerOn
    exact same ▸ .refl _

/-- Settles O7: both states have the same oldest access pending, and each access the spec defines sees the same values
in both. -/
theorem unspecifiedBitsDoNotReachDefinedRuns : Obligations.UnspecifiedBitsDoNotReachDefinedRuns := by
  intro s t h hdef
  have hhost : s.host = t.host := h.field State.host
  unfold step
  rw [← hhost]
  unfold SpecDefined at hdef
  cases hs : s.host with
  | nil => exact h
  | cons a rest =>
    rw [hs] at hdef
    exact access_outcomeEqual h.dropAccess hdef

end Sys2Proof.Machine
end

section
/-! PROOFS. Host accesses to the registers (10_state.md R32, R33, R35): the offset of a register is accepted and stands for
that register, and the bits of `STATUS` are those of its fields. -/

namespace Sys2Proof.Machine

open Sys2Proof

/-! ### The bits of `STATUS` -/

/-- The bits of `STATUS` from bit 0 up; those past the list are 0 (10_state.md R35, R38, R40). -/
theorem getLsbD_statusWord (st : Status) (lutReady : Bool) (i : Nat) :
    (statusWord st lutReady).getLsbD i =
      [st.err.getLsbD 0, st.err.getLsbD 1, false, false, st.detail.getLsbD 0, st.detail.getLsbD 1, st.detail.getLsbD 2,
        st.detail.getLsbD 3, lutReady, st.refChanged, st.refSkipped, st.flat, st.swapped, false, false,
        st.errSeen].getD i false := by
  simp only [statusWord, BitVec.getLsbD_append]
  rcases Nat.lt_or_ge i 16 with h | h
  · interval_cases i <;> simp
  · rw [List.getD_eq_default _ _ h]
    repeat rw [if_neg (by omega)]
    simp

/-- A field of `STATUS`, bit by bit. -/
theorem extract_statusWord (st : Status) (lutReady : Bool) {lo width : Nat} {v : BitVec width}
    (h : ∀ i < width, (statusWord st lutReady).getLsbD (lo + i) = v.getLsbD i) :
    (statusWord st lutReady).extractLsb' lo width = v := by
  apply BitVec.eq_of_getLsbD_eq
  intro i hi
  rw [BitVec.getLsbD_extractLsb', h i hi]
  simp [hi]

/-- Settles O18: each field read off the bits of `STATUS`. -/
theorem statusWordHasTheStatedFields : Obligations.StatusWordHasTheStatedFields := by
  intro s
  have bit := getLsbD_statusWord s.status s.lutReady
  have field {lo width : Nat} {v : BitVec width} := extract_statusWord s.status s.lutReady (lo := lo) (v := v)
  refine ⟨field fun i hi => ?_, field fun i hi => ?_, field fun i hi => ?_, bit 8, bit 9, bit 10, bit 11, bit 12,
    field fun i hi => ?_, bit 15, field fun i hi => ?_⟩ <;> rw [bit]
  · interval_cases i <;> rfl
  · interval_cases i <;> rfl
  · interval_cases i <;> rfl
  · interval_cases i <;> rfl
  · rw [List.getD_eq_default _ _ (Nat.le_add_right 16 i)]
    exact BitVec.getLsbD_zero.symm

/-- The reserved bits of `STATUS` read 0. -/
theorem statusWord_and_reserved (st : Status) (lutReady : Bool) : statusWord st lutReady &&& 0xFFFF600C = 0 := by
  apply BitVec.eq_of_getLsbD_eq
  intro i hi
  rw [BitVec.getLsbD_and, getLsbD_statusWord]
  interval_cases i <;> simp

/-! ### Accesses at the offset of a register -/

theorem access_write_offset {r : Reg} (hr : r ≠ .cmd) (v : Word) (s : State) :
    access (.write r.offset v) s = .next (s.write r v) := by
  obtain ⟨haccepted, hreg⟩ := regOfWordNumber_offset r
  rw [access, hostWrite, haccepted, hreg]
  cases r
  case cmd => exact absurd rfl hr
  all_goals rfl

theorem access_read_offset (r : Reg) (s : State) :
    access (.read r.offset) s = .next { s with rdata := .word (s.read r) } := by
  obtain ⟨haccepted, hreg⟩ := regOfWordNumber_offset r
  rw [access, hostRead, haccepted, hreg]

theorem access_write_cmd (v : Word) (s : State) : access (.write (Reg.offset .cmd) v) s = runCommand v s := rfl

theorem runCommand_stores_word {w : Word} {s t : State} (h : runCommand w s = .next t) : t.cmd = w := by
  obtain ⟨d, -, rfl⟩ | ⟨i, -, hexec⟩ := runCommand_next h
  · rfl
  · exact (exec_sameControl hexec).cmd

/-! ### Accesses at other offsets -/

/-- The word numbers between the registers stand for none (10_state.md R32). -/
theorem regOfWordNumber_reserved : ∀ n < 64, (11 ≤ n ∧ n < 16) ∨ 40 ≤ n → regOfWordNumber n = none := by
  decide

theorem refusedOffset_misaligned {offset : Nat} (h : offset % 4 ≠ 0) : refusedOffset offset = some (.misaligned offset) :=
  if_pos h

/-- Settles O17: accesses at a register's offset act on that register; a reserved offset stands for none, and the others
are refused. -/
theorem registerAccessFollowsTheMap : Obligations.RegisterAccessFollowsTheMap := by
  refine ⟨rfl, fun _ => rfl, fun _ => rfl, fun _ => rfl,
    fun _ => ⟨rfl, rfl, rfl, rfl, rfl, rfl, rfl, rfl, rfl, rfl, fun _ => rfl, fun _ => rfl, fun _ => rfl⟩,
    fun s r v hcmd hstatus => ?_, fun s t v h => runCommand_stores_word (access_write_cmd v s ▸ h), fun s v => rfl,
    fun s => ⟨statusWord_and_reserved s.status s.lutReady, ?_⟩, fun s r => access_read_offset r s,
    fun s n v hn => ?_, fun s offset v h => ?_, fun _ _ => rfl⟩
  · refine ⟨_, access_write_offset hcmd v s, read_write_same s v hstatus, specified_write s r v,
      fun r' hr' => read_write_other s v hr', ?_⟩
    cases r <;> exact ⟨rfl, rfl, rfl, rfl, rfl⟩
  · rw [State.read, BitVec.and_assoc]
    exact BitVec.and_zero
  · have haccepted : refusedOffset (4 * n) = none := refusedOffset_eq_none_iff.mpr (by omega)
    have hreg : regOfWordNumber (4 * n / 4) = none := by
      rw [Nat.mul_div_cancel_left n (by decide)]
      exact regOfWordNumber_reserved n (by omega) (by omega)
    simp only [access, hostRead, hostWrite, haccepted, hreg, and_self]
  · simp only [access, hostRead, hostWrite, refusedOffset_misaligned h, and_self]

end Sys2Proof.Machine
end

section
/-! PROOFS. Accesses to the buffers (20_memory.md R81, R89, 60_exceptions.md R360): what a host read and write of a range
of bytes does, and where a command that reads an unwritten byte stops. -/

namespace Sys2Proof.Machine

open Sys2Proof

/-! ### Host accesses -/

@[simp] theorem State.buffer_setBuffer_same (s : State) (buf : Buf) (m : Memory) : (s.setBuffer buf m).buffer buf = m := by
  cases buf <;> rfl

theorem State.buffer_setBuffer_other (s : State) {buf other : Buf} (m : Memory) (h : other ≠ buf) :
    (s.setBuffer buf m).buffer other = s.buffer other := by
  cases buf with
  | pb =>
    cases other with
    | pb => exact absurd rfl h
    | cb => rfl
  | cb =>
    cases other with
    | pb => rfl
    | cb => exact absurd rfl h

theorem access_writeBuf {buf : Buf} {offset : Nat} {bytes : List Byte} (h : offset + bytes.length ≤ bufferSize)
    (s : State) : access (.writeBuf buf offset bytes) s = .next (s.setBuffer buf ((s.buffer buf).writeBytes offset bytes)) :=
  if_neg h.not_gt

theorem access_readBuf_ok {buf : Buf} {offset count : Nat} {bs : List Byte} {s : State} (h : offset + count ≤ bufferSize)
    (hread : readBytes buf (s.buffer buf) offset count = .ok bs) :
    access (.readBuf buf offset count) s = .next { s with rdata := .bytes bs } := by
  rw [access, hostReadBuf, if_neg h.not_gt, hread]

theorem access_readBuf_error {buf : Buf} {offset count : Nat} {e : Fault} {s : State} (h : offset + count ≤ bufferSize)
    (hread : readBytes buf (s.buffer buf) offset count = .error e) :
    access (.readBuf buf offset count) s = .fault e := by
  rw [access, hostReadBuf, if_neg h.not_gt, hread]

/-- A read of a range with an unwritten byte fails. -/
theorem readBytes_unwritten (buf : Buf) {m : Memory} {offset count a : Nat} (hlo : offset ≤ a) (hhi : a < offset + count)
    (h : m.read a = none) : ∃ e, readBytes buf m offset count = .error e := by
  cases hread : readBytes buf m offset count with
  | error e => exact ⟨e, rfl⟩
  | ok bs =>
    obtain ⟨hlen, hall⟩ := (readBytes_eq_ok buf m offset count bs).mp hread
    have hbyte := hall (a - offset) (by omega)
    rw [Nat.add_sub_cancel' hlo, h, List.getElem?_eq_getElem (by omega)] at hbyte
    cases hbyte

/-- The bytes of a range that was just written. -/
theorem Memory.read_writeBytes_at (m : Memory) (a : Nat) (bs : List Byte) {k : Nat} (hk : k < bs.length) :
    (m.writeBytes a bs).read (a + k) = bs[k]? := by
  rw [Memory.read_writeBytes, if_pos (by omega), Nat.add_sub_cancel_left]

/-- Settles O19: a write and a read of a range are `Memory.writeBytes` and `readBytes`, below offset 2^32. -/
theorem bufferReadReturnsTheLastWrite : Obligations.BufferReadReturnsTheLastWrite := by
  refine ⟨fun s buf offset bytes hsize => ?_, fun s buf offset count hsize => ⟨fun hwritten => ?_, ?_⟩, ?_⟩
  · refine ⟨_, _, access_writeBuf hsize s, access_readBuf_ok (bs := bytes) hsize ?_, rfl, fun k hk => ?_, fun a ha => ?_,
      fun other hother => s.buffer_setBuffer_other _ hother, fun r => by cases buf <;> cases r <;> exact ⟨rfl, rfl⟩⟩
    · rw [readBytes_eq_ok, State.buffer_setBuffer_same]
      exact ⟨rfl, fun k hk => Memory.read_writeBytes_at _ _ _ hk⟩
    · rw [State.buffer_setBuffer_same, Memory.read_writeBytes_at _ _ _ hk]
    · rw [State.buffer_setBuffer_same, Memory.read_writeBytes, if_neg (by omega)]
  · obtain ⟨bs, hread⟩ := readBytes_written buf (s.buffer buf) hwritten
    obtain ⟨hlen, hall⟩ := (readBytes_eq_ok _ _ _ _ _).mp hread
    exact ⟨bs, access_readBuf_ok hsize hread, hlen, fun k hk => (hall k hk).symm⟩
  · rintro ⟨a, hlo, hhi, hnone⟩
    obtain ⟨e, hread⟩ := readBytes_unwritten buf hlo hhi hnone
    obtain ⟨b, hblo, hbhi, rfl, hbnone⟩ := readBytes_eq_error buf _ hread
    exact ⟨b, hblo, hbhi, hbnone, access_readBuf_error hsize hread⟩
  · rintro s buf offset count bytes hsize rfl
    exact ⟨max offset bufferSize, le_max_right _ _, if_pos hsize, if_pos hsize⟩

/-! ### Commands that read a buffer -/

/-- The pixel at (x, y) of the frame is one of those ENCIMG reads for its tile. -/
theorem get_clampedAddrs_pixel (f : Frame) {x y : Nat} (hx : x < f.w) (hy : y < f.h) :
    (clampedAddrs f (x / 4) (y / 4)).get ⟨4 * (y % 4) + x % 4, by omega⟩ = f.pixelAddr x y := by
  rw [get_clampedAddrs]
  congr 1 <;> simp only <;> omega

/-- The tile of a pixel of the frame has a number below `NB` and its place in the raster (46_frame.md R310). -/
theorem Frame.tile_of_pixel (f : Frame) {x y : Nat} (hx : x < f.w) (hy : y < f.h) :
    y / 4 * f.bw + x / 4 < f.nb ∧ (y / 4 * f.bw + x / 4) % f.bw = x / 4 ∧ (y / 4 * f.bw + x / 4) / f.bw = y / 4 := by
  have hbx : x / 4 < f.bw := by rw [Frame.bw]; omega
  have hbY : y / 4 < f.bh := by rw [Frame.bh]; omega
  exact ⟨f.tile_lt hbx hbY, f.tile_place hbx⟩

/-- When ENCIMG has read every tile, every byte of the frame is written. -/
theorem written_of_frameTiles {f : Frame} {pb : Memory} (h : ∀ n < f.nb, ∃ t, frameTile f pb n = .ok t) {a : Nat}
    (ha : a < f.pbSize) : (pb.read a).isSome = true := by
  obtain ⟨x, y, k, hx, hy, hk, rfl⟩ := f.exists_pixel ha
  obtain ⟨hn, hmod, hdiv⟩ := f.tile_of_pixel hx hy
  obtain ⟨t, ht⟩ := h _ hn
  rw [frameTile, hmod, hdiv] at ht
  have hpixel := (readTile_eq_ok _ _ _).mp ht ⟨4 * (y % 4) + x % 4, by omega⟩
  rw [get_clampedAddrs_pixel f hx hy, readPixel_eq_ok] at hpixel
  obtain ⟨hr, hg, hb, hal⟩ := hpixel
  interval_cases k <;> simp [hr, hg, hb, hal]

/-- A frame tile that is not read stops at an unwritten byte of the frame. -/
theorem frameTile_eq_error {f : Frame} (hw : 0 < f.w) (hh : 0 < f.h) {pb : Memory} {n : Nat} {e : Fault}
    (h : frameTile f pb n = .error e) : ∃ a, e = .uninit .pb a ∧ a < f.pbSize ∧ pb.read a = none := by
  obtain ⟨i, k, he, hnone⟩ := readTile_eq_error _ _ _ h
  have := clampedAddrs_lt f hw hh (n % f.bw) (n / f.bw) i
  exact ⟨_, he, by omega, hnone⟩

/-- When DECIMG has read every block, every byte of the frame's blocks is written. -/
theorem written_of_readBlocks {f : Frame} {m : Mode} {cb : Memory} (h : ∀ n < f.nb, ∃ b, readBlock m cb n = .ok b)
    {a : Nat} (ha : a < f.cbSize m) : (cb.read a).isSome = true := by
  have hpos := Mode.blockSize_pos m
  obtain ⟨b, hb⟩ := h (a / Mode.blockSize m) ((Nat.div_lt_iff_lt_mul hpos).mpr ha)
  obtain ⟨hlen, hbytes⟩ := readBlock_bytes hb
  have hk := Nat.mod_lt a hpos
  have hbyte := hbytes _ hk
  rw [Nat.div_add_mod', List.getElem?_eq_getElem (by omega)] at hbyte
  rw [← hbyte]
  rfl

/-- A block that is not read stops at an unwritten byte of the frame's blocks. -/
theorem readBlock_error_in_frame {f : Frame} {m : Mode} {cb : Memory} {n : Nat} (hn : n < f.nb) {e : Fault}
    (h : readBlock m cb n = .error e) : ∃ a, e = .uninit .cb a ∧ a < f.cbSize m ∧ cb.read a = none := by
  obtain ⟨k, hk, he, hnone⟩ := readBlock_eq_error h
  refine ⟨_, he, ?_, hnone⟩
  have := Nat.mul_le_mul_right (Mode.blockSize m) (show n + 1 ≤ f.nb from hn)
  rw [Nat.succ_mul] at this
  rw [Frame.cbSize]
  omega

/-- Settles O16: a command that completes a read has all its bytes; so one that lacks a byte fails, and it
fails at such a byte. -/
theorem unwrittenBytesStopTheReaders : Obligations.UnwrittenBytesStopTheReaders := by
  refine ⟨fun s hc h => ?_, fun m q s hc h => ?_, fun m s hc h => ?_⟩
  · obtain ⟨a, ⟨i, hlo, hhi⟩, hnone⟩ := h
    obtain ⟨e, he⟩ := readTile_unwritten s.pb s.selectedTile i ⟨a - s.selectedTile.get i, by omega⟩
      (by rwa [Nat.add_sub_cancel' hlo])
    obtain ⟨j, k, rfl, hnone'⟩ := readTile_eq_error _ _ _ he
    exact ⟨_, by simp only [exec, execGetblk, hc, he], ⟨j, by omega, by omega⟩, hnone'⟩
  · obtain ⟨a, ha, hnone⟩ := h
    obtain ⟨-, -, hw, hh⟩ := checkFrame_dims hc
    cases hloop : encodeTiles s.cfg m q s.frame s.pb s.frame.nb 0 s.cb with
    | error e =>
      obtain ⟨n, -, -, hn⟩ := encodeTiles_error _ _ _ _ _ _ _ _ _ hloop
      obtain ⟨b, rfl, hb, hbnone⟩ := frameTile_eq_error hw hh hn
      exact ⟨b, by simp only [exec, execEncimg, hc, hloop], hb, hbnone⟩
    | ok cb =>
      have hread := (encodeTiles_ok _ _ _ _ _ _ _ _ _ hloop).1
      have := written_of_frameTiles (fun n hn => (hread n (Nat.zero_le n) (by omega)).imp fun _ => And.left) ha
      simp [hnone] at this
  · obtain ⟨a, ha, hnone⟩ := h
    cases hloop : decodeTiles s.cfg m s.frame s.cb s.frame.nb 0 s.pb with
    | error e =>
      obtain ⟨n, -, hn, he⟩ := decodeTiles_error _ _ _ _ _ _ _ _ hloop
      obtain ⟨b, rfl, hb, hbnone⟩ := readBlock_error_in_frame (f := s.frame) (by omega) he
      exact ⟨b, by simp only [exec, execDecimg, hc, hloop], hb, hbnone⟩
    | ok pb =>
      have hread := decodeTiles_reads _ _ _ _ _ _ _ _ hloop
      have := written_of_readBlocks (fun n hn => hread n (Nat.zero_le n) (by omega)) ha
      simp [hnone] at this

end Sys2Proof.Machine
end

section
/-! PROOFS. A system of several units (10_state.md R54): a step of one replaces that unit in the list. -/

namespace Sys2Proof.Machine

open Sys2Proof

theorem System.stepUnit_eq_next {sys sys' : System} {k : Fin sys.units.length} :
    sys.stepUnit k = .next sys' ↔ ∃ s, step (sys.units.get k) = .next s ∧ sys' = ⟨sys.units.set k.val s⟩ := by
  rw [System.stepUnit]
  cases step (sys.units.get k) with
  | next s => simp [eq_comm]
  | fault e => simp
  | refused r => simp

/-- A unit that was not replaced runs as in the system before. -/
theorem System.get_set_other {sys : System} {k : Nat} {s : State} (l : Fin (sys.units.set k s).length) (h : l.val ≠ k)
    (hl : l.val < sys.units.length) : (sys.units.set k s).get l = sys.units.get ⟨l.val, hl⟩ := by
  simp [List.getElem_set_ne h.symm]

/-- Settles O60: the new list differs at one number, and replacements at two numbers commute. -/
theorem unitsDoNotInterfere : Obligations.UnitsDoNotInterfere := by
  intro sys sys1 k h
  obtain ⟨s, hs, rfl⟩ := System.stepUnit_eq_next.mp h
  refine ⟨List.length_set, fun t ht => ?_, fun j hj => List.getElem?_set_ne hj.symm, fun l sys2 hne h2 => ?_⟩
  · rw [List.getElem?_set_self k.isLt, Option.some.injEq] at ht
    rw [hs, ht]
  · obtain ⟨u, hu, rfl⟩ := System.stepUnit_eq_next.mp h2
    have hl : l.val < sys.units.length := lt_of_lt_of_eq l.isLt List.length_set
    have hk : k.val < (sys.units.set l.val u).length := lt_of_lt_of_eq k.isLt List.length_set.symm
    rw [System.get_set_other l hne hl] at hu
    refine ⟨⟨l.val, hl⟩, ⟨sys.units.set l.val u⟩, ⟨k.val, hk⟩, rfl, rfl, System.stepUnit_eq_next.mpr ⟨u, hu, rfl⟩,
      System.stepUnit_eq_next.mpr ⟨s, ?_, ?_⟩⟩
    · rw [System.get_set_other ⟨k.val, hk⟩ hne.symm k.isLt]
      exact hs
    · exact congrArg System.mk (List.set_comm _ _ hne.symm)

end Sys2Proof.Machine
end

section
/-! PROOFS. The data formats (30_encoding.md R111 to R116, 10_state.md R45, R49): a join of fields as a number, a field of
a number, and the packings that undo each other. -/

namespace Sys2Proof.Machine

open Sys2Proof

/-! ### Joins and fields as numbers -/

theorem toNat_join {m n : Nat} (x : BitVec m) (y : BitVec n) : (x ++ y).toNat = x.toNat * 2 ^ n + y.toNat := by
  rw [BitVec.toNat_append, ← Nat.shiftLeft_add_eq_or_of_lt y.isLt, Nat.shiftLeft_eq]

theorem toNat_field {n : Nat} (x : BitVec n) (k l : Nat) : (x.extractLsb' k l).toNat = x.toNat / 2 ^ k % 2 ^ l := by
  rw [BitVec.extractLsb'_toNat, Nat.shiftRight_eq_div_pow]

/-! ### RGB565 (30_encoding.md R111) -/

@[simp] theorem red5_rgb565 (r : BitVec 5) (g : BitVec 6) (b : BitVec 5) : red5 (rgb565 r g b) = r :=
  (extract_append_high (r ++ g) b 6 5).trans ((extract_append_high r g 0 5).trans (extract_self r))

@[simp] theorem green6_rgb565 (r : BitVec 5) (g : BitVec 6) (b : BitVec 5) : green6 (rgb565 r g b) = g :=
  (extract_append_high (r ++ g) b 0 6).trans (extract_append_low r g)

@[simp] theorem blue5_rgb565 (r : BitVec 5) (g : BitVec 6) (b : BitVec 5) : blue5 (rgb565 r g b) = b :=
  extract_append_low (r ++ g) b

theorem toNat_rgb565 (r : BitVec 5) (g : BitVec 6) (b : BitVec 5) :
    (rgb565 r g b).toNat = r.toNat * 2 ^ 11 + g.toNat * 2 ^ 5 + b.toNat := by
  rw [rgb565, toNat_join, toNat_join]
  ring

/-! ### Colour blocks and masks (30_encoding.md R112, R113) -/

theorem packColourBlock_bytes (c0 c1 : Half) (mask : Word) :
    (packColourBlock c0 c1 mask).toList.map BitVec.toNat =
      [c0.toNat % 256, c0.toNat / 256, c1.toNat % 256, c1.toNat / 256, mask.toNat % 256, mask.toNat / 2 ^ 8 % 256,
       mask.toNat / 2 ^ 16 % 256, mask.toNat / 2 ^ 24] := by
  simp only [packColourBlock, wordBytes, SubBlock.toList, Quad.toList, List.cons_append, List.nil_append, List.map_cons,
    List.map_nil, toNat_field, List.cons.injEq, and_true]
  omega

theorem toNat_maskIndex (mask : Word) (i : Fin 16) : (maskIndex mask i).toNat = mask.toNat / 4 ^ i.val % 4 := by
  rw [maskIndex, toNat_field, pow_mul]
  rfl

@[simp] theorem maskIndex_packMask (t : Tile (BitVec 2)) (i : Fin 16) : maskIndex (packMask t) i = t.get i := by
  rw [← get_unpackMask, unpackMask_packMask]

/-! ### Alpha sub-blocks (30_encoding.md R115) -/

theorem toNat_fieldLe (b : SubBlock) :
    b.fieldLe.toNat = b.lo.q2.toNat + b.lo.q3.toNat * 2 ^ 8 + b.hi.q0.toNat * 2 ^ 16 + b.hi.q1.toNat * 2 ^ 24 +
      b.hi.q2.toNat * 2 ^ 32 + b.hi.q3.toNat * 2 ^ 40 := by
  simp only [SubBlock.fieldLe, toNat_join]
  ring

theorem toNat_fieldBe (b : SubBlock) :
    b.fieldBe.toNat = b.lo.q2.toNat * 2 ^ 40 + b.lo.q3.toNat * 2 ^ 32 + b.hi.q0.toNat * 2 ^ 24 +
      b.hi.q1.toNat * 2 ^ 16 + b.hi.q2.toNat * 2 ^ 8 + b.hi.q3.toNat := by
  simp only [SubBlock.fieldBe, toNat_join]
  ring

/-- A 48-bit number is the join of its six bytes. -/
theorem join_six_bytes (x : BitVec 48) :
    x.extractLsb' 40 8 ++ x.extractLsb' 32 8 ++ x.extractLsb' 24 8 ++ x.extractLsb' 16 8 ++ x.extractLsb' 8 8 ++
      x.extractLsb' 0 8 = x := by
  have join {lo lo' l l' : Nat} (h : lo' = lo + l) :
      x.extractLsb' lo' l' ++ x.extractLsb' lo l = x.extractLsb' lo (l' + l) :=
    BitVec.extractLsb'_append_extractLsb'_eq_extractLsb' h
  rw [join (lo := 32) (lo' := 40) rfl, join (lo := 24) (lo' := 32) rfl, join (lo := 16) (lo' := 24) rfl,
    join (lo := 8) (lo' := 16) rfl, join (lo := 0) (lo' := 8) rfl]
  exact extract_self x

theorem fieldLe_packAlphaBlock (a0 a1 : Byte) (t : Tile (BitVec 3)) :
    (packAlphaBlock .lsbFirst a0 a1 t).fieldLe = alphaFieldLe t := join_six_bytes _

theorem fieldBe_packAlphaBlock (a0 a1 : Byte) (t : Tile (BitVec 3)) :
    (packAlphaBlock .msbFirst a0 a1 t).fieldBe = alphaFieldBe t := join_six_bytes _

/-- Index `x` of row `y`, the lowest index in the lowest bits. -/
theorem extract_alphaFieldLe (t : Tile (BitVec 3)) (y x : Fin 4) :
    (alphaFieldLe t).extractLsb' (12 * y.val + 3 * x.val) 3 = (t.row y).get x := by
  have row (q : Quad (BitVec 3)) : (q.q3 ++ q.q2 ++ q.q1 ++ q.q0 : BitVec 12).extractLsb' (3 * x.val) 3 = q.get x :=
    (extract_join4 q x 0 3 (by omega)).trans (extract_self _)
  refine (extract_join4 (n := 12) ⟨_, _, _, _⟩ y (3 * x.val) 3 (by omega)).trans ?_
  fin_cases y <;> exact row _

/-- Index `x` of row `y`, the lowest index in the highest bits. -/
theorem extract_alphaFieldBe (t : Tile (BitVec 3)) (y x : Fin 4) :
    (alphaFieldBe t).extractLsb' (12 * y.rev.val + 3 * x.rev.val) 3 = (t.row y).get x := by
  have row (q : Quad (BitVec 3)) : (q.q0 ++ q.q1 ++ q.q2 ++ q.q3 : BitVec 12).extractLsb' (3 * x.rev.val) 3 = q.get x :=
    (extract_join4 ⟨q.q3, q.q2, q.q1, q.q0⟩ x.rev 0 3 (by omega)).trans <| (extract_self _).trans <| by
      fin_cases x <;> rfl
  refine (extract_join4 (n := 12) ⟨_, _, _, _⟩ y.rev (3 * x.rev.val) 3 (by omega)).trans ?_
  fin_cases y <;> exact row _

@[simp] theorem alphaIndex_packAlphaBlock (order : BitOrder) (a0 a1 : Byte) (t : Tile (BitVec 3)) (i : Fin 16) :
    (packAlphaBlock order a0 a1 t).alphaIndex order i = t.get i := by
  cases order with
  | lsbFirst =>
    rw [SubBlock.alphaIndex, fieldLe_packAlphaBlock]
    refine Eq.trans ?_ (extract_alphaFieldLe t (Tile.rowOf i) (Tile.colOf i))
    congr 1
    simp only [Tile.rowOf, Tile.colOf]
    omega
  | msbFirst =>
    rw [SubBlock.alphaIndex, fieldBe_packAlphaBlock]
    refine Eq.trans ?_ (extract_alphaFieldBe t (Tile.rowOf i) (Tile.colOf i))
    congr 1
    simp only [Tile.rowOf, Tile.colOf, Fin.val_rev]
    omega

/-! ### Pixels, endpoint pairs and block registers (30_encoding.md R116, 10_state.md R45, R49) -/

theorem toNat_packPixel (p : Pixel) :
    (packPixel p).toNat = p.r.toNat + p.g.toNat * 2 ^ 8 + p.b.toNat * 2 ^ 16 + p.a.toNat * 2 ^ 24 := by
  rw [packPixel, toNat_join, toNat_join, toNat_join]
  ring

@[simp] theorem packPixel_unpackPixel (w : Word) : packPixel (unpackPixel w) = w := bytesWord_wordBytes w

theorem toNat_epWord (e0 e1 : Half) : (epWord e0 e1).toNat = e0.toNat + e1.toNat * 2 ^ 16 := by
  rw [epWord, toNat_join, Nat.add_comm]

/-- The byte `k` of the block registers is in register `k >> 2`, low byte first. -/
theorem blockOf_bytes (s : State) (m : Mode) :
    (s.blockOf m).toList.map BitVec.toNat = (List.range (Mode.blockSize m)).map fun k =>
      (s.read (.blk (Fin.ofNat 4 (k / 4)))).toNat / 2 ^ (8 * (k % 4)) % 256 := by
  cases m <;>
    simp only [State.blockOf, State.lowBlock, State.highBlock, wordBytes, Block.toList, SubBlock.toList, Quad.toList,
      List.cons_append, List.nil_append, List.map_cons, List.map_nil, toNat_field] <;> rfl

@[simp] theorem State.blockOf_putBlock_bc1 (s : State) (c : SubBlock) : (s.putBlock (.bc1 c)).blockOf .bc1 = .bc1 c :=
  congrArg Block.bc1 (s.lowBlock_putLowBlock c)

@[simp] theorem State.blockOf_putBlock_bc3 (s : State) (a c : SubBlock) :
    (s.putBlock (.bc3 a c)).blockOf .bc3 = .bc3 a c :=
  congrArg₂ Block.bc3 (s.lowBlock_putLowBlock a) ((s.putLowBlock a).highBlock_putHighBlock c)

/-- Settles O12: each format is a join of fields; its number is the sum of the fields in their places, and a field of the
join is what was joined. -/
theorem dataFormatsRoundTrip : Obligations.DataFormatsRoundTrip := by
  refine ⟨fun r g b => ⟨red5_rgb565 r g b, green6_rgb565 r g b, blue5_rgb565 r g b, toNat_rgb565 r g b⟩,
    fun c0 c1 mask => ⟨packColourBlock_bytes c0 c1 mask, SubBlock.c0_packColourBlock c0 c1 mask,
      SubBlock.c1_packColourBlock c0 c1 mask, SubBlock.mask_packColourBlock c0 c1 mask⟩,
    toNat_maskIndex, maskIndex_packMask, fun _ _ _ => rfl, fun sb i => ?_,
    fun order a0 a1 t => ⟨by cases order <;> rfl, by cases order <;> rfl, alphaIndex_packAlphaBlock order a0 a1 t⟩,
    fun p => ⟨toNat_packPixel p, rfl, unpackPixel_packPixel p⟩, packPixel_unpackPixel,
    fun e0 e1 => ⟨toNat_epWord e0 e1, ep0_epWord e0 e1, ep1_epWord e0 e1⟩, bytesWord_wordBytes, wordBytes_bytesWord,
    blockOf_bytes, fun s a c => ⟨congrArg Block.toList (s.blockOf_putBlock_bc1 c),
      congrArg Block.toList (s.blockOf_putBlock_bc3 a c)⟩⟩
  exact ⟨(toNat_field _ _ _).trans (by rw [toNat_fieldLe]; rfl), (toNat_field _ _ _).trans (by rw [toNat_fieldBe]; rfl)⟩

/-! ### The assembler (30_encoding.md R123) -/

theorem mem_allCommands (i : Instr) : i ∈ allCommands := by
  cases i with
  | enc m q | encimg m q => cases m <;> cases q <;> decide
  | dec m | decimg m | ordc m => cases m <;> decide
  | matchc q => cases q <;> decide
  | _ => decide

/-- The text of a command, with or without `.BC1`, names no other command. -/
theorem assemble_commandText : ∀ i ∈ allCommands, assemble (commandText i) = some (encode i) ∧
    ∀ t ∈ commandTextBc1 i, assemble t = some (encode i) := by
  decide +kernel

theorem disassemble_of_ok {w : Word} {i : Instr} (h : decode w = .ok i) : disassemble w = commandText i := by
  rw [disassemble, h]

theorem disassemble_of_error {w : Word} {e : DecodeError} (h : decode w = .error e) :
    disassemble w = ".word 0x" ++ hexWord w := by
  rw [disassemble, h]

/-- Settles O13: there are 24 commands, whose texts differ, and disassembly goes by what the word decodes to. -/
theorem assemblyRoundTrips : Obligations.AssemblyRoundTrips := by
  refine ⟨fun i => ?_, fun w e => disassemble_of_error⟩
  obtain ⟨htext, hbc1⟩ := assemble_commandText i (mem_allCommands i)
  exact ⟨htext, disassemble_of_ok (decode_encode i), hbc1⟩

end Sys2Proof.Machine
end

section
/-! PROOFS. Blending and narrowing channels (40_tables.md R160, 41_estimator.md R187, 42_palette_match.md R210, R211): each
is `mulShift8` in its range, so it is an exact rounding. -/

namespace Sys2Proof.Machine

open Sys2Proof

/-- An integer in the range of a word is stored as it is. -/
theorem toNat_ofInt_of_lt {w : Nat} {z : Int} (h0 : 0 ≤ z) (h : z < 2 ^ w) : ((BitVec.ofInt w z).toNat : Int) = z := by
  have hmod : z % ((2 ^ w : Nat) : Int) = z := Int.emod_eq_of_lt h0 (by exact_mod_cast h)
  rw [BitVec.toNat_ofInt, hmod, Int.toNat_of_nonneg h0]

theorem chan_nonneg (c : Byte) : 0 ≤ chan c := Int.natCast_nonneg _

theorem chan_le (c : Byte) : chan c ≤ 255 := Int.ofNat_le.mpr (Nat.le_of_lt_succ c.isLt)

/-! ### The 1/3 blend -/

/-- The blend of two channels before it is stored as a byte: `(2a + b) / 3` rounded to nearest. -/
theorem blend_eq (a b : Byte) :
    chan a + mulShift8 (chan b - chan a) 0x55 = ((2 * (2 * a.toNat + b.toNat) + 3) / 6 : Nat) := by
  have := chan_nonneg a; have := chan_le a; have := chan_nonneg b; have := chan_le b
  rw [(mulShift8Rounds.2.2 (chan b - chan a) (by omega) (by omega)).1]
  simp only [chan] at *
  omega

theorem toNat_lerp13_mulShift8 (a b : Byte) :
    (lerp13 .mulShift8 a b).toNat = (2 * (2 * a.toNat + b.toNat) + 3) / 6 := by
  have hbyte : (2 * (2 * a.toNat + b.toNat) + 3) / 6 < 256 := by omega
  have hlerp : lerp13 .mulShift8 a b = BitVec.ofInt 8 ((2 * (2 * a.toNat + b.toNat) + 3) / 6 : Nat) :=
    congrArg (BitVec.ofInt 8) (blend_eq a b)
  have := toNat_ofInt_of_lt (w := 8) (z := ((2 * (2 * a.toNat + b.toNat) + 3) / 6 : Nat)) (by omega) (by omega)
  rw [hlerp]
  omega

theorem toNat_lerp13_div3 (a b : Byte) : (lerp13 .div3 a b).toNat = (2 * a.toNat + b.toNat) / 3 := by
  rw [lerp13, BitVec.toNat_ofNat, Nat.mod_eq_of_lt (by omega)]

/-- Settles O32: the two forms round `(2a + b) / 3` to nearest and down. -/
theorem lerp13Rounds : Obligations.Lerp13Rounds :=
  fun a b => ⟨toNat_lerp13_mulShift8 a b, toNat_lerp13_div3 a b⟩

/-! ### Narrowing -/

/-- A channel scaled to `w` bits: the nearest multiple of `255 / (2^w - 1)`, halves up (41_estimator.md R187). -/
theorem toNat_narrow {w : Nat} (c : Byte) {top : Nat} (htop : top < 2 ^ w) (hbyte : top ≤ 255) :
    (BitVec.ofInt w (mulShift8 (chan c) top)).toNat = (2 * c.toNat * top + 255) / 510 := by
  have hc : c.toNat ≤ 255 := Nat.le_of_lt_succ c.isLt
  have hround : mulShift8 (chan c) top = ((2 * c.toNat * top + 255) / 510 : Nat) := by
    rw [(mulShift8Rounds.2.1 (chan c) top (chan_nonneg c) (chan_le c) (by omega) (by omega)).1]
    push_cast
    rfl
  have hle : (2 * c.toNat * top + 255) / 510 ≤ top := by
    have := Nat.mul_le_mul_right top hc
    rw [mul_assoc]
    omega
  have := toNat_ofInt_of_lt (w := w) (z := ((2 * c.toNat * top + 255) / 510 : Nat)) (by omega)
    (by exact_mod_cast hle.trans_lt htop)
  rw [hround]
  omega

theorem toNat_red5_as16 (c : RGB) : (red5 (as16 c)).toNat = (2 * c.r.toNat * 31 + 255) / 510 := by
  rw [as16, red5_rgb565]
  exact toNat_narrow c.r (by decide) (by decide)

theorem toNat_green6_as16 (c : RGB) : (green6 (as16 c)).toNat = (2 * c.g.toNat * 63 + 255) / 510 := by
  rw [as16, green6_rgb565]
  exact toNat_narrow c.g (by decide) (by decide)

theorem toNat_blue5_as16 (c : RGB) : (blue5 (as16 c)).toNat = (2 * c.b.toNat * 31 + 255) / 510 := by
  rw [as16, blue5_rgb565]
  exact toNat_narrow c.b (by decide) (by decide)

/-- An RGB565 value is the join of its fields. -/
theorem rgb565_fields (v : Half) : rgb565 (red5 v) (green6 v) (blue5 v) = v := by
  apply BitVec.eq_of_toNat_eq
  rw [toNat_rgb565, red5, green6, blue5, toNat_field, toNat_field, toNat_field]
  omega

theorem half_ext {v w : Half} (hr : (red5 v).toNat = (red5 w).toNat) (hg : (green6 v).toNat = (green6 w).toNat)
    (hb : (blue5 v).toNat = (blue5 w).toNat) : v = w := by
  rw [← rgb565_fields v, ← rgb565_fields w, BitVec.eq_of_toNat_eq hr, BitVec.eq_of_toNat_eq hg, BitVec.eq_of_toNat_eq hb]

/-- Settles O30: a widened field is `255 / 31` or `255 / 63` of itself to within less than half a step, so narrowing
finds it again. -/
theorem narrowingUndoesWidening : Obligations.NarrowingUndoesWidening := by
  refine ⟨fun v => half_ext ?_ ?_ ?_, fun c => ⟨toNat_red5_as16 c, toNat_green6_as16 c, toNat_blue5_as16 c⟩⟩
  · rw [toNat_red5_as16, from16, toNat_expand5]
    have := (red5 v).isLt
    omega
  · rw [toNat_green6_as16, from16, toNat_expand6]
    have := (green6 v).isLt
    omega
  · rw [toNat_blue5_as16, from16, toNat_expand5]
    have := (blue5 v).isLt
    omega

end Sys2Proof.Machine
end

section
/-! PROOFS. The optimal-match tables (40_tables.md R163, R167, R168): a table lists the first pairs of least error, since
no pair of nearly the target's level comes before its entry; and the search finds a first pair of least error. -/

namespace Sys2Proof.Machine

open Sys2Proof

/-! ### The search -/

/-- A fold that keeps `P` up to `x`, turns it into `target` there and then keeps `target`. -/
theorem foldl_eq_target {α β : Type} {step : β → α → β} {P : β → Prop} {target init : β} {before after : List α} {x : α}
    (hinit : P init) (hbefore : ∀ b, ∀ a ∈ before, P b → P (step b a)) (hat : ∀ b, P b → step b x = target)
    (hafter : ∀ a ∈ after, step target a = target) : (before ++ x :: after).foldl step init = target := by
  rw [List.foldl_append, List.foldl_cons, hat _ (List.foldlRecOn before step hinit fun b hb a ha => hbefore b a ha hb)]
  exact List.foldlRecOn after step (motive := (· = target)) rfl fun b hb a ha => hb ▸ hafter a ha

theorem range_split {k n : Nat} (h : k < n) :
    ∃ after, List.range n = List.range k ++ k :: after ∧ ∀ a ∈ after, a < n := by
  refine ⟨(List.range n).drop (k + 1), ?_, fun a ha => List.mem_range.mp (List.mem_of_mem_drop ha)⟩
  have hdrop := List.drop_eq_getElem_cons (l := List.range n) (i := k) (by simpa using h)
  rw [List.getElem_range] at hdrop
  rw [← hdrop]
  conv_lhs => rw [← List.take_append_drop k (List.range n), List.take_range, Nat.min_eq_left h.le]

/-- The error of a pair in the search. -/
def searchError (E : Nat → Int) (v : Int) (mn mx : Nat) : Int :=
  ((E mx + mulShift8 (E mn - E mx) 0x55 - v).natAbs : Int)

theorem searchPair_of_lt {E : Nat → Int} {v : Int} {mn mx : Nat} {b : BestPair} (h : searchError E v mn mx < b.err) :
    searchPair E v mn mx b = ⟨searchError E v mn mx, mx, mn⟩ := if_pos h

theorem searchPair_of_le {E : Nat → Int} {v : Int} {mn mx : Nat} {b : BestPair} (h : b.err ≤ searchError E v mn mx) :
    searchPair E v mn mx b = b := if_neg h.not_gt

theorem searchPair_keeps_worse {E : Nat → Int} {v best : Int} {mn mx : Nat} {b : BestPair}
    (h : best < searchError E v mn mx) (hb : best < b.err) : best < (searchPair E v mn mx b).err := by
  rcases lt_or_ge (searchError E v mn mx) b.err with hlt | hle
  · rwa [searchPair_of_lt hlt]
  · rwa [searchPair_of_le hle]

/-- The search ends with the first pair of least error, where that is below the error it starts from. -/
theorem searchTable_eq {E : Nat → Int} {S : Nat} {v : Int} {mn mx : Nat} (hmn : mn < S) (hmx : mx < S)
    (hstart : searchError E v mn mx < 256)
    (hleast : ∀ mn' < S, ∀ mx' < S, searchError E v mn mx ≤ searchError E v mn' mx')
    (hrows : ∀ mn' < mn, ∀ mx' < S, searchError E v mn mx < searchError E v mn' mx')
    (hrow : ∀ mx' < mx, searchError E v mn mx < searchError E v mn mx') :
    searchTable E S v = ⟨searchError E v mn mx, mx, mn⟩ := by
  obtain ⟨rowsAfter, hsplit, hafter⟩ := range_split hmn
  obtain ⟨colsAfter, hsplit', hafter'⟩ := range_split hmx
  have found : ∀ mn' < S, ∀ mx' < S,
      searchPair E v mn' mx' ⟨searchError E v mn mx, mx, mn⟩ = ⟨searchError E v mn mx, mx, mn⟩ :=
    fun mn' hmn' mx' hmx' => searchPair_of_le (hleast mn' hmn' mx' hmx')
  unfold searchTable
  nth_rewrite 2 [hsplit]
  refine foldl_eq_target (P := fun b : BestPair => searchError E v mn mx < b.err) hstart
    (fun b mn' hmn' hb => ?_) (fun b hb => ?_)
    fun mn' hmn' => ?_
  · exact List.foldlRecOn _ _ (motive := fun c : BestPair => searchError E v mn mx < c.err) hb fun c hc mx' hmx' =>
      searchPair_keeps_worse (hrows mn' (List.mem_range.mp hmn') mx' (List.mem_range.mp hmx')) hc
  · rw [hsplit']
    exact foldl_eq_target (P := fun b : BestPair => searchError E v mn mx < b.err) hb
      (fun c mx' hmx' hc => searchPair_keeps_worse (hrow mx' (List.mem_range.mp hmx')) hc)
      (fun c hc => searchPair_of_lt hc) (fun mx' hmx' => found mn hmn mx' (hafter' mx' hmx'))
  · exact List.foldlRecOn _ _ (motive := (· = _)) rfl fun c hc mx' hmx' =>
      hc ▸ found mn' (hafter mn' hmn') mx' (List.mem_range.mp hmx')

/-! ### The tables, in whole numbers -/

/-- The blend of the levels of a pair, `(2 E[mx] + E[mn]) / 3` rounded to nearest. -/
def pairBlend (E : Nat → Nat) (mn mx : Nat) : Nat := (2 * (2 * E mx + E mn) + 3) / 6

/-- How far the blend of a pair is from `v`. -/
def pairError (E : Nat → Nat) (v mn mx : Nat) : Nat := (pairBlend E mn mx - v) + (v - pairBlend E mn mx)

/-- The entry of a table for `v` has less error than a pair, or as much and the pair does not come before it. -/
def entryFirst (E : Nat → Nat) (rows : List (List (Nat × Nat))) (v mn mx : Nat) : Bool :=
  let e := tableEntry rows v
  let best := pairError E v e.2 e.1
  let err := pairError E v mn mx
  Nat.blt best err || Nat.beq best err && (Nat.blt e.2 mn || Nat.beq e.2 mn && Nat.ble e.1 mx)

/-- Each entry is a pair of `S` levels that comes within 1 of its target. -/
def EntriesNear (E : Nat → Nat) (rows : List (List (Nat × Nat))) (S : Nat) : Prop :=
  ∀ v < 256, (tableEntry rows v).1 < S ∧ (tableEntry rows v).2 < S ∧
    pairError E v (tableEntry rows v).2 (tableEntry rows v).1 ≤ 1

/-- No pair comes before the entry of a target within 1 of its blend. -/
def NearPairsAfter (E : Nat → Nat) (rows : List (List (Nat × Nat))) (S : Nat) : Prop :=
  ∀ mn < S, ∀ mx < S, ∀ k < 3,
    256 < pairBlend E mn mx + k ∨ entryFirst E rows (pairBlend E mn mx + k - 1) mn mx = true

/-- A pair more than 1 away from the target has more error than the entry; the others are near ones. -/
theorem entryFirst_of_near {E : Nat → Nat} {rows : List (List (Nat × Nat))} {S : Nat} (hnear : EntriesNear E rows S)
    (hafter : NearPairsAfter E rows S) {v mn mx : Nat} (hv : v < 256) (hmn : mn < S) (hmx : mx < S) :
    entryFirst E rows v mn mx = true := by
  by_cases hfar : 1 < pairError E v mn mx
  · have hlt := (hnear v hv).2.2.trans_lt hfar
    simp [entryFirst, Nat.blt_eq, hlt]
  · simp only [pairError] at hfar
    have hk := hafter mn hmn mx hmx (v + 1 - pairBlend E mn mx) (by omega)
    rwa [Nat.add_sub_cancel' (by omega), Nat.add_sub_cancel, or_iff_right (by omega)] at hk

/-- The levels of `Expand5` (40_tables.md R161). -/
def level5 (i : Nat) : Nat := i * 8 + i / 4

/-- The levels of `Expand6` (40_tables.md R162). -/
def level6 (i : Nat) : Nat := i * 4 + i / 16

theorem omatch5_near : EntriesNear level5 omatch5Rows 32 := by
  unfold EntriesNear
  decide +kernel

theorem omatch6_near : EntriesNear level6 omatch6Rows 64 := by
  unfold EntriesNear
  decide +kernel

theorem omatch5_after : NearPairsAfter level5 omatch5Rows 32 := by
  unfold NearPairsAfter
  decide +kernel

theorem omatch6_after : NearPairsAfter level6 omatch6Rows 64 := by
  unfold NearPairsAfter
  decide +kernel

/-! ### The entries and the search in the model's words -/

section
variable {w : Nat} (expand : BitVec w → Byte) (v : Byte)

/-- The error of a pair in the statements (40_tables.md R163). -/
def expandedError (mn mx : BitVec w) : Int :=
  |chan (expand mx) + mulShift8 (chan (expand mn) - chan (expand mx)) 0x55 - chan v|

theorem expandedError_eq {E : Nat → Nat} (hE : ∀ i, (expand i).toNat = E i.toNat) (mn mx : BitVec w) :
    expandedError expand v mn mx = pairError E v.toNat mn.toNat mx.toNat := by
  rw [expandedError, blend_eq, hE, hE, pairError, pairBlend, chan, Int.abs_eq_natAbs]
  omega

theorem searchError_eq {mn mx : Nat} :
    searchError (fun i => chan (expand (BitVec.ofNat w i))) (chan v) mn mx =
      expandedError expand v (BitVec.ofNat w mn) (BitVec.ofNat w mx) := Int.natCast_natAbs _

/-- An entry that no pair comes before has what 40_tables.md R163 says, and is what the search finds. -/
theorem firstBestPair {E : Nat → Nat} {rows : List (List (Nat × Nat))} (hE : ∀ i, (expand i).toNat = E i.toNat)
    (hnear : EntriesNear E rows (2 ^ w)) (hafter : NearPairsAfter E rows (2 ^ w)) {e : BitVec w × BitVec w}
    (he : e = (BitVec.ofNat w (tableEntry rows v.toNat).1, BitVec.ofNat w (tableEntry rows v.toNat).2)) :
    let best := expandedError expand v e.2 e.1
    best < 256 ∧ (∀ mn mx : BitVec w, best ≤ expandedError expand v mn mx) ∧
    (∀ mn mx : BitVec w, mn.toNat < e.2.toNat → best < expandedError expand v mn mx) ∧
    (∀ mx : BitVec w, mx.toNat < e.1.toNat → best < expandedError expand v e.2 mx) ∧
    searchTable (fun i => chan (expand (BitVec.ofNat w i))) (2 ^ w) (chan v) = ⟨best, e.1.toNat, e.2.toNat⟩ := by
  obtain ⟨hmx, hmn, hone⟩ := hnear v.toNat v.isLt
  have he1 : e.1.toNat = (tableEntry rows v.toNat).1 := by rw [he, BitVec.toNat_ofNat, Nat.mod_eq_of_lt hmx]
  have he2 : e.2.toNat = (tableEntry rows v.toNat).2 := by rw [he, BitVec.toNat_ofNat, Nat.mod_eq_of_lt hmn]
  intro best
  have hbest : best = pairError E v.toNat e.2.toNat e.1.toNat := expandedError_eq expand v hE e.2 e.1
  have first (mn mx : BitVec w) : best < expandedError expand v mn mx ∨ best = expandedError expand v mn mx ∧
      (e.2.toNat < mn.toNat ∨ e.2.toNat = mn.toNat ∧ e.1.toNat ≤ mx.toNat) := by
    have h := entryFirst_of_near hnear hafter v.isLt mn.isLt mx.isLt
    simp only [entryFirst, Bool.or_eq_true, Bool.and_eq_true, Nat.blt_eq, Nat.beq_eq, Nat.ble_eq] at h
    rw [hbest, expandedError_eq expand v hE, Nat.cast_lt, Nat.cast_inj, he1, he2]
    exact h
  have hleast (mn mx : BitVec w) : best ≤ expandedError expand v mn mx := by have := first mn mx; omega
  have hrows (mn mx : BitVec w) (h : mn.toNat < e.2.toNat) : best < expandedError expand v mn mx := by
    have := first mn mx; omega
  have hrow (mx : BitVec w) (h : mx.toNat < e.1.toNat) : best < expandedError expand v e.2 mx := by
    have := first e.2 mx; omega
  have hlt : best < 256 := by rw [hbest, he1, he2]; omega
  have word {i : Nat} (h : i < 2 ^ w) : (BitVec.ofNat w i).toNat = i := by rw [BitVec.toNat_ofNat, Nat.mod_eq_of_lt h]
  have herr : searchError (fun i => chan (expand (BitVec.ofNat w i))) (chan v) e.2.toNat e.1.toNat = best := by
    rw [searchError_eq, BitVec.ofNat_toNat, BitVec.ofNat_toNat, BitVec.setWidth_eq, BitVec.setWidth_eq]
  refine ⟨hlt, hleast, hrows, hrow, ?_⟩
  rw [← herr]
  refine searchTable_eq e.2.isLt e.1.isLt (herr ▸ hlt) (fun mn _ mx _ => ?_) (fun mn hmn mx hmx => ?_) fun mx hmx => ?_
  · rw [herr, searchError_eq]
    exact hleast _ _
  · rw [herr, searchError_eq]
    exact hrows _ _ (by rwa [word (hmn.trans e.2.isLt)])
  · rw [herr, searchError_eq, BitVec.ofNat_toNat, BitVec.setWidth_eq]
    exact hrow _ (by rwa [word (hmx.trans e.1.isLt)])

end

/-- Settles O22: no pair comes before an entry of `OMatch5`. -/
theorem oMatch5IsTheFirstBestPair : Obligations.OMatch5IsTheFirstBestPair :=
  fun v => firstBestPair expand5 v toNat_expand5 omatch5_near omatch5_after rfl

/-- Settles O23: no pair comes before an entry of `OMatch6`. -/
theorem oMatch6IsTheFirstBestPair : Obligations.OMatch6IsTheFirstBestPair :=
  fun v => firstBestPair expand6 v toNat_expand6 omatch6_near omatch6_after rfl

end Sys2Proof.Machine
end

section
/-! PROOFS. Palettes and matching (42_palette_match.md R211 to R218, R223, R224): PALC and MATCHC as what they leave in the
registers, the two matchers index by index, and how near the stop of the index chosen is. -/

namespace Sys2Proof.Machine

open Sys2Proof

/-! ### PALC -/

theorem unpackPixel_packColour (c : RGB) : unpackPixel (packColour c) = ⟨c.r, c.g, c.b, 0⟩ :=
  unpackPixel_packPixel _

/-- Settles O33: the palette registers hold the four colours of `evalColours`, packed with alpha 0. -/
theorem palcWritesTheEncoderPalette : Obligations.PalcWritesTheEncoderPalette := by
  intro s p0 p1 third
  refine ⟨_, rfl, unpackPixel_packColour p0, unpackPixel_packColour p1, unpackPixel_packColour _,
    unpackPixel_packColour _, fun k => ?_, rfl, rfl⟩
  fin_cases k <;> rfl

/-! ### Thresholds and the decision tree -/

/-- The thresholds shift by an integer literal; a shift by one is the floor of the half. -/
theorem shiftRight_intOne (m : Int) : m >>> (1 : Int) = m / 2 :=
  (Int.shiftRight_natCast_right m 1).trans (Int.shiftRight_eq_div_pow m 1)

theorem thresholds_eq (stops : Quad Int) :
    thresholds stops = ⟨(stops.q1 + stops.q3) / 2, (stops.q3 + stops.q2) / 2, (stops.q2 + stops.q0) / 2⟩ := by
  simp only [thresholds, shiftRight_intOne]

theorem toNat_classify (t : Thresholds) (d : Int) :
    (classify t d).toNat =
      if d < t.halfPoint then (if d < t.c0Point then 1 else 3) else (if d < t.c3Point then 2 else 0) := by
  unfold classify
  split_ifs <;> rfl

@[simp] theorem get_matchDots (blk : Tile RGB) (pal : Quad RGB) (i : Fin 16) :
    (matchDots blk pal).get i = dot (blk.get i) (matchDir pal) := by
  simp [matchDots]

/-- The index of a pixel on the plain path (42_palette_match.md R216). -/
@[simp] theorem maskIndex_matchPlain (blk : Tile RGB) (pal : Quad RGB) (i : Fin 16) :
    maskIndex (matchPlain blk pal) i = classify (thresholds (matchStops pal)) (dot (blk.get i) (matchDir pal)) := by
  simp [matchPlain]

/-! ### MATCHC -/

theorem exec_matchc (q : Quality) (s : State) :
    exec (.matchc q) s = .next (s.putMask (matchColours s.cfg q (s.pixels.map Pixel.rgb) s.palette)).succeed := rfl

theorem get_pixels (s : State) (i : Fin 16) : s.pixels.get i = unpackPixel (s.read (.pix i)) := by
  rw [State.pixels, Tile.get_map]
  rfl

/-- Settles O34: each index is `classify` of the pixel's projection, and the halves are floors. -/
theorem matchcPlainFollowsTheDecisionTree : Obligations.MatchcPlainFollowsTheDecisionTree := by
  intro s x p dirR dirG dirB proj c0Point halfPoint c3Point
  refine ⟨_, exec_matchc .fast s, rfl, rfl, rfl, fun i => ?_⟩
  have hpixel : (s.pixels.map Pixel.rgb).get i = (x i).rgb := by rw [Tile.get_map, get_pixels]
  change (maskIndex (matchPlain (s.pixels.map Pixel.rgb) s.palette) i).toNat = _
  rw [maskIndex_matchPlain, toNat_classify, thresholds_eq, hpixel]
  rfl

/-- The index of a pixel on the dithered path and the error it stores (42_palette_match.md R217). -/
theorem matchDitherRef_cell (blk : Tile RGB) (pal : Quad RGB) (i : Fin 16) :
    let cell := ditherCell (thresholds (matchStops pal)) (matchStops pal)
    let err := storedError (diffusedErrors cell (matchDots blk pal))
    cell ((matchDots blk pal).get i) (gatheredError err (i.val % 4 : Nat) (i.val / 4 : Nat)) =
      (maskIndex (matchDitherRef blk pal) i, err (i.val % 4 : Nat) (i.val / 4 : Nat)) := by
  intro cell err
  rw [matchDitherRef, maskIndex_packMask]
  exact diffuseTile_cell cell (matchDots blk pal) i

/-- Settles O35: the stored errors are those of the diffusion of the tile. -/
theorem matchcDitheredDiffusesTheError : Obligations.MatchcDitheredDiffusesTheError := by
  intro s blk pal dots stops th
  have mask : (s.putMask (matchColours s.cfg .dithered blk pal)).succeed.read .mask =
      matchDither s.cfg.ditherMatch blk pal := rfl
  refine ⟨_, exec_matchc .dithered s, rfl, rfl, rfl, fun h => ?_, fun h => ?_⟩
  · rw [mask, h, matchDither]
  · refine ⟨storedError (diffusedErrors (ditherCell th stops) dots), fun x y => storedError_outside _, ?_⟩
    intro i x y e d step
    rw [mask, h, matchDither]
    obtain ⟨hindex, herr⟩ := Prod.mk.inj (matchDitherRef_cell blk pal i)
    have hstep : classify th.scaled (dots.get i * 16 + e) = step := by
      simp only [step, d, classify, Thresholds.scaled, mul_comm (16 : Int)]
      rfl
    rw [← hstep]
    exact ⟨hindex.symm, herr.symm⟩

/-! ### Equal entries 0 and 1 -/

section
variable {pal : Quad RGB} (h : pal.q0 = pal.q1)
include h

theorem matchDir_of_eq : matchDir pal = ⟨0, 0, 0⟩ := by
  simp [matchDir, h]

theorem dot_matchDir_of_eq (c : RGB) : dot c (matchDir pal) = 0 := by
  simp [dot, matchDir_of_eq h]

theorem matchStops_of_eq : matchStops pal = .fill 0 := by
  refine Quad.ext_get fun k => ?_
  rw [matchStops, Quad.get_map, Quad.get_fill, dot_matchDir_of_eq h]

theorem matchDots_of_eq (blk : Tile RGB) : matchDots blk pal = .fill 0 := by
  refine Tile.ext_get fun i => ?_
  rw [get_matchDots, Tile.get_fill, dot_matchDir_of_eq h]

end

theorem classify_zero : classify (thresholds (.fill 0)) 0 = 0 := by decide

/-- Where a source of 0 stores no error, no row of zeros does. -/
theorem diffuseRow_zero {α : Type} {cell : Int → Int → α × Int} {a : α} (h : cell 0 0 = (a, 0)) :
    diffuseRow cell (.fill 0) (.fill 0) = (.fill a, .fill 0) := by
  simp [diffuseRow, Quad.fill, h]

theorem diffuseTile_zero {α : Type} {cell : Int → Int → α × Int} {a : α} (h : cell 0 0 = (a, 0)) :
    diffuseTile cell (.fill 0) = .fill a := by
  have hrow := diffuseRow_zero h
  simp only [diffuseTile, Tile.fill, hrow]

theorem packMask_zero : packMask (.fill 0) = 0 := by decide

/-- Settles O37: every projection and every stop is 0, so every index is 0 and no error is ever stored. -/
theorem equalEndpointsMatchToZero : Obligations.EqualEndpointsMatchToZero := by
  intro blk pal h
  have hcell : ditherCell (thresholds (.fill 0)) (.fill 0) 0 0 = (0, 0) := by decide
  have hplain : (Tile.fill (0 : Int)).map (classify (thresholds (.fill 0))) = .fill 0 :=
    Tile.ext_get fun i => by rw [Tile.get_map, Tile.get_fill, Tile.get_fill, classify_zero]
  rw [matchPlain, matchDitherRef, matchDots_of_eq h, matchStops_of_eq h, diffuseTile_zero hcell, hplain]
  exact ⟨packMask_zero, packMask_zero⟩

/-! ### The stop nearest to a projection -/

/-- The two blends stand between the two channels, in order. -/
theorem lerp13_sorted (form : LerpForm) {a b : Byte} (h : b.toNat ≤ a.toNat) :
    b.toNat ≤ (lerp13 form b a).toNat ∧ (lerp13 form b a).toNat ≤ (lerp13 form a b).toNat ∧
      (lerp13 form a b).toNat ≤ a.toNat := by
  cases form with
  | mulShift8 =>
    rw [toNat_lerp13_mulShift8, toNat_lerp13_mulShift8]
    omega
  | div3 =>
    rw [toNat_lerp13_div3, toNat_lerp13_div3]
    omega

/-- Along the difference of two channels the blends are sorted too, whatever its sign. -/
theorem lerp13_sorted_axis (form : LerpForm) (a b : Byte) :
    chan b * (chan a - chan b) ≤ chan (lerp13 form b a) * (chan a - chan b) ∧
    chan (lerp13 form b a) * (chan a - chan b) ≤ chan (lerp13 form a b) * (chan a - chan b) ∧
    chan (lerp13 form a b) * (chan a - chan b) ≤ chan a * (chan a - chan b) := by
  unfold chan
  rcases le_total b.toNat a.toNat with h | h
  · obtain ⟨h1, h2, h3⟩ := lerp13_sorted form h
    refine ⟨?_, ?_, ?_⟩ <;> refine mul_le_mul_of_nonneg_right ?_ (by omega) <;> omega
  · obtain ⟨h1, h2, h3⟩ := lerp13_sorted form h
    refine ⟨?_, ?_, ?_⟩ <;> refine mul_le_mul_of_nonpos_right ?_ (by omega) <;> omega

/-- The stops of an encoder palette lie in the order 1, 3, 2, 0 along its axis. -/
theorem matchStops_sorted (form : LerpForm) (e0 e1 : Half) :
    let stops := matchStops (evalColours form e0 e1)
    stops.q1 ≤ stops.q3 ∧ stops.q3 ≤ stops.q2 ∧ stops.q2 ≤ stops.q0 := by
  obtain ⟨r1, r2, r3⟩ := lerp13_sorted_axis form (from16 e0).r (from16 e1).r
  obtain ⟨g1, g2, g3⟩ := lerp13_sorted_axis form (from16 e0).g (from16 e1).g
  obtain ⟨b1, b2, b3⟩ := lerp13_sorted_axis form (from16 e0).b (from16 e1).b
  exact ⟨add_le_add (add_le_add r1 g1) b1, add_le_add (add_le_add r2 g2) b2, add_le_add (add_le_add r3 g3) b3⟩

/-- Where the stops are sorted, the tree takes the nearest one, to within the half its floors drop. -/
theorem classify_nearest {stops : Quad Int} (h1 : stops.q1 ≤ stops.q3) (h2 : stops.q3 ≤ stops.q2)
    (h3 : stops.q2 ≤ stops.q0) (d : Int) (k : Fin 4) :
    |d - stops.get (classify (thresholds stops) d).toFin| ≤ |d - stops.get k| + 1 := by
  have nearest : ∀ x : Int, x = stops.q0 ∨ x = stops.q1 ∨ x = stops.q2 ∨ x = stops.q3 →
      |d - stops.get (classify (thresholds stops) d).toFin| ≤ |d - x| + 1 := by
    intro x hx
    rw [thresholds_eq, classify, Int.abs_eq_natAbs, Int.abs_eq_natAbs]
    dsimp only
    split_ifs
    · change ((d - stops.q1).natAbs : Int) ≤ _
      omega
    · change ((d - stops.q3).natAbs : Int) ≤ _
      omega
    · change ((d - stops.q2).natAbs : Int) ≤ _
      omega
    · change ((d - stops.q0).natAbs : Int) ≤ _
      omega
  refine nearest _ ?_
  revert k
  rw [forall_fin4]
  exact ⟨.inl rfl, .inr (.inl rfl), .inr (.inr (.inl rfl)), .inr (.inr (.inr rfl))⟩

/-- Settles O36: the stops of an encoder palette are sorted. -/
theorem plainMatchIsNearestAlongTheAxis : Obligations.PlainMatchIsNearestAlongTheAxis := by
  intro form e0 e1 blk i k pal d stops
  obtain ⟨h1, h2, h3⟩ := matchStops_sorted form e0 e1
  rw [maskIndex_matchPlain, ← get_matchDots]
  exact classify_nearest h1 h2 h3 d k

end Sys2Proof.Machine
end

section
/-! PROOFS. The single-block commands as what they leave (41_estimator.md R180, R181, R190, 43_refine.md R242 to R246,
45_block_codec.md R280 to R283, R286, R288): FLATC, REFC, ORDC and ENC. -/

namespace Sys2Proof.Machine

open Sys2Proof

theorem exec_flatc (s : State) : exec .flatc s =
    .next (((s.buildTables.putEndpoints (fastMax (s.pixels.get 0).rgb) (fastMin (s.pixels.get 0).rgb)).putMask
      fastMask).mapStatus (·.withFlat (isFlat s.cfg.flatCompare s.pixels))).succeed := rfl

theorem pixel_eq_iff (p q : Pixel) : p = q ↔ p.r = q.r ∧ p.g = q.g ∧ p.b = q.b ∧ p.a = q.a := by
  cases p
  cases q
  exact Pixel.mk.injEq .. ▸ Iff.rfl

/-- A block is flat when every pixel compares equal to pixel 0 (41_estimator.md R180). -/
theorem isFlat_iff (form : FlatCompare) (blk : Tile Pixel) : isFlat form blk = true ↔
    ∀ i : Fin 16, (blk.get i).r = (blk.get 0).r ∧ (blk.get i).g = (blk.get 0).g ∧ (blk.get i).b = (blk.get 0).b ∧
      (form = .rgba → (blk.get i).a = (blk.get 0).a) := by
  have hfirst : blk.r0.q0 = blk.get 0 := rfl
  have hall (P : Pixel → Bool) : blk.toList.all P = true ↔ ∀ i : Fin 16, P (blk.get i) = true := by
    simp [List.all_eq_true, Tile.mem_toList]
  cases form with
  | rgb => simp [isFlat, hall, hfirst, Pixel.rgb]
  | rgba =>
    simp [isFlat, hall, hfirst, pixel_eq_iff]

/-- Settles O31: the flat test pixel by pixel, and the fast path of pixel 0. -/
theorem flatcTestsAndWritesTheFastPath : Obligations.FlatcTestsAndWritesTheFastPath := by
  intro s p0 same
  exact ⟨_, exec_flatc s, isFlat_iff s.cfg.flatCompare s.pixels, ep0_epWord _ _, ep1_epWord _ _, rfl, rfl, rfl, rfl, rfl,
    rfl⟩

/-! ### REFC -/

@[simp] theorem epWord_ep0_ep1 (w : Word) : epWord (ep0 w) (ep1 w) = w := join_extract (m := 16) (n := 16) w

theorem epWord_inj {a b c d : Half} : epWord a b = epWord c d ↔ a = c ∧ b = d := by
  constructor
  · intro h
    exact ⟨by simpa using congrArg ep0 h, by simpa using congrArg ep1 h⟩
  · rintro ⟨rfl, rfl⟩
    rfl

/-- What REFC leaves, by what `refine` returns (43_refine.md R246). -/
theorem exec_refc {s : State} {x : Refined}
    (hx : refine s.cfg.refineNumerics (s.pixels.map Pixel.rgb) (ep0 (s.read .ep)) (ep1 (s.read .ep)) (s.read .mask) = x) :
    exec .refc s = .next ((s.putEndpoints x.mx x.mn).mapStatus (·.withRefine x.changed x.skipped)).succeed :=
  hx ▸ rfl

theorem refine_of_nondegenerate {form : Numerics} {blk : Tile RGB} {mx mn : Half} {mask : Word}
    (h : (normalTerms mask).degenerate = false) :
    refine form blk mx mn mask = ⟨(solvePair form blk mask).1, (solvePair form blk mask).2,
      (solvePair form blk mask).1 != mx || (solvePair form blk mask).2 != mn, false⟩ := by
  simp [refine, h]

/-- Settles O40: the mask is degenerate exactly when it has one index. -/
theorem refcSolvesOrSkips : Obligations.RefcSolvesOrSkips := by
  intro s e oneIndex
  have hdeg : (normalTerms (s.read .mask)).degenerate = true ↔ oneIndex :=
    degenerate_iff_det_eq_zero _ |>.trans (det_eq_zero_iff _)
  by_cases h : oneIndex
  · refine ⟨_, exec_refc (refine_of_degenerate (hdeg.mpr h) ..), rfl, rfl, rfl, rfl, fun _ => ⟨?_, rfl, rfl⟩,
      fun hn => absurd h hn⟩
    exact epWord_ep0_ep1 _
  · have hnd : (normalTerms (s.read .mask)).degenerate = false := by simpa [h] using hdeg
    refine ⟨_, exec_refc (refine_of_nondegenerate hnd), rfl, rfl, rfl, rfl, fun ho => absurd ho h, fun _ =>
      ⟨rfl, ?_, rfl⟩⟩
    change (e.1 != ep0 (s.read .ep) || e.2 != ep1 (s.read .ep)) = true ↔ epWord e.1 e.2 ≠ s.read .ep
    rw [← epWord_ep0_ep1 (s.read .ep), ne_eq, epWord_inj]
    simp [imp_iff_not_or]

/-! ### ORDC -/

/-- The state ORDC leaves, by what `order` returns (45_block_codec.md R288). -/
def State.ordered (s : State) (m : Mode) (o : Ordered) : State :=
  ((((s.putColourBlock m o.block).putEndpoints o.c0 o.c1).putMask o.mask).mapStatus (·.withSwapped o.swapped)).succeed

theorem exec_ordc (m : Mode) {s : State} {o : Ordered}
    (ho : orderEndpoints (ep0 (s.read .ep)) (ep1 (s.read .ep)) (s.read .mask) = o) :
    exec (.ordc m) s = .next (s.ordered m o) := by
  subst ho
  cases m <;> rfl

/-- Ordering again with the same pair and mask changes `SWAPPED` only. -/
theorem State.ordered_ordered (s : State) (m : Mode) (o : Ordered) (b : Bool) :
    (s.ordered m o).ordered m ⟨o.c0, o.c1, o.mask, b⟩ =
      { s.ordered m o with status := { (s.ordered m o).status with swapped := b } } := by
  have hblock : Ordered.block ⟨o.c0, o.c1, o.mask, b⟩ = o.block := rfl
  simp only [State.ordered, hblock, State.succeed, State.mapStatus, State.putMask, State.putEndpoints,
    Status.succeeded, Status.withSwapped]
  cases m with
  | bc1 => simp only [State.putColourBlock, State.putLowBlock]
  | bc3 => simp only [State.putColourBlock, State.putHighBlock]

theorem wordBytes_epWord (e0 e1 : Half) : wordBytes (epWord e0 e1) =
    ⟨e0.extractLsb' 0 8, e0.extractLsb' 8 8, e1.extractLsb' 0 8, e1.extractLsb' 8 8⟩ := by
  refine Quad.ext_get (forall_fin4.mpr ⟨?_, ?_, ?_, ?_⟩)
  · exact extract_append_within e1 e0 0 8 (by decide)
  · exact extract_append_within e1 e0 8 8 (by decide)
  · exact extract_append_high e1 e0 0 8
  · exact extract_append_high e1 e0 8 8

/-- The words of a colour sub-block: its endpoint pair and its mask (45_block_codec.md R281). -/
@[simp] theorem bytesWord_lo_packColourBlock (c0 c1 : Half) (mask : Word) :
    bytesWord (packColourBlock c0 c1 mask).lo = epWord c0 c1 := by
  rw [← bytesWord_wordBytes (epWord c0 c1), wordBytes_epWord]
  rfl

@[simp] theorem bytesWord_hi_packColourBlock (c0 c1 : Half) (mask : Word) :
    bytesWord (packColourBlock c0 c1 mask).hi = mask := bytesWord_wordBytes mask

theorem ordered_block_words (o : Ordered) :
    bytesWord o.block.lo = epWord o.c0 o.c1 ∧ bytesWord o.block.hi = o.mask :=
  ⟨bytesWord_lo_packColourBlock _ _ _, bytesWord_hi_packColourBlock _ _ _⟩

/-- An ordered pair is ordered: ordering it again swaps nothing. -/
theorem orderEndpoints_idem (mx mn : Half) (mask : Word) :
    let o := orderEndpoints mx mn mask
    orderEndpoints o.c0 o.c1 o.mask = ⟨o.c0, o.c1, o.mask, false⟩ :=
  orderEndpoints_of_le (orderingKeepsTheColours .mulShift8 mx mn mask).1 _

/-- Settles O45: the ordered pair orders to itself, so a second ORDC writes what the registers hold. -/
theorem ordcOrdersAndIsIdempotent : Obligations.OrdcOrdersAndIsIdempotent := by
  intro m s j0 e0 e1
  obtain ⟨o, ho⟩ : ∃ o, orderEndpoints e0 e1 (s.read .mask) = o := ⟨_, rfl⟩
  have hep : (s.ordered m o).read .ep = epWord o.c0 o.c1 := rfl
  have hmask : (s.ordered m o).read .mask = o.mask := rfl
  have hagain : orderEndpoints (ep0 ((s.ordered m o).read .ep)) (ep1 ((s.ordered m o).read .ep))
      ((s.ordered m o).read .mask) = ⟨o.c0, o.c1, o.mask, false⟩ := by
    rw [hep, hmask, ep0_epWord, ep1_epWord, ← ho]
    exact orderEndpoints_idem e0 e1 _
  have hcases : epWord o.c0 o.c1 = (if e0.toNat < e1.toNat then epWord e1 e0 else epWord e0 e1) ∧
      o.mask = (if e0.toNat < e1.toNat then s.read .mask ^^^ 0x55555555 else s.read .mask) ∧
      o.swapped = decide (e0.toNat < e1.toNat) := by
    rw [← ho, orderEndpoints]
    split_ifs with h <;> simp [h]
  obtain ⟨hcep, hcmask, hcswapped⟩ := hcases
  obtain ⟨hlo, hhi⟩ := ordered_block_words o
  refine ⟨_, _, exec_ordc m ho, exec_ordc m hagain, hcep, hcmask, hcswapped, ?_⟩
  rw [State.ordered_ordered]
  cases m with
  | bc1 => exact ⟨hlo, hhi, rfl, rfl, rfl, rfl, rfl, rfl, rfl, rfl⟩
  | bc3 => exact ⟨hlo, hhi, rfl, rfl, rfl, rfl, rfl, rfl, rfl, rfl⟩

/-! ### ENC -/

/-- Every pair the encoder gives is ordered. -/
theorem encodeColour_le (cfg : Cfg) (q : Quality) (blk : Tile Pixel) :
    (encodeColour cfg q blk).ordered.c1.toNat ≤ (encodeColour cfg q blk).ordered.c0.toNat := by
  unfold encodeColour
  split_ifs
  · exact (orderingKeepsTheColours .mulShift8 _ _ _).1
  · exact (orderingKeepsTheColours .mulShift8 _ _ _).1

theorem encodeColour_of_flat {cfg : Cfg} {blk : Tile Pixel} (h : isFlat cfg.flatCompare blk = true) (q : Quality) :
    encodeColour cfg q blk = encodeFlat (blk.get 0).rgb := if_pos h

theorem encodeColour_of_not_flat {cfg : Cfg} {blk : Tile Pixel} (h : isFlat cfg.flatCompare blk = false) (q : Quality) :
    encodeColour cfg q blk = encodeGeneral cfg q (blk.map Pixel.rgb) := if_neg (by simp [h])

theorem encodeColour_flat (cfg : Cfg) (q : Quality) (blk : Tile Pixel) :
    (encodeColour cfg q blk).flat = isFlat cfg.flatCompare blk := by
  unfold encodeColour
  split_ifs with h
  · exact h.symm
  · exact (Bool.eq_false_iff.mpr h).symm

/-- The state ENC leaves (45_block_codec.md R286). -/
def State.encoded (s : State) (m : Mode) (q : Quality) : State :=
  let x := encodeColour s.cfg q s.pixels
  ((((s.buildTables.putBlock (encodeBlock s.cfg m q s.pixels)).putEndpoints x.ordered.c0 x.ordered.c1).putMask
    x.ordered.mask).mapStatus
      fun st => ((st.withFlat x.flat).withRefine x.changed x.skipped).withSwapped x.ordered.swapped).succeed

theorem exec_enc (m : Mode) (q : Quality) (s : State) : exec (.enc m q) s = .next (s.encoded m q) := rfl

/-- The block registers of the mode hold the block. -/
theorem State.blockOf_encoded (s : State) (m : Mode) (q : Quality) :
    (s.encoded m q).blockOf m = encodeBlock s.cfg m q s.pixels := by
  cases m with
  | bc1 => exact State.blockOf_putBlock_bc1 s.buildTables _
  | bc3 => exact State.blockOf_putBlock_bc3 s.buildTables _ _

/-- Settles O46: the fields of `State.encoded`. -/
theorem encWritesTheBlockAndReports : Obligations.EncWritesTheBlockAndReports := by
  intro m q s x j0
  obtain ⟨hlo, hhi⟩ := ordered_block_words x.ordered
  have hordered : x.ordered.c1.toNat ≤ x.ordered.c0.toNat := encodeColour_le s.cfg q s.pixels
  have hflat : x.flat = isFlat s.cfg.flatCompare s.pixels := encodeColour_flat ..
  have hfast : x.flat = true → x.changed = false ∧ x.skipped = false := by
    intro h
    have hx : x = encodeFlat (s.pixels.get 0).rgb := encodeColour_of_flat (hflat ▸ h) q
    exact ⟨congrArg ColourResult.changed hx, congrArg ColourResult.skipped hx⟩
  have hep : (s.encoded m q).read .ep = epWord x.ordered.c0 x.ordered.c1 := rfl
  refine ⟨_, exec_enc m q s, congrArg Block.toList (s.blockOf_encoded m q), ?_, ?_, ep0_epWord _ _, ep1_epWord _ _, rfl,
    ?_, hflat, rfl, rfl, rfl, hfast, rfl, rfl, ?_, rfl, rfl, ?_, ?_⟩
  · cases m <;> exact hlo
  · cases m <;> exact hhi
  · rw [hep, ep0_epWord, ep1_epWord]
    exact hordered
  · cases m <;> rfl
  · intro j hj
    cases m with
    | bc1 =>
      have hlow : j.val < 2 := hj.resolve_left nofun
      obtain rfl | rfl : j = 0 ∨ j = 1 := by omega
      · rfl
      · rfl
    | bc3 => fin_cases j <;> rfl
  · rintro rfl
    exact ⟨rfl, rfl, rfl, rfl⟩

end Sys2Proof.Machine
end

section
/-! PROOFS. ENC as its stage commands run one after another (45_block_codec.md R282, R283), and the pre-dither as an error
diffusion (41_estimator.md R196, R197). -/

namespace Sys2Proof.Machine

open Sys2Proof

/-! ### The states the stage commands leave -/

/-- The state with other pixel registers. -/
def State.withPix (s : State) (p : Tile DataReg) : State := { s with pix := p }

@[simp] theorem State.withPix_cfg (s : State) (p : Tile DataReg) : (s.withPix p).cfg = s.cfg := rfl
@[simp] theorem State.withPix_status (s : State) (p : Tile DataReg) : (s.withPix p).status = s.status := rfl

/-- The colours of pixel registers. -/
def pixColours (p : Tile DataReg) : Tile RGB := (p.map fun d => unpackPixel d.value).map Pixel.rgb

/-- What FLATC leaves. -/
def State.flatced (s : State) : State :=
  (((s.buildTables.putEndpoints (fastMax (s.pixels.get 0).rgb) (fastMin (s.pixels.get 0).rgb)).putMask
    fastMask).mapStatus (·.withFlat (isFlat s.cfg.flatCompare s.pixels))).succeed

/-- What ESTC leaves. -/
def State.estced (s : State) : State :=
  (s.putEndpoints (estimate s.cfg (pixColours s.pix)).1 (estimate s.cfg (pixColours s.pix)).2).succeed

/-- What PALC leaves. -/
def State.palced (s : State) : State :=
  (s.buildTables.putPalette (evalColours s.cfg.lerp13 (ep0 (s.read .ep)) (ep1 (s.read .ep)))).succeed

/-- What MATCHC leaves. -/
def State.matched (s : State) (q : Quality) : State :=
  (s.putMask (matchColours s.cfg q (pixColours s.pix) s.palette)).succeed

/-- What REFC leaves, by what `refine` returns. -/
def State.refced (s : State) (x : Refined) : State :=
  ((s.putEndpoints x.mx x.mn).mapStatus (·.withRefine x.changed x.skipped)).succeed

/-- What `refine` returns in a state. -/
def State.refined (s : State) : Refined :=
  refine s.cfg.refineNumerics (pixColours s.pix) (ep0 (s.read .ep)) (ep1 (s.read .ep)) (s.read .mask)

@[simp] theorem State.flatced_cfg (s : State) : s.flatced.cfg = s.cfg := rfl
@[simp] theorem State.estced_cfg (s : State) : s.estced.cfg = s.cfg := rfl
@[simp] theorem State.palced_cfg (s : State) : s.palced.cfg = s.cfg := rfl
@[simp] theorem State.matched_cfg (s : State) (q : Quality) : (s.matched q).cfg = s.cfg := rfl
@[simp] theorem State.refced_cfg (s : State) (x : Refined) : (s.refced x).cfg = s.cfg := rfl
@[simp] theorem State.flatced_pix (s : State) : s.flatced.pix = s.pix := rfl
@[simp] theorem State.estced_pix (s : State) : s.estced.pix = s.pix := rfl
@[simp] theorem State.palced_pix (s : State) : s.palced.pix = s.pix := rfl
@[simp] theorem State.matched_pix (s : State) (q : Quality) : (s.matched q).pix = s.pix := rfl
@[simp] theorem State.refced_pix (s : State) (x : Refined) : (s.refced x).pix = s.pix := rfl

theorem eq_flatced {s t : State} (h : exec .flatc s = .next t) : t = s.flatced := execFlatc_next h
theorem eq_estced {s t : State} (h : exec .estc s = .next t) : t = s.estced := execEstc_next h
theorem eq_palced {s t : State} (h : exec .palc s = .next t) : t = s.palced := execPalc_next h
theorem eq_matched {q : Quality} {s t : State} (h : exec (.matchc q) s = .next t) : t = s.matched q := execMatchc_next h

theorem eq_refced {s t : State} (h : exec .refc s = .next t) : t = s.refced s.refined := by
  obtain ⟨x, rfl, ht⟩ := execRefc_next h
  exact ht

theorem eq_ordered {m : Mode} {s t : State} (h : exec (.ordc m) s = .next t) :
    t = s.ordered m (orderEndpoints (ep0 (s.read .ep)) (ep1 (s.read .ep)) (s.read .mask)) := by
  obtain ⟨o, rfl, ht⟩ := execOrdc_next h
  exact ht

theorem eq_encoded {m : Mode} {q : Quality} {s t : State} (h : exec (.enc m q) s = .next t) : t = s.encoded m q :=
  execEnc_next h

/-- PALC and then MATCHC: the mask is matched against the palette of `EP`. -/
theorem read_mask_palced_matched (s : State) (q : Quality) : (s.palced.matched q).read .mask =
    matchColours s.cfg q (pixColours s.pix) (evalColours s.cfg.lerp13 (ep0 (s.read .ep)) (ep1 (s.read .ep))) := by
  have hpal : s.palced.palette = evalColours s.cfg.lerp13 (ep0 (s.read .ep)) (ep1 (s.read .ep)) :=
    State.palette_putPalette s.buildTables _
  rw [← hpal]
  rfl

theorem read_ep_palced_matched (s : State) (q : Quality) : (s.palced.matched q).read .ep = s.read .ep := rfl

theorem status_palced_matched (s : State) (q : Quality) : (s.palced.matched q).status = s.status.succeeded := rfl

/-! ### The stages of a block that is not flat -/

section
variable (s : State) (q : Quality) (e p : Tile DataReg)

/-- The state before REFC: the estimate and its match, the estimator seeing the pixel registers `e` and the matcher
`p`. -/
def State.firstMatch : State := (((s.flatced.withPix e).estced.withPix p).palced).matched q

/-- The state after REFC. -/
def State.firstRefine : State := ((s.firstMatch q e p).withPix e).refced ((s.firstMatch q e p).withPix e).refined

/-- The state before ORDC: matched again where REFC reports a change. -/
def State.finalMatch : State :=
  if (s.firstRefine q e p).status.refChanged then ((s.firstRefine q e p).withPix p).palced.matched q
  else s.firstRefine q e p

variable {s q e p}

theorem read_mask_firstMatch : (s.firstMatch q e p).read .mask = matchColours s.cfg q (pixColours p)
    (evalColours s.cfg.lerp13 (estimate s.cfg (pixColours e)).1 (estimate s.cfg (pixColours e)).2) := by
  have hep : ((s.flatced.withPix e).estced.withPix p).read .ep =
      epWord (estimate s.cfg (pixColours e)).1 (estimate s.cfg (pixColours e)).2 := rfl
  have h := read_mask_palced_matched ((s.flatced.withPix e).estced.withPix p) q
  rw [hep, ep0_epWord, ep1_epWord] at h
  exact h

theorem refined_firstMatch : ((s.firstMatch q e p).withPix e).refined =
    refine s.cfg.refineNumerics (pixColours e) (estimate s.cfg (pixColours e)).1 (estimate s.cfg (pixColours e)).2
      ((s.firstMatch q e p).read .mask) := by
  have hep : ((s.firstMatch q e p).withPix e).read .ep =
      epWord (estimate s.cfg (pixColours e)).1 (estimate s.cfg (pixColours e)).2 := rfl
  rw [State.refined, hep, ep0_epWord, ep1_epWord]
  rfl

theorem cfg_firstRefine : (s.firstRefine q e p).cfg = s.cfg := by
  simp [State.firstRefine, State.firstMatch]

/-- Before ORDC the registers hold the endpoints and the mask that `encodeGeneral` orders, and `STATUS` its flags. -/
theorem finalMatch_holds (hflat : isFlat s.cfg.flatCompare s.pixels = false)
    (he : pixColours e = estimatorInput s.cfg q (pixColours p)) :
    let t := s.finalMatch q e p
    let x := encodeGeneral s.cfg q (pixColours p)
    x.ordered = orderEndpoints (ep0 (t.read .ep)) (ep1 (t.read .ep)) (t.read .mask) ∧
      t.status = ((s.status.withFlat false).withRefine x.changed x.skipped).succeeded := by
  obtain ⟨y, hy⟩ : ∃ y, ((s.firstMatch q e p).withPix e).refined = y := ⟨_, rfl⟩
  have hgeneral : encodeGeneral s.cfg q (pixColours p) =
      ⟨orderEndpoints y.mx y.mn (if y.changed then
        matchColours s.cfg q (pixColours p) (evalColours s.cfg.lerp13 y.mx y.mn) else (s.firstMatch q e p).read .mask),
        false, y.changed, y.skipped⟩ := by
    rw [← hy, refined_firstMatch, read_mask_firstMatch, he]
    rfl
  have hrefine : s.firstRefine q e p = ((s.firstMatch q e p).withPix e).refced y := hy ▸ rfl
  have hep : (s.firstRefine q e p).read .ep = epWord y.mx y.mn := hrefine ▸ rfl
  have hmask : (s.firstRefine q e p).read .mask = (s.firstMatch q e p).read .mask := rfl
  have hstatus : (s.firstRefine q e p).status = ((s.status.withFlat false).withRefine y.changed y.skipped).succeeded := by
    rw [hrefine, ← hflat]
    rfl
  have hchanged : (s.firstRefine q e p).status.refChanged = y.changed := congrArg Status.refChanged hstatus
  rw [hgeneral, State.finalMatch, hchanged]
  cases hc : y.changed with
  | false =>
    simp only [Bool.false_eq_true, if_false, hep, hmask, ep0_epWord, ep1_epWord]
    exact ⟨trivial, hc ▸ hstatus⟩
  | true =>
    simp only [if_true]
    have hfinal := read_mask_palced_matched ((s.firstRefine q e p).withPix p) q
    have hep' : ((s.firstRefine q e p).withPix p).read .ep = epWord y.mx y.mn := hep
    rw [hep', ep0_epWord, ep1_epWord] at hfinal
    rw [hfinal, read_ep_palced_matched, hep', ep0_epWord, ep1_epWord, status_palced_matched, State.withPix_status,
      hstatus, hc, State.withPix_cfg, cfg_firstRefine]
    exact ⟨rfl, rfl⟩

end

/-- What ORDC leaves in the registers ENC writes, where the registers hold the pair and the mask that ENC orders. -/
theorem encoded_eq_ordered {s t : State} {q : Quality} {x : ColourResult} (hx : encodeColour s.cfg q s.pixels = x)
    (ho : x.ordered = orderEndpoints (ep0 (t.read .ep)) (ep1 (t.read .ep)) (t.read .mask))
    (hs : t.status = ((s.status.withFlat x.flat).withRefine x.changed x.skipped).succeeded) :
    let u := t.ordered .bc1 (orderEndpoints (ep0 (t.read .ep)) (ep1 (t.read .ep)) (t.read .mask))
    (s.encoded .bc1 q).read .ep = u.read .ep ∧ (s.encoded .bc1 q).read .mask = u.read .mask ∧
      (s.encoded .bc1 q).read (.blk 0) = u.read (.blk 0) ∧ (s.encoded .bc1 q).read (.blk 1) = u.read (.blk 1) ∧
      (s.encoded .bc1 q).status = u.status := by
  intro u
  have hu : u = t.ordered .bc1 (encodeColour s.cfg q s.pixels).ordered := by
    rw [hx, ho]
  have hstatus : u.status = (t.status.withSwapped (encodeColour s.cfg q s.pixels).ordered.swapped).succeeded := hu ▸ rfl
  rw [hu] at *
  refine ⟨rfl, rfl, rfl, rfl, ?_⟩
  rw [hstatus, hs, ← hx]
  rfl

/-! ### The pre-dither -/

/-- The pre-dither shifts by an integer literal; a shift by four is the floor of a sixteenth. -/
theorem shiftRight_intFour (m : Int) : m >>> (4 : Int) = m / 16 :=
  (Int.shiftRight_natCast_right m 4).trans (Int.shiftRight_eq_div_pow m 4)

/-- One channel of the pre-dither is the diffusion of the quantiser's error (41_estimator.md R196). -/
theorem diffused_preDither (quant : Int → Byte) (t : Tile Int) : ∃ err : Int → Int → Int,
    (∀ x y : Int, x < 0 ∨ 3 < x ∨ y < 0 ∨ 3 < y → err x y = 0) ∧
    ∀ i : Fin 16,
      let x : Int := (i.val % 4 : Nat)
      let y : Int := (i.val / 4 : Nat)
      let e := 7 * err (x - 1) y + 3 * err (x + 1) (y - 1) + 5 * err x (y - 1) + err (x - 1) (y - 1)
      let v := (diffuseTile (preDitherCell quant) t).get i
      v = quant (t.get i + e / 16) ∧ err x y = t.get i - chan v := by
  refine ⟨storedError (diffusedErrors (preDitherCell quant) t), fun x y => storedError_outside _, fun i => ?_⟩
  intro x y e v
  have hcell := diffuseTile_cell (preDitherCell quant) t i
  rw [preDitherCell, shiftRight_intFour] at hcell
  obtain ⟨hv, herr⟩ := Prod.mk.inj hcell
  refine ⟨hv.symm, ?_⟩
  rw [← herr, hv]

/-- The pixel registers that hold a tile. -/
def packedPix (t : Tile Pixel) : Tile DataReg := t.map fun p => .holding (packPixel p)

theorem pixColours_packedPix (t : Tile Pixel) : pixColours (packedPix t) = t.map Pixel.rgb := by
  refine Tile.ext_get fun i => ?_
  simp only [pixColours, packedPix, Tile.get_map, DataReg.holding, unpackPixel_packPixel]

theorem State.putPixels_eq_withPix (s : State) (t : Tile Pixel) : s.putPixels t = s.withPix (packedPix t) := rfl

theorem State.withPix_self {s : State} {p : Tile DataReg} (h : s.pix = p) : s.withPix p = s := h ▸ rfl

/-! ### ENC as its stages -/

section
variable {s s4 s5 s6 s7 t : State} {q : Quality} {e p : Tile DataReg}

theorem flat_of_flatc {s0 : State} (h0 : exec .flatc s = .next s0) (hflat : s0.status.flat = false) :
    isFlat s.cfg.flatCompare s.pixels = false := by
  rw [eq_flatced h0] at hflat
  exact hflat

/-- The stages after REFC, as the obligation runs them. -/
theorem eq_finalMatch (h4 : s4 = s.firstRefine q e p)
    (hchanged : s4.status.refChanged = true →
      exec .palc (s4.withPix p) = .next s5 ∧ exec (.matchc q) s5 = .next s6)
    (hunchanged : s4.status.refChanged = false → s6 = s4) : s6 = s.finalMatch q e p := by
  subst h4
  cases hc : (s.firstRefine q e p).status.refChanged with
  | false =>
    rw [State.finalMatch, hc]
    exact hunchanged hc
  | true =>
    obtain ⟨h5, h6⟩ := hchanged hc
    rw [State.finalMatch, hc, ← eq_palced h5]
    exact eq_matched h6

/-- The stages and then ORDC leave what ENC leaves. -/
theorem stages_eq_enc (hflat : isFlat s.cfg.flatCompare s.pixels = false) (hp : pixColours p = s.pixels.map Pixel.rgb)
    (he : pixColours e = estimatorInput s.cfg q (pixColours p)) (h6 : s6 = s.finalMatch q e p)
    (h7 : exec (.ordc .bc1) s6 = .next s7) (ht : exec (.enc .bc1 q) s = .next t) :
    t.read .ep = s7.read .ep ∧ t.read .mask = s7.read .mask ∧ t.read (.blk 0) = s7.read (.blk 0) ∧
      t.read (.blk 1) = s7.read (.blk 1) ∧ t.status = s7.status := by
  subst h6
  rw [eq_ordered h7, eq_encoded ht]
  obtain ⟨hordered, hstatus⟩ := finalMatch_holds hflat he
  have hcolour : encodeColour s.cfg q s.pixels = encodeGeneral s.cfg q (pixColours p) := by
    rw [encodeColour_of_not_flat hflat, hp]
  exact encoded_eq_ordered hcolour hordered hstatus

end

/-- Settles O47: before ORDC the registers hold what `encodeGeneral` orders, and the pre-dither is three diffusions. -/
theorem encIsThePipelineOfItsStages : Obligations.EncIsThePipelineOfItsStages := by
  refine ⟨?_, ?_, ?_⟩
  · intro q s s0 s1 s2 s3 s4 s5 s6 s7 t hq h0 hflat h1 h2 h3 h4 hchanged hunchanged h7 ht
    have hflat := flat_of_flatc h0 hflat
    have hpix0 : s0.pix = s.pix := by rw [eq_flatced h0, State.flatced_pix]
    have hpix1 : s1.pix = s.pix := by rw [eq_estced h1, State.estced_pix, hpix0]
    have hpix3 : s3.pix = s.pix := by rw [eq_matched h3, State.matched_pix, eq_palced h2, State.palced_pix, hpix1]
    have hpix4 : s4.pix = s.pix := by rw [eq_refced h4, State.refced_pix, hpix3]
    have hrefine : s4 = s.firstRefine q s.pix s.pix := by
      rw [State.firstRefine, State.firstMatch, ← eq_flatced h0, State.withPix_self hpix0, ← eq_estced h1,
        State.withPix_self hpix1, ← eq_palced h2, ← eq_matched h3, State.withPix_self hpix3]
      exact eq_refced h4
    rw [← State.withPix_self hpix4] at hchanged
    refine stages_eq_enc hflat rfl ?_ (eq_finalMatch hrefine hchanged hunchanged) h7 ht
    have hplain : ¬ (q = .dithered ∧ s.cfg.preDither = true) := by
      rintro ⟨rfl, hpre⟩
      exact hq.elim nofun fun h => Bool.false_ne_true (h.symm.trans hpre)
    exact (if_neg hplain).symm
  · intro s s0 s1 s2 s3 s4 s5 s6 s7 t dblk hpre hdblk h0 hflat h1 h2 h3 h4 hchanged hunchanged h7 ht
    have hflat := flat_of_flatc h0 hflat
    have hp := pixColours_packedPix s.pixels
    have he : pixColours (packedPix dblk) = estimatorInput s.cfg .dithered (pixColours (packedPix s.pixels)) := by
      rw [pixColours_packedPix, hdblk, hp]
      exact (if_pos ⟨rfl, hpre⟩).symm
    have hrefine : s4 = s.firstRefine .dithered (packedPix dblk) (packedPix s.pixels) := by
      rw [State.putPixels_eq_withPix] at h1 h2 h4
      rw [State.firstRefine, State.firstMatch, ← eq_flatced h0, ← eq_estced h1, ← eq_palced h2, ← eq_matched h3]
      exact eq_refced h4
    exact stages_eq_enc hflat hp he (eq_finalMatch hrefine hchanged hunchanged) h7 ht
  · intro blk out clamp quantRb quantG diffused
    have hout (i : Fin 16) : (out.get i).r = (diffuseTile (preDitherCell quant5) (channel RGB.r blk)).get i ∧
        (out.get i).g = (diffuseTile (preDitherCell quant6) (channel RGB.g blk)).get i ∧
        (out.get i).b = (diffuseTile (preDitherCell quant5) (channel RGB.b blk)).get i := by
      simp [out, ditherBlock]
    have hchannel (c : RGB → Byte) (i : Fin 16) : (channel c blk).get i = chan (c (blk.get i)) := by simp [channel]
    have channelwise {c : RGB → Byte} {quant : Int → Byte}
        (hc : ∀ i, c (out.get i) = (diffuseTile (preDitherCell quant) (channel c blk)).get i) : diffused c quant := by
      obtain ⟨err, hzero, herr⟩ := diffused_preDither quant (channel c blk)
      refine ⟨err, hzero, fun i => ?_⟩
      rw [hc, ← hchannel]
      exact herr i
    exact ⟨channelwise fun i => (hout i).1, channelwise fun i => (hout i).2.1, channelwise fun i => (hout i).2.2⟩

/-- A BC3 block holds the colour words, the pair, the mask and the flags of the BC1 block (45_block_codec.md R283). -/
theorem encoded_bc3_eq_bc1 (s : State) (q : Quality) :
    let x := encodeColour s.cfg q s.pixels
    let t (m : Mode) := s.encoded m q
    ((t .bc3).read (.blk 2) = bytesWord x.ordered.block.lo ∧ (t .bc1).read (.blk 0) = bytesWord x.ordered.block.lo) ∧
      ((t .bc3).read (.blk 3) = bytesWord x.ordered.block.hi ∧ (t .bc1).read (.blk 1) = bytesWord x.ordered.block.hi) ∧
      ∀ m, (t m).read .ep = epWord x.ordered.c0 x.ordered.c1 ∧ (t m).read .mask = x.ordered.mask ∧
        (t m).status = (((s.status.withFlat x.flat).withRefine x.changed x.skipped).withSwapped
          x.ordered.swapped).succeeded := by
  refine ⟨⟨rfl, rfl⟩, ⟨rfl, rfl⟩, fun m => ?_⟩
  cases m <;> exact ⟨rfl, rfl, rfl⟩

/-- Settles O48: a flat block is ordered from the fast path, and a BC3 block joins two sub-blocks. -/
theorem flatAndBc3BlocksAreAssembledFromStages : Obligations.FlatAndBc3BlocksAreAssembledFromStages := by
  refine ⟨?_, ?_⟩
  · intro q s s1 s2 t hflat h1 h2 ht
    have hfast : encodeColour s.cfg q s.pixels = encodeFlat (s.pixels.get 0).rgb := encodeColour_of_flat hflat q
    have hep : s.flatced.read .ep = epWord (fastMax (s.pixels.get 0).rgb) (fastMin (s.pixels.get 0).rgb) := rfl
    have hord : s2 = s.flatced.ordered .bc1 (encodeColour s.cfg q s.pixels).ordered := by
      rw [eq_ordered h2, eq_flatced h1, hep, ep0_epWord, ep1_epWord, hfast]
      rfl
    have hflag : s2.status.flat = (encodeColour s.cfg q s.pixels).flat := by
      rw [hord, encodeColour_flat]
      rfl
    rw [eq_encoded ht, hflag, hord]
    exact ⟨rfl, rfl, rfl, rfl, rfl, rfl⟩
  · intro q s a c t ha hc ht
    rw [execEnca_next ha, eq_encoded hc, eq_encoded ht]
    obtain ⟨⟨hlo, hlo'⟩, ⟨hhi, hhi'⟩, hsame⟩ := encoded_bc3_eq_bc1 s q
    obtain ⟨hep, hmask, hstatus⟩ := hsame .bc3
    obtain ⟨hep', hmask', hstatus'⟩ := hsame .bc1
    exact ⟨rfl, rfl, hlo.trans hlo'.symm, hhi.trans hhi'.symm, hep.trans hep'.symm, hmask.trans hmask'.symm,
      hstatus.trans hstatus'.symm⟩

end Sys2Proof.Machine
end

section
/-! PROOFS. The decoder and what the encoder's output decodes to (42_palette_match.md R219 to R222, 45_block_codec.md R283 to
R285, R287, R289): DEC pixel by pixel, the round trip of flat blocks, and the two palette rules on the encoder's output. -/

namespace Sys2Proof.Machine

open Sys2Proof

/-! ### The decoder palette, entry by entry -/

theorem bitVec2_cases (k : BitVec 2) : k = 0 ∨ k = 1 ∨ k = 2 ∨ k = 3 := by
  revert k
  decide

theorem fourColourMode_iff (cfg : Cfg) (bc3 : Bool) (c0 c1 : Half) :
    fourColourMode cfg bc3 c0 c1 = true ↔ c1.toNat < c0.toNat ∨ (bc3 = true ∧ cfg.bc3Color4Only = true) := by
  simp [fourColourMode, or_comm]

theorem toNat_midpoint (a b : Byte) : (midpoint a b).toNat = (a.toNat + b.toNat) / 2 := by
  rw [midpoint, BitVec.toNat_ofNat, Nat.mod_eq_of_lt (by omega)]

theorem decoderPalette_of_four {cfg : Cfg} {bc3 : Bool} {c0 c1 : Half} (h : fourColourMode cfg bc3 c0 c1 = true) :
    decoderPalette cfg bc3 c0 c1 = palette4 cfg c0 c1 := if_pos h

theorem decoderPalette_of_three {cfg : Cfg} {bc3 : Bool} {c0 c1 : Half} (h : fourColourMode cfg bc3 c0 c1 = false) :
    decoderPalette cfg bc3 c0 c1 = palette3 cfg c0 c1 := if_neg (by simp [h])

theorem get_decodeColour (cfg : Cfg) (bc3 : Bool) (sb : SubBlock) (i : Fin 16) :
    (decodeColour cfg bc3 sb).get i = (decoderPalette cfg bc3 sb.c0 sb.c1).get (maskIndex sb.mask i).toFin := by
  simp [decodeColour, unpackMask]

/-- The entries of the decoder palette in both modes (42_palette_match.md R220 to R222). -/
theorem decoderPalette_entries {cfg : Cfg} {bc3 : Bool} {e0 e1 : Half} {four : Prop}
    (hfour : fourColourMode cfg bc3 e0 e1 = true ↔ four) (j : BitVec 2) :
    let k := j.toNat
    let p := (decoderPalette cfg bc3 e0 e1).get j.toFin
    let c0 := from16 e0
    let c1 := from16 e1
    (k = 0 → p.rgb = c0) ∧ (k = 1 → p.rgb = c1) ∧
    (k = 2 → four → p.rgb = lerpRgb cfg.lerp13 c0 c1) ∧ (k = 3 → four → p.rgb = lerpRgb cfg.lerp13 c1 c0) ∧
    (k = 2 → ¬ four → p.r.toNat = (c0.r.toNat + c1.r.toNat) / 2 ∧ p.g.toNat = (c0.g.toNat + c1.g.toNat) / 2 ∧
      p.b.toNat = (c0.b.toNat + c1.b.toNat) / 2) ∧
    (k = 3 → ¬ four → p.rgb = ⟨0, 0, 0⟩) ∧ (k = 3 ∧ ¬ four → p.a = 0) ∧
    (¬ (k = 3 ∧ ¬ four) → p.a = cfg.bc1OpaqueAlpha) := by
  intro k p c0 c1
  have hj {n : BitVec 2} (hk : j.toNat = n.toNat) : j = n := BitVec.eq_of_toNat_eq hk
  by_cases h : four
  · have hp : p = withAlpha ((evalColours cfg.lerp13 e0 e1).get j.toFin) cfg.bc1OpaqueAlpha := by
      rw [← Quad.get_map (withAlpha · cfg.bc1OpaqueAlpha)]
      exact congrArg (Quad.get · j.toFin) (decoderPalette_of_four (hfour.mpr h))
    rw [hp]
    refine ⟨fun hk => ?_, fun hk => ?_, fun hk _ => ?_, fun hk _ => ?_, fun _ hn => absurd h hn, fun _ hn => absurd h hn,
      fun hn => absurd h hn.2, fun _ => rfl⟩
    · rw [hj (n := 0) hk]; rfl
    · rw [hj (n := 1) hk]; rfl
    · rw [hj (n := 2) hk]; rfl
    · rw [hj (n := 3) hk]; rfl
  · have hp : p = (palette3 cfg e0 e1).get j.toFin := congrArg (Quad.get · j.toFin)
      (decoderPalette_of_three (Bool.eq_false_iff.mpr fun hf => h (hfour.mp hf)))
    rw [hp]
    refine ⟨fun hk => ?_, fun hk => ?_, fun _ hf => absurd hf h, fun _ hf => absurd hf h, fun hk _ => ?_,
      fun hk _ => ?_, fun hk => ?_, fun hn => ?_⟩
    · rw [hj (n := 0) hk]; rfl
    · rw [hj (n := 1) hk]; rfl
    · rw [hj (n := 2) hk]
      exact ⟨toNat_midpoint _ _, toNat_midpoint _ _, toNat_midpoint _ _⟩
    · rw [hj (n := 3) hk]; rfl
    · rw [hj (n := 3) hk.1]; rfl
    · have hk : j ≠ 3 := fun hk => hn ⟨congrArg BitVec.toNat hk, h⟩
      obtain rfl | rfl | rfl | rfl := bitVec2_cases j
      · rfl
      · rfl
      · rfl
      · exact absurd rfl hk

/-! ### DEC -/

theorem exec_dec (m : Mode) (s : State) :
    exec (.dec m) s = .next (s.buildTables.putPixels (decodeBlock s.cfg (s.blockOf m))).succeed := rfl

theorem unpackPixel_read_pix_putPixels (s : State) (t : Tile Pixel) (i : Fin 16) :
    unpackPixel ((s.putPixels t).succeed.read (.pix i)) = t.get i := by
  rw [← get_pixels, State.pixels_succeed, State.pixels_putPixels]

theorem specified_pix_putPixels (s : State) (t : Tile Pixel) (i : Fin 16) :
    (s.putPixels t).succeed.specified (.pix i) = true :=
  congrArg DataReg.specified (Tile.get_map _ t i)

theorem get_decodeBlock_bc3 (cfg : Cfg) (a c : SubBlock) (i : Fin 16) : (decodeBlock cfg (.bc3 a c)).get i =
    withAlpha ((decodeColour cfg true c).get i).rgb
      (alphaRamp a.lo.q0 a.lo.q1 (a.alphaIndex cfg.alphaBitOrder i)) := by
  rw [decodeBlock, Tile.get_zipWith, get_decodeAlpha]

/-- Settles O49: the pixel registers hold the decoded block, whose pixels are entries of the decoder palette. -/
theorem decLooksUpPaletteAndRamp : Obligations.DecLooksUpPaletteAndRamp := by
  intro m s bc3 cb c0 c1 four
  refine ⟨_, exec_dec m s, rfl, rfl, fun i => ?_⟩
  intro k p
  refine ⟨specified_pix_putPixels _ _ i, ?_⟩
  have hp : p = (decodeBlock s.cfg (s.blockOf m)).get i := unpackPixel_read_pix_putPixels _ _ i
  cases m with
  | bc1 =>
    have hfour : fourColourMode s.cfg false cb.c0 cb.c1 = true ↔ four := by simp [fourColourMode_iff, four, bc3]
    obtain ⟨h0, h1, h2, h3, h2', h3', ha, ha'⟩ := decoderPalette_entries hfour (maskIndex cb.mask i)
    rw [hp, State.blockOf, decodeBlock, get_decodeColour]
    refine ⟨h0, h1, h2, h3, h2', h3', fun _ => ?_, nofun⟩
    split_ifs with h
    · exact ha h
    · exact ha' h
  | bc3 =>
    have hfour : fourColourMode s.cfg true cb.c0 cb.c1 = true ↔ four := by simp [fourColourMode_iff, four, bc3]
    obtain ⟨h0, h1, h2, h3, h2', h3', -⟩ := decoderPalette_entries hfour (maskIndex cb.mask i)
    rw [hp, State.blockOf, get_decodeBlock_bc3, get_decodeColour]
    exact ⟨h0, h1, h2, h3, h2', h3', fun hn => absurd rfl hn, fun _ => rfl⟩

/-! ### What an ordered sub-block decodes to -/

theorem lerp13_self (form : LerpForm) (a : Byte) : lerp13 form a a = a := by
  obtain ⟨h1, h2, h3⟩ := lerp13_sorted form (le_refl a.toNat)
  exact BitVec.eq_of_toNat_eq (by omega)

theorem midpoint_self (a : Byte) : midpoint a a = a :=
  BitVec.eq_of_toNat_eq ((toNat_midpoint a a).trans (by omega))

/-- Where the pair is ordered, and index 3 is not used with equal endpoints, both palette rules give the encoder's
palette. -/
theorem get_decoderPalette_of_ordered (cfg : Cfg) (bc3 : Bool) {e0 e1 : Half} (hle : e1.toNat ≤ e0.toNat) {j : BitVec 2}
    (h3 : e0 = e1 → j ≠ 3) : (decoderPalette cfg bc3 e0 e1).get j.toFin =
      withAlpha ((evalColours cfg.lerp13 e0 e1).get j.toFin) cfg.bc1OpaqueAlpha := by
  cases hfour : fourColourMode cfg bc3 e0 e1 with
  | true => rw [decoderPalette_of_four hfour, palette4, Quad.get_map]
  | false =>
    have heq : e0 = e1 := by
      have hnot : ¬ e1.toNat < e0.toNat := fun h =>
        Bool.false_ne_true (hfour.symm.trans ((fourColourMode_iff ..).mpr (.inl h)))
      exact BitVec.eq_of_toNat_eq (by omega)
    subst heq
    rw [decoderPalette_of_three hfour]
    obtain rfl | rfl | rfl | rfl := bitVec2_cases j
    · rfl
    · rfl
    · simp [palette3, evalColours, Quad.get, withAlpha, lerpRgb, lerp13_self, midpoint_self]
    · exact absurd rfl (h3 rfl)

theorem get_decodeColour_of_ordered (cfg : Cfg) (bc3 : Bool) {o : Ordered} (hle : o.c1.toNat ≤ o.c0.toNat)
    (h3 : o.c0 = o.c1 → ∀ i, maskIndex o.mask i ≠ 3) (i : Fin 16) : (decodeColour cfg bc3 o.block).get i =
      withAlpha ((evalColours cfg.lerp13 o.c0 o.c1).get (maskIndex o.mask i).toFin) cfg.bc1OpaqueAlpha := by
  rw [get_decodeColour, Ordered.block, SubBlock.c0_packColourBlock, SubBlock.c1_packColourBlock,
    SubBlock.mask_packColourBlock]
  exact get_decoderPalette_of_ordered cfg bc3 hle fun h => h3 h i

/-- A pair that orders to equal endpoints was equal, and its mask is kept. -/
theorem orderEndpoints_eq {mx mn : Half} {mask : Word}
    (h : (orderEndpoints mx mn mask).c0 = (orderEndpoints mx mn mask).c1) :
    mx = mn ∧ (orderEndpoints mx mn mask).mask = mask := by
  rcases lt_or_ge mx.toNat mn.toNat with hlt | hge
  · rw [orderEndpoints_of_lt hlt] at h
    exact absurd (congrArg BitVec.toNat h) hlt.ne'
  · rw [orderEndpoints_of_le hge] at *
    exact ⟨h, rfl⟩

/-! ### Flat blocks -/

theorem maskIndex_fastMask (i : Fin 16) : maskIndex fastMask i = 2 := by
  revert i
  decide

/-- The fast path never uses index 3 with equal endpoints: it is not swapped there, and its index is 2. -/
theorem encodeFlat_index (c : RGB) (h : (encodeFlat c).ordered.c0 = (encodeFlat c).ordered.c1) (i : Fin 16) :
    maskIndex (encodeFlat c).ordered.mask i ≠ 3 := by
  have hmask : (encodeFlat c).ordered.mask = fastMask := (orderEndpoints_eq h).2
  rw [hmask, maskIndex_fastMask]
  decide

/-- A flat block decodes to the blend of its two endpoints everywhere. -/
theorem get_decodeColour_encodeFlat (cfg : Cfg) (bc3 : Bool) (c : RGB) (i : Fin 16) :
    (decodeColour cfg bc3 (encodeFlat c).ordered.block).get i =
      withAlpha (lerpRgb cfg.lerp13 (from16 (fastMax c)) (from16 (fastMin c))) cfg.bc1OpaqueAlpha := by
  obtain ⟨hle, -, -, -, hcolours⟩ := orderingKeepsTheColours cfg.lerp13 (fastMax c) (fastMin c) fastMask
  have hentry := get_decodeColour_of_ordered cfg bc3 (o := (encodeFlat c).ordered) hle (encodeFlat_index c) i
  rw [hentry, encodeFlat, hcolours, maskIndex_fastMask]
  rfl

/-- The blend of the fast path's endpoints is within 1 of the colour in each channel (40_tables.md R169). -/
theorem fast_blend_near (c : RGB) :
    let p := lerpRgb .mulShift8 (from16 (fastMax c)) (from16 (fastMin c))
    |chan p.r - chan c.r| ≤ 1 ∧ |chan p.g - chan c.g| ≤ 1 ∧ |chan p.b - chan c.b| ≤ 1 := by
  have near5 (v : Byte) : omatch5Residual v ≤ 1 := by
    rcases omatch5Residual_eq_zero_or_one v with h | h <;> omega
  have near6 (v : Byte) : omatch6Residual v ≤ 1 := by
    rcases omatch6Residual_eq_zero_or_one v with h | h <;> omega
  simp only [lerpRgb, from16, fastMax, fastMin, red5_rgb565, green6_rgb565, blue5_rgb565]
  exact ⟨near5 c.r, near6 c.g, near5 c.b⟩

/-- Settles O50: a flat block decodes to the blend of the fast path, in both modes. -/
theorem flatBlocksRoundTripWithinOne : Obligations.FlatBlocksRoundTripWithinOne := by
  intro m q s t u hform hflat ht hu i
  obtain ⟨c, hc⟩ : ∃ c, (s.pixels.get 0).rgb = c := ⟨_, rfl⟩
  have hpixel : (s.pixels.get i).rgb = c := by
    obtain ⟨hr, hg, hb, -⟩ := (isFlat_iff _ _).mp hflat i
    rw [← hc, Pixel.rgb, Pixel.rgb, hr, hg, hb]
  have hu : u.pixels.get i = (decodeBlock s.cfg (encodeBlock s.cfg m q s.pixels)).get i := by
    rw [execDec_next hu, get_pixels, unpackPixel_read_pix_putPixels, eq_encoded ht, State.blockOf_encoded]
    cases m <;> rfl
  have hblend : (u.pixels.get i).rgb = lerpRgb .mulShift8 (from16 (fastMax c)) (from16 (fastMin c)) ∧
      (m = .bc1 → (u.pixels.get i).a = s.cfg.bc1OpaqueAlpha) := by
    rw [hu, ← hform]
    cases m with
    | bc1 =>
      rw [encodeBlock, encodeColour_of_flat hflat, hc, decodeBlock, get_decodeColour_encodeFlat]
      exact ⟨rfl, fun _ => rfl⟩
    | bc3 =>
      rw [encodeBlock, encodeColour_of_flat hflat, hc, get_decodeBlock_bc3, get_decodeColour_encodeFlat]
      exact ⟨rfl, nofun⟩
  obtain ⟨hcolour, halpha⟩ := hblend
  obtain ⟨hr, hg, hb⟩ := fast_blend_near c
  rw [← hcolour, ← hpixel] at hr hg hb
  exact ⟨hr, hg, hb, halpha⟩

/-! ### The two palette rules -/

/-- Equal endpoints match to mask 0 wherever the matcher is not the free value. -/
theorem matchColours_of_eq {cfg : Cfg} {q : Quality} (hq : q = .fast ∨ cfg.ditherMatch = .ref) (blk : Tile RGB)
    (form : LerpForm) (e : Half) : matchColours cfg q blk (evalColours form e e) = 0 := by
  obtain ⟨hplain, hdither⟩ := equalEndpointsMatchToZero blk (evalColours form e e) rfl
  cases q with
  | fast => exact hplain
  | dithered =>
    rw [matchColours, hq.resolve_left nofun]
    exact hdither

theorem refine_unchanged {form : Numerics} {blk : Tile RGB} {mx mn : Half} {mask : Word}
    (h : (refine form blk mx mn mask).changed = false) :
    (refine form blk mx mn mask).mx = mx ∧ (refine form blk mx mn mask).mn = mn := by
  cases hdeg : (normalTerms mask).degenerate with
  | true =>
    rw [refine_of_degenerate hdeg]
    exact ⟨rfl, rfl⟩
  | false =>
    rw [refine_of_nondegenerate hdeg] at *
    simpa using h

/-- The mask that `encodeGeneral` orders was matched against the palette of the pair it orders. -/
theorem encodeGeneral_matched (cfg : Cfg) (q : Quality) (blk : Tile RGB) : ∃ mx mn,
    (encodeGeneral cfg q blk).ordered =
      orderEndpoints mx mn (matchColours cfg q blk (evalColours cfg.lerp13 mx mn)) := by
  obtain ⟨e, he⟩ : ∃ e, estimate cfg (estimatorInput cfg q blk) = e := ⟨_, rfl⟩
  obtain ⟨x, hx⟩ : ∃ x, refine cfg.refineNumerics (estimatorInput cfg q blk) e.1 e.2
    (matchColours cfg q blk (evalColours cfg.lerp13 e.1 e.2)) = x := ⟨_, rfl⟩
  refine ⟨x.mx, x.mn, ?_⟩
  simp only [encodeGeneral, he, hx]
  cases hc : x.changed with
  | true => rfl
  | false =>
    obtain ⟨hmx, hmn⟩ := refine_unchanged (hx ▸ hc)
    rw [hx] at hmx hmn
    simp [hmx, hmn]

/-- The encoder never emits index 3 with equal endpoints (45_block_codec.md R283): the index is 2 on the fast path, and 0
otherwise. -/
theorem encodeColour_index {cfg : Cfg} {q : Quality} (hq : q = .fast ∨ cfg.ditherMatch = .ref) (blk : Tile Pixel)
    (h : (encodeColour cfg q blk).ordered.c0 = (encodeColour cfg q blk).ordered.c1) (i : Fin 16) :
    maskIndex (encodeColour cfg q blk).ordered.mask i ≠ 3 := by
  cases hflat : isFlat cfg.flatCompare blk with
  | true =>
    rw [encodeColour_of_flat hflat] at *
    exact encodeFlat_index _ h i
  | false =>
    rw [encodeColour_of_not_flat hflat] at *
    obtain ⟨mx, mn, hordered⟩ := encodeGeneral_matched cfg q (blk.map Pixel.rgb)
    rw [hordered] at h ⊢
    obtain ⟨rfl, hmask⟩ := orderEndpoints_eq h
    rw [hmask, matchColours_of_eq hq]
    revert i
    decide

/-- Settles O51: the encoder's sub-block is ordered, so both palette rules give the encoder's palette. -/
theorem encoderOutputDecodesAlikeInBothPaletteRules : Obligations.EncoderOutputDecodesAlikeInBothPaletteRules := by
  intro cfg q blk hq o
  have hle : o.c1.toNat ≤ o.c0.toNat := encodeColour_le cfg q blk
  have hcolour : decodeColour { cfg with bc3Color4Only := true } true o.block =
      decodeColour { cfg with bc3Color4Only := false } true o.block := by
    refine Tile.ext_get fun i => ?_
    rw [get_decodeColour_of_ordered _ _ hle (encodeColour_index hq blk),
      get_decodeColour_of_ordered _ _ hle (encodeColour_index hq blk)]
  refine ⟨encodeColour_index hq blk, ?_⟩
  rw [encodeBlock, decodeBlock, decodeBlock, hcolour]

end Sys2Proof.Machine
end

section
/-! PROOFS. The frame commands as what they leave (46_frame.md R310 to R318, 20_memory.md R82 to R84): GETBLK and PUTBLK on the
selected tile, ENCIMG and DECIMG on every tile, and that the single-block commands do the same to a tile. -/

namespace Sys2Proof.Machine

open Sys2Proof

/-! ### GETBLK and PUTBLK -/

theorem exec_getblk_ok {s : State} {p : Tile Pixel} (hc : checkFrame .getblk s = none)
    (hp : readTile s.pb s.selectedTile = .ok p) : exec .getblk s = .next (s.putPixels p).succeed := by
  simp only [exec, execGetblk, hc, hp]

/-- The frame checks read the configuration and the control registers only (60_exceptions.md R343). -/
theorem checkFrame_congr {s t : State} (h : SameControl s t) (c : FrameCommand) : checkFrame c t = checkFrame c s := by
  simp only [checkFrame, nullBuffer, badDimension, pbUndersize, cbUndersize, outOfRange, cbShort, tileInside,
    State.frame, State.pbValid, State.cbValid, h.cfg, h.imgW, h.imgH, h.bX, h.bY, h.bufcfg, h.pbLen, h.cbLen]
  rfl

/-- The two commands on the selected tile have the same checks. -/
theorem checkFrame_getblk (s : State) : checkFrame .getblk s = checkFrame .putblk s := rfl

theorem selectedTile_congr {s t : State} (h : SameControl s t) : t.selectedTile = s.selectedTile := by
  simp only [State.selectedTile, State.frame, h.imgW, h.imgH, h.bX, h.bY]

theorem exec_putblk_ok {s : State} {m : Memory} (hc : checkFrame .putblk s = none)
    (hm : writeTile s.pb (s.selectedTile.map some) s.pixels = m) :
    exec .putblk s = .next (s.setBuffer .pb m).succeed := by
  simp only [exec, execPutblk, hc, hm]

/-- A tile whose bytes are all written can be read. -/
theorem readTile_written {m : Memory} {addrs : Tile Nat} (h : ∀ a, inTile addrs a → (m.read a).isSome = true) :
    ∃ p, readTile m addrs = .ok p := by
  cases hread : readTile m addrs with
  | ok p => exact ⟨p, rfl⟩
  | error e =>
    obtain ⟨i, k, -, hnone⟩ := readTile_eq_error _ _ _ hread
    have hsome := h (addrs.get i + k.val) ⟨i, by omega, by omega⟩
    rw [hnone] at hsome
    cases hsome

theorem get_selectedTile (s : State) (i : Fin 16) : s.selectedTile.get i =
    4 * ((4 * s.bY.toInt.toNat + i.val / 4) * s.imgW.toInt.toNat + (4 * s.bX.toInt.toNat + i.val % 4)) :=
  get_tileAddrs s.frame _ _ i

/-- Settles O52: the tile is read pixel by pixel. -/
theorem getblkLoadsTheTile : Obligations.GetblkLoadsTheTile := by
  intro s hc hwritten
  obtain ⟨p, hp⟩ := readTile_written hwritten
  refine ⟨_, exec_getblk_ok hc hp, fun i => ?_, rfl, rfl, rfl, rfl⟩
  intro a q
  obtain ⟨hr, hg, hb, ha⟩ := (readPixel_eq_ok _ _ _).mp ((readTile_eq_ok _ _ _).mp hp i)
  rw [get_selectedTile] at hr hg hb ha
  have hq : q = p.get i := unpackPixel_read_pix_putPixels s p i
  rw [hq]
  exact ⟨hr, hg, hb, ha, specified_pix_putPixels s p i⟩

/-- The pixels of a tile do not overlap, so each reads as it was written. -/
theorem readPixel_writeTile_tileAddrs {f : Frame} {bx bY : Nat} (hx : 4 * bx + 3 < f.w) (m : Memory) (t : Tile Pixel)
    (i : Fin 16) :
    readPixel (writeTile m ((tileAddrs f bx bY).map some) t) ((tileAddrs f bx bY).get i) = .ok (t.get i) := by
  refine readPixel_writeTile _ _ _ i _ (Tile.get_map _ _ i) fun j x hj hne => ?_
  rw [Tile.get_map, Option.some.injEq] at hj
  exact hj ▸ tileAddrs_pixels_apart f hx hne

/-- The selected tile reads as PUTBLK wrote it. -/
theorem readPixel_putblk {s : State} {m : Memory} (hc : checkFrame .putblk s = none)
    (hm : writeTile s.pb (s.selectedTile.map some) s.pixels = m) (i : Fin 16) :
    readPixel m (s.selectedTile.get i) = .ok (s.pixels.get i) := by
  obtain ⟨-, -, hx, -⟩ := checkFrame_tile hc rfl
  rw [← hm]
  exact readPixel_writeTile_tileAddrs hx s.pb s.pixels i

/-- Settles O53: the tile is written pixel by pixel, and nothing else is. -/
theorem putblkStoresTheTile : Obligations.PutblkStoresTheTile := by
  intro s hc
  obtain ⟨m, hm⟩ : ∃ m, writeTile s.pb (s.selectedTile.map some) s.pixels = m := ⟨_, rfl⟩
  have hnext := exec_putblk_ok hc hm
  refine ⟨_, hnext, fun i => ?_, putblk_keepsBytesExcept hnext, fun a => by rw [exec_cb_eq hnext nofun], rfl, rfl⟩
  intro a p
  have hp : p = s.pixels.get i := (get_pixels s i).symm
  have ha : a = s.selectedTile.get i := (get_selectedTile s i).symm
  obtain ⟨hr, hg, hb, halpha⟩ := (readPixel_eq_ok _ _ _).mp (readPixel_putblk hc hm i)
  rw [hp, ha]
  exact ⟨rfl, hr, hg, hb, halpha⟩

theorem read_pix_putPixels (s : State) (t : Tile Pixel) (i : Fin 16) :
    (s.putPixels t).succeed.read (.pix i) = packPixel (t.get i) :=
  congrArg DataReg.value (Tile.get_map _ t i)

theorem pb_of_putblk {s t : State} (hc : checkFrame .putblk s = none) (ht : exec .putblk s = .next t) :
    writeTile s.pb (s.selectedTile.map some) s.pixels = t.pb := by
  obtain ⟨m, hm⟩ : ∃ m, writeTile s.pb (s.selectedTile.map some) s.pixels = m := ⟨_, rfl⟩
  rw [exec_putblk_ok hc hm, Host.Outcome.next.injEq] at ht
  rw [hm, ← ht]
  rfl

/-- Settles O54: the tile reads as it was written. -/
theorem putblkThenGetblkReturnsTheRegisters : Obligations.PutblkThenGetblkReturnsTheRegisters := by
  intro s t hc ht
  have same := exec_sameControl ht
  have hc' : checkFrame .getblk t = none := (checkFrame_getblk t).trans ((checkFrame_congr same _).trans hc)
  have hread : readTile t.pb t.selectedTile = .ok s.pixels := by
    rw [selectedTile_congr same, readTile_eq_ok]
    exact readPixel_putblk hc (pb_of_putblk hc ht)
  refine ⟨_, exec_getblk_ok hc' hread, fun i => ?_⟩
  rw [read_pix_putPixels, get_pixels, packPixel_unpackPixel]

/-! ### ENCIMG -/

theorem exec_encimg_ok {m : Mode} {q : Quality} {s : State} {cb : Memory} (hc : checkFrame (.encimg m) s = none)
    (he : encodeTiles s.cfg m q s.frame s.pb s.frame.nb 0 s.cb = .ok cb) :
    exec (.encimg m q) s = .next (s.buildTables.setBuffer .cb cb).succeed := by
  simp only [exec, execEncimg, hc, he]

/-- Where the frame's pixels are written, ENCIMG goes through. -/
theorem encodeTiles_written {m : Mode} (q : Quality) {s : State} (hc : checkFrame (.encimg m) s = none)
    (hwritten : PbWritten s) : ∃ cb, encodeTiles s.cfg m q s.frame s.pb s.frame.nb 0 s.cb = .ok cb := by
  obtain ⟨-, -, hw, hh⟩ := checkFrame_dims hc
  cases he : encodeTiles s.cfg m q s.frame s.pb s.frame.nb 0 s.cb with
  | ok cb => exact ⟨cb, rfl⟩
  | error e =>
    obtain ⟨k, -, -, herror⟩ := encodeTiles_error _ _ _ _ _ _ _ _ _ he
    obtain ⟨a, -, ha, hnone⟩ := frameTile_eq_error hw hh herror
    have hsome := hwritten a ha
    rw [hnone] at hsome
    cases hsome

/-- Block (bx, by) that ENCIMG leaves in `CB`. -/
theorem encodeTiles_block {cfg : Cfg} {m : Mode} {q : Quality} {f : Frame} {pb cb cb' : Memory}
    (he : encodeTiles cfg m q f pb f.nb 0 cb = .ok cb') {bx bY : Nat} (hx : bx < f.bw) (hy : bY < f.bh) :
    ∃ t, readTile pb (clampedAddrs f bx bY) = .ok t ∧
      ∀ k, k < Mode.blockSize m →
        cb'.read ((bY * f.bw + bx) * Mode.blockSize m + k) = (encodeBlock cfg m q t).toList[k]? := by
  have hn := f.tile_lt hx hy
  obtain ⟨t, ht, hbytes⟩ := (encodeTiles_ok _ _ _ _ _ _ _ _ _ he).1 (bY * f.bw + bx) (Nat.zero_le _) (by omega)
  obtain ⟨hmod, hdiv⟩ := f.tile_place (bY := bY) hx
  rw [frameTile, hmod, hdiv] at ht
  exact ⟨t, ht, hbytes⟩

/-- Settles O55: each tile is encoded to its place. -/
theorem encimgEncodesEveryTile : Obligations.EncimgEncodesEveryTile := by
  intro m q s hc hwritten W H BW BS
  obtain ⟨cb, he⟩ := encodeTiles_written q hc hwritten
  have hnext := exec_encimg_ok hc he
  refine ⟨_, hnext, fun bx bY hx hy => ?_, encimg_keepsBytesExcept hnext, fun a => rfl, rfl, rfl⟩
  obtain ⟨t, ht, hbytes⟩ := encodeTiles_block he hx hy
  refine ⟨t, fun i => ?_, fun k hk => ?_⟩
  · have hpixel := (readPixel_eq_ok _ _ _).mp ((readTile_eq_ok _ _ _).mp ht i)
    rw [get_clampedAddrs] at hpixel
    exact hpixel
  · have hBS : BS = Mode.blockSize m := by cases m <;> rfl
    rw [hBS] at hk ⊢
    exact hbytes k hk

/-! ### DECIMG -/

theorem exec_decimg_ok {m : Mode} {s : State} {pb : Memory} (hc : checkFrame (.decimg m) s = none)
    (hd : decodeTiles s.cfg m s.frame s.cb s.frame.nb 0 s.pb = .ok pb) :
    exec (.decimg m) s = .next (s.buildTables.setBuffer .pb pb).succeed := by
  simp only [exec, execDecimg, hc, hd]

/-- Where the frame's blocks are written, DECIMG goes through. -/
theorem decodeTiles_written {m : Mode} {s : State} (hwritten : CbWritten m s) :
    ∃ pb, decodeTiles s.cfg m s.frame s.cb s.frame.nb 0 s.pb = .ok pb := by
  cases hd : decodeTiles s.cfg m s.frame s.cb s.frame.nb 0 s.pb with
  | ok pb => exact ⟨pb, rfl⟩
  | error e =>
    obtain ⟨k, -, hk, herror⟩ := decodeTiles_error _ _ _ _ _ _ _ _ hd
    obtain ⟨a, -, ha, hnone⟩ := readBlock_error_in_frame (f := s.frame) (by omega) herror
    have hsome := hwritten a ha
    rw [hnone] at hsome
    cases hsome

/-- Pixel (x, y) that DECIMG leaves in `PB`. -/
theorem decodeTiles_all {cfg : Cfg} {m : Mode} {f : Frame} {cb pb pb' : Memory}
    (hd : decodeTiles cfg m f cb f.nb 0 pb = .ok pb') {x y : Nat} (hx : x < f.w) (hy : y < f.h) :
    ∃ b : Block, readBlock m cb (y / 4 * f.bw + x / 4) = .ok b ∧
      readPixel pb' (f.pixelAddr x y) = .ok ((decodeBlock cfg b).get (Fin.ofNat 16 (4 * (y % 4) + x % 4))) := by
  have hn := (f.tile_of_pixel hx hy).1
  obtain ⟨b, hb, hpixel⟩ := decodeTiles_pixel cfg m f cb hx hy f.nb 0 pb pb' hd (Nat.zero_le _) (by omega)
  have hi : (Fin.ofNat 16 (4 * (y % 4) + x % 4)) = ⟨4 * (y % 4) + x % 4, by omega⟩ :=
    Fin.ext (Nat.mod_eq_of_lt (by omega))
  exact ⟨b, hb, hi ▸ hpixel⟩

/-- Settles O56: each pixel is the pixel of its block. -/
theorem decimgDecodesEveryTile : Obligations.DecimgDecodesEveryTile := by
  intro m s hc hwritten W H BW BS
  obtain ⟨pb, hd⟩ := decodeTiles_written hwritten
  have hnext := exec_decimg_ok hc hd
  refine ⟨_, hnext, fun x y hx hy => ?_, decimg_keepsBytesExcept hnext, fun a => rfl, rfl, rfl⟩
  obtain ⟨b, hb, hpixel⟩ := decodeTiles_all hd hx hy
  obtain ⟨hlen, hbytes⟩ := readBlock_bytes hb
  have hBS : BS = Mode.blockSize m := by cases m <;> rfl
  rw [hBS]
  exact ⟨b, hlen, hbytes, (readPixel_eq_ok _ _ _).mp hpixel⟩

end Sys2Proof.Machine
end

section
/-! PROOFS. The tiles of a frame are independent (46_frame.md R318): GETBLK and ENC of an inner tile against ENCIMG, DEC and
PUTBLK against DECIMG, and that different tiles have no byte in common. -/

namespace Sys2Proof.Machine

open Sys2Proof

/-! ### Inner tiles -/

theorem Frame.inner_tile (f : Frame) {bx bY : Nat} (hx : 4 * bx + 3 < f.w) (hy : 4 * bY + 3 < f.h) :
    bx < f.bw ∧ bY < f.bh := by
  rw [Frame.bw, Frame.bh]
  omega

/-- A tile whose bytes read the same in two buffers is the same tile. -/
theorem readTile_congr {m m' : Memory} {addrs : Tile Nat} {p : Tile Pixel}
    (h : ∀ a, inTile addrs a → m.read a = m'.read a) (hp : readTile m addrs = .ok p) : readTile m' addrs = .ok p := by
  rw [readTile_eq_ok] at *
  intro i
  have same (k : Nat) (hk : k < 4) : m'.read (addrs.get i + k) = m.read (addrs.get i + k) :=
    (h _ ⟨i, by omega, by omega⟩).symm
  have hpixel := (readPixel_eq_ok _ _ _).mp (hp i)
  rw [readPixel_eq_ok, same 1 (by decide), same 2 (by decide), same 3 (by decide), ← Nat.add_zero (addrs.get i),
    same 0 (by decide)]
  exact hpixel

/-- Two buffers from which the same tile is read have the same bytes there. -/
theorem read_eq_of_readTile {m m' : Memory} {addrs : Tile Nat} {p : Tile Pixel} (hm : readTile m addrs = .ok p)
    (hm' : readTile m' addrs = .ok p) {a : Nat} (ha : inTile addrs a) : m.read a = m'.read a := by
  obtain ⟨i, hlo, hhi⟩ := ha
  obtain ⟨hr, hg, hb, halpha⟩ := (readPixel_eq_ok _ _ _).mp ((readTile_eq_ok _ _ _).mp hm i)
  obtain ⟨hr', hg', hb', halpha'⟩ := (readPixel_eq_ok _ _ _).mp ((readTile_eq_ok _ _ _).mp hm' i)
  obtain rfl | rfl | rfl | rfl : a = addrs.get i ∨ a = addrs.get i + 1 ∨ a = addrs.get i + 2 ∨ a = addrs.get i + 3 := by
    omega
  · exact hr.trans hr'.symm
  · exact hg.trans hg'.symm
  · exact hb.trans hb'.symm
  · exact halpha.trans halpha'.symm

/-! ### What the frame commands did where their checks pass -/

theorem getblk_next_ok {s t : State} (hc : checkFrame .getblk s = none) (h : exec .getblk s = .next t) :
    ∃ p, readTile s.pb s.selectedTile = .ok p ∧ t = (s.putPixels p).succeed := by
  obtain ⟨e, he, -⟩ | ⟨-, hp⟩ := execGetblk_next h
  · rw [hc] at he
    cases he
  · exact hp

theorem encimg_next_ok {m : Mode} {q : Quality} {s t : State} (hc : checkFrame (.encimg m) s = none)
    (h : exec (.encimg m q) s = .next t) : encodeTiles s.cfg m q s.frame s.pb s.frame.nb 0 s.cb = .ok t.cb := by
  obtain ⟨e, he, -⟩ | ⟨-, cb, hcb, rfl⟩ := execEncimg_next h
  · rw [hc] at he
    cases he
  · exact hcb

theorem decimg_next_ok {m : Mode} {s t : State} (hc : checkFrame (.decimg m) s = none)
    (h : exec (.decimg m) s = .next t) : decodeTiles s.cfg m s.frame s.cb s.frame.nb 0 s.pb = .ok t.pb := by
  obtain ⟨e, he, -⟩ | ⟨-, pb, hpb, rfl⟩ := execDecimg_next h
  · rw [hc] at he
    cases he
  · exact hpb

/-! ### Single-block commands on a tile -/

section
variable {m : Mode} {s x : State} (hcfg : x.cfg = s.cfg) (hw : x.imgW = s.imgW) (hh : x.imgH = s.imgH)
include hcfg hw hh

/-- GETBLK and ENC of an inner tile give the block ENCIMG writes for it. -/
theorem getblk_enc_eq_encimg {q : Quality} {g e t : State} (hc : checkFrame .getblk x = none)
    (hcs : checkFrame (.encimg m) s = none)
    (hsame : ∀ a : Nat, inTile x.selectedTile a → x.pb.read a = s.pb.read a)
    (hg : exec .getblk x = .next g) (he : exec (.enc m q) g = .next e) (ht : exec (.encimg m q) s = .next t) {k : Nat}
    (hk : k < Mode.blockSize m) :
    t.cb.read ((x.bY.toInt.toNat * s.frame.bw + x.bX.toInt.toNat) * Mode.blockSize m + k) =
      (e.blockOf m).toList[k]? := by
  have hframe : x.frame = s.frame := by rw [State.frame, State.frame, hw, hh]
  obtain ⟨-, -, hx, hy⟩ := checkFrame_tile hc rfl
  rw [hframe] at hx hy
  obtain ⟨hbx, hbY⟩ := s.frame.inner_tile hx hy
  obtain ⟨p, hp, hgp⟩ := getblk_next_ok hc hg
  obtain ⟨p', hp', hbytes⟩ := encodeTiles_block (encimg_next_ok hcs ht) hbx hbY
  have htile : readTile s.pb x.selectedTile = .ok p' := by
    rw [State.selectedTile, hframe, ← clampedAddrs_inside s.frame hx hy]
    exact hp'
  have hpp : p = p' := Except.ok.inj ((readTile_congr hsame hp).symm.trans htile)
  have hgcfg : g.cfg = s.cfg := (exec_sameControl hg).cfg.trans hcfg
  rw [hbytes k hk, ← hpp, eq_encoded he, State.blockOf_encoded, hgcfg, hgp, State.pixels_succeed,
    State.pixels_putPixels]

/-- The pixels DECIMG leaves in an inner tile are those of its block. -/
theorem readTile_decimg {t : State} {b : Block} (hc : checkFrame .putblk x = none)
    (hcs : checkFrame (.decimg m) s = none) (ht : exec (.decimg m) s = .next t)
    (hb : ∀ b', readBlock m s.cb (x.bY.toInt.toNat * s.frame.bw + x.bX.toInt.toNat) = .ok b' → b' = b) :
    readTile t.pb x.selectedTile = .ok (decodeBlock x.cfg b) := by
  have hframe : x.frame = s.frame := by rw [State.frame, State.frame, hw, hh]
  obtain ⟨-, -, hx, hy⟩ := checkFrame_tile hc rfl
  rw [hframe] at hx hy
  rw [readTile_eq_ok]
  intro i
  obtain ⟨b', hb', hpixel⟩ := decodeTiles_all (decimg_next_ok hcs ht)
    (x := 4 * x.bX.toInt.toNat + i.val % 4) (y := 4 * x.bY.toInt.toNat + i.val / 4) (by omega) (by omega)
  have hplace : (4 * x.bY.toInt.toNat + i.val / 4) / 4 = x.bY.toInt.toNat ∧
      (4 * x.bX.toInt.toNat + i.val % 4) / 4 = x.bX.toInt.toNat := by omega
  have hindex : Fin.ofNat 16 (4 * ((4 * x.bY.toInt.toNat + i.val / 4) % 4) + (4 * x.bX.toInt.toNat + i.val % 4) % 4)
      = i :=
    Fin.ext (by simp only [Fin.val_ofNat]; omega)
  rw [hplace.1, hplace.2] at hb'
  rw [State.selectedTile, hframe, get_tileAddrs, hcfg, ← hb b' hb']
  rw [hindex] at hpixel
  exact hpixel

/-- DEC and PUTBLK of an inner tile write the bytes DECIMG writes for it. -/
theorem dec_putblk_eq_decimg {d p t : State} (hc : checkFrame .putblk x = none) (hcs : checkFrame (.decimg m) s = none)
    (hblock : ∀ k : Nat, k < Mode.blockSize m → (x.blockOf m).toList[k]? =
      s.cb.read ((x.bY.toInt.toNat * s.frame.bw + x.bX.toInt.toNat) * Mode.blockSize m + k))
    (hd : exec (.dec m) x = .next d) (hp : exec .putblk d = .next p) (ht : exec (.decimg m) s = .next t) {a : Nat}
    (ha : inTile x.selectedTile a) : p.pb.read a = t.pb.read a := by
  have same := exec_sameControl hd
  have hcd : checkFrame .putblk d = none := (checkFrame_congr same _).trans hc
  have hpixels : d.pixels = decodeBlock x.cfg (x.blockOf m) := by
    rw [execDec_next hd, State.pixels_succeed, State.pixels_putPixels]
  have hput : readTile p.pb x.selectedTile = .ok (decodeBlock x.cfg (x.blockOf m)) := by
    rw [readTile_eq_ok, ← hpixels, ← selectedTile_congr same]
    exact readPixel_putblk hcd (pb_of_putblk hcd hp)
  have hdec : readTile t.pb x.selectedTile = .ok (decodeBlock x.cfg (x.blockOf m)) := by
    refine readTile_decimg hcfg hw hh hc hcs ht fun b hb => ?_
    obtain ⟨hlen, hbytes⟩ := readBlock_bytes hb
    refine (State.blockOf_eq (List.ext_getElem? fun k => ?_)).symm
    rcases lt_or_ge k (Mode.blockSize m) with hk | hk
    · rw [hbytes k hk, hblock k hk]
    · rw [List.getElem?_eq_none (hlen.le.trans hk), List.getElem?_eq_none ((x.blockOf_length m).le.trans hk)]
  exact read_eq_of_readTile hput hdec ha

end

/-! ### Different tiles -/

/-- Different tiles have no byte of `PB` in common. -/
theorem tileAddrs_disjoint (f : Frame) {bx bY bx' bY' : Nat} (hx : 4 * bx + 3 < f.w) (hx' : 4 * bx' + 3 < f.w)
    (hne : bx ≠ bx' ∨ bY ≠ bY') (a : Nat) : ¬ (inTile (tileAddrs f bx bY) a ∧ inTile (tileAddrs f bx' bY') a) := by
  rintro ⟨⟨i, hlo, hhi⟩, ⟨j, hlo', hhi'⟩⟩
  rcases tileAddrs_apart f hx hx' hne i j with h | h <;> omega

/-- Different blocks have no byte of `CB` in common. -/
theorem blocks_disjoint (m : Mode) {n n' k k' : Nat} (hne : n ≠ n') (hk : k < Mode.blockSize m)
    (hk' : k' < Mode.blockSize m) : n * Mode.blockSize m + k ≠ n' * Mode.blockSize m + k' := by
  intro h
  have hdiv (u v : Nat) (hv : v < Mode.blockSize m) : (u * Mode.blockSize m + v) / Mode.blockSize m = u := by
    rw [Nat.mul_comm, Nat.mul_add_div (Mode.blockSize_pos m), Nat.div_eq_of_lt hv, Nat.add_zero]
  exact hne ((hdiv n k hk).symm.trans (h ▸ hdiv n' k' hk'))

/-- Settles O57: both ways the tile and its block are the same, and addresses and numbers of different tiles differ. -/
theorem blockCommandsAgreeWithEncimg : Obligations.BlockCommandsAgreeWithEncimg := by
  refine ⟨?_, ?_, ?_⟩
  · intro m q s x g e t hcfg hw hh hc hcs hsame hg he ht n k hk
    exact getblk_enc_eq_encimg hcfg hw hh hc hcs hsame hg he ht hk
  · intro m s x d p t hcfg hw hh hc hcs n hblock hd hp ht a ha
    exact dec_putblk_eq_decimg hcfg hw hh hc hcs hblock hd hp ht ha
  · intro f m bx bY bx' bY' hx hy hx' hy' hne
    refine ⟨tileAddrs_disjoint f hx hx' hne, fun k k' hk hk' => blocks_disjoint m (fun hn => ?_) hk hk'⟩
    obtain ⟨hmod, hdiv⟩ := f.tile_place (bY := bY) (f.inner_tile hx hy).1
    obtain ⟨hmod', hdiv'⟩ := f.tile_place (bY := bY') (f.inner_tile hx' hy').1
    rw [hn] at hmod hdiv
    exact hne.elim (absurd (hmod.symm.trans hmod')) (absurd (hdiv.symm.trans hdiv'))

end Sys2Proof.Machine
end

section
/-! PROOFS. The alpha encoder (44_alpha.md R260 to R263, R267, R268): the extremes of a tile, the position of an alpha between
them, and how near the level it is stored as is. -/

namespace Sys2Proof.Machine

open Sys2Proof

/-! ### Extremes of a tile -/

section
variable {α : Type} {f : α → α → α} {R : α → α → Prop} (hsel : ∀ a b, f a b = a ∨ f a b = b)
  (htrans : ∀ {a b c}, R a b → R b c → R a c) (hl : ∀ a b, R a (f a b)) (hr : ∀ a b, R b (f a b))
include hsel htrans hl hr

/-- Where `f` selects the further of two things, a fold selects one that is furthest of all. -/
theorem Quad.fold_extreme (q : Quad α) : (∀ k, R (q.get k) (q.fold f)) ∧ ∃ k, q.get k = q.fold f := by
  constructor
  · rw [forall_fin4]
    exact ⟨htrans (htrans (hl _ _) (hl _ _)) (hl _ _), htrans (htrans (hr _ _) (hl _ _)) (hl _ _),
      htrans (hr _ _) (hl _ _), hr _ _⟩
  · unfold Quad.fold
    rcases hsel (f (f q.q0 q.q1) q.q2) q.q3 with h | h
    · rw [h]
      rcases hsel (f q.q0 q.q1) q.q2 with h | h
      · rw [h]
        exact (hsel q.q0 q.q1).elim (fun h => ⟨0, h.symm⟩) fun h => ⟨1, h.symm⟩
      · exact ⟨2, h.symm⟩
    · exact ⟨3, h.symm⟩

theorem Tile.fold_extreme (t : Tile α) : (∀ i, R (t.get i) (t.fold f)) ∧ ∃ i, t.get i = t.fold f := by
  obtain ⟨hrows, y, hy⟩ := Quad.fold_extreme (R := R) hsel htrans hl hr
    ⟨t.r0.fold f, t.r1.fold f, t.r2.fold f, t.r3.fold f⟩
  have hrow (y : Fin 4) : Quad.get ⟨t.r0.fold f, t.r1.fold f, t.r2.fold f, t.r3.fold f⟩ y = (t.row y).fold f := by
    revert y
    rw [forall_fin4]
    exact ⟨rfl, rfl, rfl, rfl⟩
  constructor
  · intro i
    exact htrans ((Quad.fold_extreme (R := R) hsel htrans hl hr (t.row (Tile.rowOf i))).1 (Tile.colOf i))
      (hrow (Tile.rowOf i) ▸ hrows (Tile.rowOf i))
  · obtain ⟨x, hx⟩ := (Quad.fold_extreme (R := R) hsel htrans hl hr (t.row y)).2
    refine ⟨⟨4 * y.val + x.val, by omega⟩, ?_⟩
    have hplace : Tile.rowOf ⟨4 * y.val + x.val, by omega⟩ = y ∧ Tile.colOf ⟨4 * y.val + x.val, by omega⟩ = x :=
      ⟨Fin.ext (by simp only [Tile.rowOf]; omega), Fin.ext (by simp only [Tile.colOf]; omega)⟩
    rw [Tile.get, hplace.1, hplace.2, hx, ← hrow, hy]
    rfl

end

/-- `alphaMax` is the greatest alpha (44_alpha.md R260). -/
theorem alphaMax_spec (t : Tile Byte) :
    (∀ i, (t.get i).toNat ≤ (alphaMax t).toNat) ∧ ∃ i, t.get i = alphaMax t := by
  refine Tile.fold_extreme (R := fun a b : Byte => a.toNat ≤ b.toNat) ?_ le_trans ?_ ?_ t
  all_goals
    intro a b
    split_ifs
  · exact .inr rfl
  · exact .inl rfl
  all_goals omega

/-- `alphaMin` is the least alpha (44_alpha.md R260). -/
theorem alphaMin_spec (t : Tile Byte) :
    (∀ i, (alphaMin t).toNat ≤ (t.get i).toNat) ∧ ∃ i, t.get i = alphaMin t := by
  refine Tile.fold_extreme (R := fun a b : Byte => b.toNat ≤ a.toNat) ?_ (fun h h' => le_trans h' h) ?_ ?_ t
  all_goals
    intro a b
    split_ifs
  · exact .inr rfl
  · exact .inl rfl
  all_goals omega

/-! ### The position of an alpha -/

/-- The position with the halving as a division (44_alpha.md R261, R262). -/
theorem alphaPosition_eq (amax amin a : Int) :
    let dist := amax - amin
    let v4 := 7 * a - (7 * amin - dist / 2)
    let v2 := if v4 > 4 * dist then v4 - 4 * dist else v4
    let v1 := if v2 > 2 * dist then v2 - 2 * dist else v2
    alphaPosition amax amin a =
      (if v4 > 4 * dist then 4 else 0) + (if v2 > 2 * dist then 2 else 0) + (if v1 > dist then 1 else 0) := by
  have hbias : a * 7 - alphaBias amin (amax - amin) = 7 * a - (7 * amin - (amax - amin) / 2) := by
    rw [alphaBias, shiftRight_intOne]
    push_cast
    ring
  simp only [alphaPosition, hbias, mul_comm (amax - amin)]

/-- Position `t` of an alpha between its extremes, and the distance to the level `t` stands for (44_alpha.md R268). -/
theorem alphaPosition_near {amax amin a : Int} (hmin : amin ≤ a) (hmax : a ≤ amax) (hdist : amax - amin ≤ 255) :
    let t := alphaPosition amax amin a
    t < 8 ∧ |(t * amax + (7 - t) * amin) / 7 - a| ≤ 19 := by
  intro t
  rw [Int.abs_eq_natAbs]
  simp only [t, alphaPosition_eq]
  split_ifs <;> omega

theorem alphaPosition_self (a : Int) : alphaPosition a a a = 0 := by
  rw [alphaPosition_eq]
  simp

/-- The permutation of the positions (44_alpha.md R263). -/
theorem toNat_permuteIndex : ∀ t < 8, (permuteIndex t).toNat = [1, 7, 6, 5, 4, 3, 2, 0].getD t 0 := by
  decide

/-- The level the permuted position stands for, seven levels apart (44_alpha.md R266). -/
theorem toNat_alphaRamp_permuteIndex {a0 a1 : Byte} (h : a1.toNat < a0.toNat) {t : Nat} (ht : t < 8) :
    (alphaRamp a0 a1 (permuteIndex t)).toNat = (t * a0.toNat + (7 - t) * a1.toNat) / 7 := by
  have hindex := toNat_permuteIndex t ht
  obtain rfl | rfl | hmid : t = 0 ∨ t = 7 ∨ (1 ≤ t ∧ t ≤ 6) := by omega
  · rw [alphaRamp_of_one hindex]
    omega
  · rw [alphaRamp_of_zero hindex]
    omega
  · have hn : (permuteIndex t).toNat = 8 - t := by
      obtain ⟨hlo, hhi⟩ := hmid
      rw [hindex]
      interval_cases t <;> rfl
    rw [toNat_alphaRamp_of_gt (by omega) h, hn]
    congr 3
    · omega
    · omega

/-! ### ENCA -/

theorem exec_enca (s : State) :
    exec .enca s = .next (s.putLowBlock (encodeAlpha s.cfg.alphaBitOrder s.pixels)).succeed := rfl

section
variable (order : BitOrder) (blk : Tile Pixel)

theorem packAlphaBlock_endpoints (a0 a1 : Byte) (t : Tile (BitVec 3)) :
    (packAlphaBlock order a0 a1 t).lo.q0 = a0 ∧ (packAlphaBlock order a0 a1 t).lo.q1 = a1 := by
  cases order <;> exact ⟨rfl, rfl⟩

theorem encodeAlpha_endpoints : (encodeAlpha order blk).lo.q0 = alphaMax (blk.map Pixel.a) ∧
    (encodeAlpha order blk).lo.q1 = alphaMin (blk.map Pixel.a) :=
  packAlphaBlock_endpoints order _ _ _

theorem alphaIndex_encodeAlpha (i : Fin 16) : (encodeAlpha order blk).alphaIndex order i =
    permuteIndex (alphaPosition (chan (alphaMax (blk.map Pixel.a))) (chan (alphaMin (blk.map Pixel.a)))
      (chan (blk.get i).a)) := by
  rw [encodeAlpha, alphaIndex_packAlphaBlock, alphaIndices, Tile.get_map, Tile.get_map]

end

/-- The level a position between two alphas stands for is within 19 of an alpha at that position, and is the alpha where
the two are equal (44_alpha.md R268). -/
theorem alphaLevel_near {amax amin a : Byte} (hmin : amin.toNat ≤ a.toNat) (hmax : a.toNat ≤ amax.toNat) :
    let level := (alphaRamp amax amin (permuteIndex (alphaPosition (chan amax) (chan amin) (chan a)))).toNat
    |(level : Int) - a.toNat| ≤ 19 ∧ (amax = amin → level = a.toNat) := by
  intro level
  by_cases h : amax = amin
  · subst h
    have ha : a = amax := BitVec.eq_of_toNat_eq (le_antisymm hmax hmin)
    have hlevel : level = a.toNat := by
      simp only [level]
      rw [ha, alphaPosition_self, alphaRamp_of_one (toNat_permuteIndex 0 (by decide))]
    exact ⟨by simp [hlevel], fun _ => hlevel⟩
  · have hlt : amin.toNat < amax.toNat :=
      lt_of_le_of_ne (hmin.trans hmax) fun heq => h (BitVec.eq_of_toNat_eq heq.symm)
    obtain ⟨ht, hnear⟩ := alphaPosition_near (amax := chan amax) (amin := chan amin) (a := chan a)
      (by simpa [chan] using hmin) (by simpa [chan] using hmax) (by simp only [chan]; omega)
    refine ⟨?_, fun heq => absurd heq h⟩
    simp only [level]
    rw [toNat_alphaRamp_permuteIndex hlt ht]
    push_cast [Nat.cast_sub (show alphaPosition (chan amax) (chan amin) (chan a) ≤ 7 by omega)]
    exact hnear

/-- Settles O43: the stored index is the permuted position, and its level is near the alpha. -/
theorem encaEncodesWithinNineteen : Obligations.EncaEncodesWithinNineteen := by
  intro s a position
  obtain ⟨sb, hsb⟩ : ∃ sb, encodeAlpha s.cfg.alphaBitOrder s.pixels = sb := ⟨_, rfl⟩
  obtain ⟨h0, h1⟩ := encodeAlpha_endpoints s.cfg.alphaBitOrder s.pixels
  have hindex := alphaIndex_encodeAlpha s.cfg.alphaBitOrder s.pixels
  obtain ⟨hmax, imax, himax⟩ := alphaMax_spec (s.pixels.map Pixel.a)
  obtain ⟨hmin, imin, himin⟩ := alphaMin_spec (s.pixels.map Pixel.a)
  rw [← h0] at hmax himax
  rw [← h1] at hmin himin
  simp only [← h0, ← h1] at hindex
  simp only [hsb, Tile.get_map] at hmax himax hmin himin hindex
  have hlow : (s.putLowBlock sb).succeed.lowBlock = sb := State.lowBlock_putLowBlock s sb
  have hlevel (i : Fin 16) : (decodeAlpha s.cfg.alphaBitOrder sb).get i = alphaRamp sb.lo.q0 sb.lo.q1 (permuteIndex
      (alphaPosition (chan sb.lo.q0) (chan sb.lo.q1) (chan (s.pixels.get i).a))) := by
    rw [get_decodeAlpha, hindex]
  refine ⟨_, (exec_enca s).trans (by rw [hsb]), ?_⟩
  rw [hlow]
  refine ⟨fun i => ?_, hmax, ⟨imax, congrArg BitVec.toNat himax⟩, hmin, ⟨imin, congrArg BitVec.toNat himin⟩, fun i => ?_,
    fun hall i => ?_, rfl, rfl, rfl, rfl, rfl, rfl⟩
  · have hlt := (alphaPosition_near (amax := chan sb.lo.q0) (amin := chan sb.lo.q1) (a := chan (s.pixels.get i).a)
      (by simpa [chan] using hmin i) (by simpa [chan] using hmax i) (by simp only [chan]; omega)).1
    rw [hindex, toNat_permuteIndex _ hlt, alphaPosition_eq]
    rfl
  · rw [hlevel]
    exact (alphaLevel_near (hmin i) (hmax i)).1
  · rw [hlevel]
    refine (alphaLevel_near (hmin i) (hmax i)).2 ?_
    rw [← himax, ← himin]
    exact BitVec.eq_of_toNat_eq ((hall imax).trans (hall imin).symm)

end Sys2Proof.Machine
end

section
/-! PROOFS. Correct rounding (00_scope.md R10): the value of an exact number, and that `roundBinary` gives the nearest number
with a `p`-bit significand, ties to even. -/

namespace Sys2Proof.Machine

open Sys2Proof

/-- The rational number an exact dyadic number stands for. -/
def Flt.val (a : Flt) : ℚ := (a.sig : ℚ) * (2 : ℚ) ^ a.exp

/-- The numbers with a `p`-bit significand and a unit of at least `2^emin`. -/
def IsBinary (p : Nat) (emin : Int) (y : ℚ) : Prop := ∃ m k : Int, |m| < 2 ^ p ∧ emin ≤ k ∧ y = (m : ℚ) * (2 : ℚ) ^ k

/-! ### Powers of two -/

theorem two_zpow_pos (k : Int) : (0 : ℚ) < (2 : ℚ) ^ k := zpow_pos two_pos k

/-- The two parts of an exponent: what a numerator and a denominator are scaled by. -/
theorem two_pow_toNat (k : Int) : (2 : ℚ) ^ k.toNat = (2 : ℚ) ^ k * (2 : ℚ) ^ (-k).toNat := by
  rw [← zpow_natCast, ← zpow_natCast, ← zpow_add₀ two_ne_zero]
  congr 1
  omega

theorem scaled_div (n d : ℚ) (k : Int) :
    n * (2 : ℚ) ^ k.toNat / (d * (2 : ℚ) ^ (-k).toNat) = n / d * (2 : ℚ) ^ k := by
  rw [two_pow_toNat k, ← mul_assoc, mul_div_mul_right _ _ (pow_ne_zero _ two_ne_zero), mul_div_right_comm]

theorem mul_two_pow_lt_iff {n d : Nat} (hd : 0 < d) (k : Int) :
    n * 2 ^ (-k).toNat < d * 2 ^ k.toNat ↔ (n : ℚ) / d < (2 : ℚ) ^ k := by
  have hd' : (0 : ℚ) < d := by exact_mod_cast hd
  rw [← Nat.cast_lt (α := ℚ), Nat.cast_mul, Nat.cast_mul, Nat.cast_pow, Nat.cast_pow, Nat.cast_ofNat, two_pow_toNat k,
    div_lt_iff₀ hd', ← mul_assoc, mul_lt_mul_iff_left₀ (by positivity), mul_comm]

/-! ### The two integer steps -/

/-- `ratioLog2` is the exponent of the leading bit of a quotient. -/
theorem ratioLog2_spec {n d : Nat} (hn : 0 < n) (hd : 0 < d) :
    (2 : ℚ) ^ ratioLog2 n d ≤ (n : ℚ) / d ∧ (n : ℚ) / d < (2 : ℚ) ^ (ratioLog2 n d + 1) := by
  have hd' : (0 : ℚ) < d := by exact_mod_cast hd
  have leading {a : Nat} (ha : 0 < a) : (2 : ℚ) ^ (a.log2 : Int) ≤ a ∧ (a : ℚ) < 2 ^ ((a.log2 : Int) + 1) := by
    constructor
    · exact_mod_cast Nat.log2_self_le ha.ne'
    · exact_mod_cast Nat.lt_log2_self
  obtain ⟨hnlo, hnhi⟩ := leading hn
  obtain ⟨hdlo, hdhi⟩ := leading hd
  have hlo : (2 : ℚ) ^ ((n.log2 : Int) - d.log2 - 1) ≤ n / d := by
    rw [le_div_iff₀ hd']
    calc (2 : ℚ) ^ ((n.log2 : Int) - d.log2 - 1) * d ≤ 2 ^ ((n.log2 : Int) - d.log2 - 1) * 2 ^ ((d.log2 : Int) + 1) :=
          mul_le_mul_of_nonneg_left hdhi.le (two_zpow_pos _).le
      _ = 2 ^ (n.log2 : Int) := by rw [← zpow_add₀ two_ne_zero]; congr 1; ring
      _ ≤ n := hnlo
  have hhi : (n : ℚ) / d < 2 ^ ((n.log2 : Int) - d.log2 + 1) := by
    rw [div_lt_iff₀ hd']
    calc (n : ℚ) < 2 ^ ((n.log2 : Int) + 1) := hnhi
      _ = 2 ^ ((n.log2 : Int) - d.log2 + 1) * 2 ^ (d.log2 : Int) := by rw [← zpow_add₀ two_ne_zero]; congr 1; ring
      _ ≤ _ := mul_le_mul_of_nonneg_left hdlo (two_zpow_pos _).le
  simp only [ratioLog2, mul_two_pow_lt_iff hd]
  split_ifs with h
  · exact ⟨hlo, by rwa [sub_add_cancel]⟩
  · exact ⟨not_lt.mp h, hhi⟩

/-- `roundHalfEven` is the nearest integer, the even one of two. -/
theorem roundHalfEven_spec (n : Nat) {d : Nat} (hd : 0 < d) :
    |(roundHalfEven n d : ℚ) - n / d| ≤ 1 / 2 ∧
      (|(roundHalfEven n d : ℚ) - n / d| = 1 / 2 → roundHalfEven n d % 2 = 0) := by
  have hd' : (0 : ℚ) < d := by exact_mod_cast hd
  have hdm : (n : ℚ) / d = (n / d : Nat) + (n % d : Nat) / d := by
    rw [eq_comm, ← eq_sub_iff_add_eq', div_eq_iff hd'.ne', sub_mul, div_mul_cancel₀ _ hd'.ne', eq_sub_iff_add_eq]
    exact_mod_cast Nat.mod_add_div' n d
  have hr : (0 : ℚ) ≤ (n % d : Nat) / d := by positivity
  rw [hdm, roundHalfEven]
  split_ifs with hlt hgt
  · have hhalf : ((n % d : Nat) : ℚ) / d < 1 / 2 := by
      rw [div_lt_div_iff₀ hd' two_pos]
      exact_mod_cast (by omega : n % d * 2 < 1 * d)
    have habs : |((n / d : Nat) : ℚ) - ((n / d : Nat) + (n % d : Nat) / d)| < 1 / 2 := by
      rw [abs_lt]
      constructor <;> linarith
    exact ⟨habs.le, fun h => absurd h habs.ne⟩
  · have hhalf : 1 / 2 < ((n % d : Nat) : ℚ) / d := by
      rw [div_lt_div_iff₀ two_pos hd']
      exact_mod_cast (by omega : 1 * d < n % d * 2)
    have hone : ((n % d : Nat) : ℚ) / d < 1 := by
      rw [div_lt_one hd']
      exact_mod_cast Nat.mod_lt n hd
    have habs : |((n / d + 1 : Nat) : ℚ) - ((n / d : Nat) + (n % d : Nat) / d)| < 1 / 2 := by
      rw [abs_lt]
      push_cast
      constructor <;> linarith
    exact ⟨habs.le, fun h => absurd h habs.ne⟩
  · have hhalf : ((n % d : Nat) : ℚ) / d = 1 / 2 := by
      rw [div_eq_div_iff hd'.ne' two_ne_zero]
      exact_mod_cast (by omega : n % d * 2 = 1 * d)
    have hbit : (0 : ℚ) ≤ (n / d % 2 : Nat) ∧ ((n / d % 2 : Nat) : ℚ) ≤ 1 :=
      ⟨by positivity, by exact_mod_cast (by omega : n / d % 2 ≤ 1)⟩
    refine ⟨?_, fun _ => by omega⟩
    rw [hhalf, abs_le, Nat.cast_add]
    constructor <;> linarith [hbit.1, hbit.2]

/-! ### Rounding a magnitude -/

/-- The significand `q` and the unit `2^u` that a magnitude `t` rounds to (00_scope.md R10). -/
structure RoundsTo (p : Nat) (emin : Int) (t : ℚ) (u : Int) (q : Nat) : Prop where
  unit  : emin ≤ u
  near  : |(q : ℚ) - t / (2 : ℚ) ^ u| ≤ 1 / 2
  tie   : |(q : ℚ) - t / (2 : ℚ) ^ u| = 1 / 2 → q % 2 = 0
  small : t / (2 : ℚ) ^ u < 2 ^ p
  full  : u = emin ∨ (2 : ℚ) ^ ((p : Int) - 1) ≤ t / (2 : ℚ) ^ u

/-- `roundBinary` rounds the magnitude of its number and keeps the sign. -/
theorem roundBinary_roundsTo (p : Nat) (emin : Int) {num : Int} {den : Nat} (e : Int) (hnum : num ≠ 0) (hden : 0 < den) :
    ∃ (u : Int) (q : Nat), roundBinary p emin num den e = ⟨num.sign * q, u⟩ ∧
      RoundsTo p emin (|(num : ℚ) / den * (2 : ℚ) ^ e|) u q := by
  have hn : 0 < num.natAbs := Int.natAbs_pos.mpr hnum
  have habs : |(num : ℚ) / den * (2 : ℚ) ^ e| = (num.natAbs : ℚ) / den * (2 : ℚ) ^ e := by
    rw [abs_mul, abs_div, abs_of_pos (two_zpow_pos e), Nat.abs_cast, Nat.cast_natAbs, Int.cast_abs]
  obtain ⟨hlo, hhi⟩ := ratioLog2_spec hn hden
  obtain ⟨u, hu⟩ : ∃ u, max (ratioLog2 num.natAbs den + e - ((p : Int) - 1)) emin = u := ⟨_, rfl⟩
  obtain ⟨q, hq⟩ : ∃ q, roundHalfEven (num.natAbs * 2 ^ (e - u).toNat) (den * 2 ^ (u - e).toNat) = q := ⟨_, rfl⟩
  have hscaled : (num.natAbs : ℚ) / den * (2 : ℚ) ^ e / (2 : ℚ) ^ u =
      ((num.natAbs * 2 ^ (e - u).toNat : Nat) : ℚ) / (den * 2 ^ (u - e).toNat : Nat) := by
    push_cast
    rw [← neg_sub e u, scaled_div, mul_div_assoc, ← zpow_sub₀ two_ne_zero]
  obtain ⟨hnear, htie⟩ := roundHalfEven_spec (num.natAbs * 2 ^ (e - u).toNat)
    (show 0 < den * 2 ^ (u - e).toNat by positivity)
  rw [hq, ← hscaled] at hnear htie
  refine ⟨u, q, by simp only [roundBinary, if_neg hnum, hu, hq], by omega, ?_, ?_, ?_, ?_⟩
  all_goals rw [habs]
  · exact hnear
  · exact htie
  · rw [mul_div_assoc, ← zpow_sub₀ two_ne_zero]
    calc (num.natAbs : ℚ) / den * (2 : ℚ) ^ (e - u) < 2 ^ (ratioLog2 num.natAbs den + 1) * (2 : ℚ) ^ (e - u) :=
          mul_lt_mul_of_pos_right hhi (two_zpow_pos _)
      _ = 2 ^ (ratioLog2 num.natAbs den + 1 + (e - u)) := (zpow_add₀ two_ne_zero _ _).symm
      _ ≤ 2 ^ (p : Int) := zpow_le_zpow_right₀ one_le_two (by omega)
      _ = 2 ^ p := zpow_natCast _ _
  · refine or_iff_not_imp_left.mpr fun hne => ?_
    rw [mul_div_assoc, ← zpow_sub₀ two_ne_zero]
    calc (2 : ℚ) ^ ((p : Int) - 1) = 2 ^ (ratioLog2 num.natAbs den + (e - u)) := by congr 1; omega
      _ = 2 ^ ratioLog2 num.natAbs den * (2 : ℚ) ^ (e - u) := zpow_add₀ two_ne_zero _ _
      _ ≤ _ := mul_le_mul_of_nonneg_right hlo (two_zpow_pos _).le

section
variable {p : Nat} {emin : Int} {t : ℚ} {u : Int} {q : Nat} (h : RoundsTo p emin t u q)
include h

/-- The rounded magnitude is a number of the format; a significand `2^p` is stored with the next unit. -/
theorem RoundsTo.isBinary (hp : 0 < p) : IsBinary p emin (q * (2 : ℚ) ^ u) := by
  have hq : q ≤ 2 ^ p := by
    have hlt : (q : ℚ) < (2 ^ p + 1 : Nat) := by
      push_cast
      linarith [(abs_le.mp h.near).2, h.small]
    exact Nat.lt_succ_iff.mp (by exact_mod_cast hlt)
  rcases hq.lt_or_eq with hlt | rfl
  · exact ⟨q, u, by rw [Nat.abs_cast]; exact_mod_cast hlt, h.unit, by norm_cast⟩
  · obtain ⟨k, rfl⟩ : ∃ k, p = k + 1 := ⟨p - 1, by omega⟩
    refine ⟨2 ^ k, u + 1, ?_, by have := h.unit; omega, ?_⟩
    · rw [abs_of_pos (by positivity)]
      exact pow_lt_pow_right₀ one_lt_two (Nat.lt_succ_self k)
    · push_cast
      rw [zpow_add_one₀ two_ne_zero]
      ring

theorem RoundsTo.nearest_int (n : Int) : |t / (2 : ℚ) ^ u - q| ≤ |t / (2 : ℚ) ^ u - n| ∧
    (n ≠ q → |t / (2 : ℚ) ^ u - q| = |t / (2 : ℚ) ^ u - n| → q % 2 = 0) := by
  have hnear := h.near
  have htie := h.tie
  rw [abs_sub_comm] at hnear htie
  by_cases hne : n = q
  · subst hne
    exact ⟨by simp, fun hn => absurd rfl hn⟩
  · have hone : (1 : ℚ) ≤ |(q : ℚ) - n| := by
      have : 1 ≤ |(q : Int) - n| := Int.one_le_abs (sub_ne_zero.mpr (Ne.symm hne))
      exact_mod_cast this
    have htri : |(q : ℚ) - n| ≤ |t / (2 : ℚ) ^ u - q| + |t / (2 : ℚ) ^ u - n| := by
      rw [abs_sub_comm _ (q : ℚ)]
      exact abs_sub_le _ _ _
    exact ⟨by linarith, fun _ heq => htie (le_antisymm hnear (by linarith))⟩

/-- No number of the format is nearer; where another one is as near, the significand is even. -/
theorem RoundsTo.nearest (hp : 0 < p) {y : ℚ} (hy : IsBinary p emin y) : |t - q * (2 : ℚ) ^ u| ≤ |t - y| ∧
    (y ≠ q * (2 : ℚ) ^ u → |t - q * (2 : ℚ) ^ u| = |t - y| → q % 2 = 0) := by
  obtain ⟨m, k, hm, hk, rfl⟩ := hy
  have hu := two_zpow_pos u
  have scale (y : ℚ) : |t - y| = |t / (2 : ℚ) ^ u - y / (2 : ℚ) ^ u| * (2 : ℚ) ^ u := by
    rw [← sub_div, abs_div, abs_of_pos hu, div_mul_cancel₀ _ hu.ne']
  rw [scale (q * _), scale (m * _), mul_div_cancel_right₀ _ hu.ne', mul_le_mul_iff_left₀ hu, mul_left_inj' hu.ne',
    mul_div_assoc, ← zpow_sub₀ two_ne_zero]
  rcases le_or_gt u k with huk | hku
  · have hint : (m : ℚ) * (2 : ℚ) ^ (k - u) = (m * 2 ^ (k - u).toNat : Int) := by
      push_cast
      rw [← zpow_natCast, Int.toNat_of_nonneg (by omega)]
    rw [hint]
    refine ⟨(h.nearest_int _).1, fun hne => (h.nearest_int _).2 fun heq => hne ?_⟩
    have hmq : (m : ℚ) * (2 : ℚ) ^ (k - u) = q := by rw [hint, heq]; norm_cast
    rw [← hmq, mul_assoc, ← zpow_add₀ two_ne_zero, sub_add_cancel]
  · have hfull := h.full.resolve_left (by omega)
    obtain ⟨j, rfl⟩ : ∃ j, p = j + 1 := ⟨p - 1, by omega⟩
    have hpow : (2 : ℚ) ^ (((j + 1 : Nat) : Int) - 1) = ((2 ^ j : Int) : ℚ) := by
      push_cast
      rw [add_sub_cancel_right, zpow_natCast]
    have hless : (m : ℚ) * (2 : ℚ) ^ (k - u) < ((2 ^ j : Int) : ℚ) := by
      have hm' : (m : ℚ) < 2 ^ (j + 1) := by exact_mod_cast (le_abs_self m).trans_lt hm
      calc (m : ℚ) * (2 : ℚ) ^ (k - u) < 2 ^ (j + 1) * (2 : ℚ) ^ (k - u) :=
            mul_lt_mul_of_pos_right hm' (two_zpow_pos _)
        _ ≤ 2 ^ (j + 1) * (2 : ℚ) ^ (-1 : Int) :=
            mul_le_mul_of_nonneg_left (zpow_le_zpow_right₀ one_le_two (by omega)) (by positivity)
        _ = ((2 ^ j : Int) : ℚ) := by push_cast; rw [zpow_neg_one, pow_succ]; ring
    rw [hpow] at hfull
    have hstrict : |t / (2 : ℚ) ^ u - q| < |t / (2 : ℚ) ^ u - m * (2 : ℚ) ^ (k - u)| := by
      refine (h.nearest_int (2 ^ j)).1.trans_lt ?_
      rw [abs_of_nonneg (by linarith), abs_of_nonneg (by linarith)]
      linarith
    exact ⟨hstrict.le, fun _ heq => absurd heq hstrict.ne⟩

end

/-! ### Rounding a number -/

theorem IsBinary.neg {p : Nat} {emin : Int} {y : ℚ} (h : IsBinary p emin y) : IsBinary p emin (-y) := by
  obtain ⟨m, k, hm, hk, rfl⟩ := h
  exact ⟨-m, k, by rwa [abs_neg], hk, by push_cast; ring⟩

theorem isBinary_zero (p : Nat) (emin : Int) : IsBinary p emin 0 :=
  ⟨0, emin, by rw [abs_zero]; positivity, le_rfl, by simp⟩

/-- A rounded number is the rounded magnitude with the sign of the number. -/
theorem roundBinary_signed (p : Nat) (emin : Int) {num : Int} {den : Nat} (e : Int) (hnum : num ≠ 0) (hden : 0 < den) :
    ∃ (σ : ℚ) (u : Int) (q : Nat), (σ = 1 ∨ σ = -1) ∧
      (num : ℚ) / den * (2 : ℚ) ^ e = σ * |(num : ℚ) / den * (2 : ℚ) ^ e| ∧
      (roundBinary p emin num den e).val = σ * (q * (2 : ℚ) ^ u) ∧
      (q % 2 = 0 → (roundBinary p emin num den e).sig % 2 = 0) ∧
      RoundsTo p emin (|(num : ℚ) / den * (2 : ℚ) ^ e|) u q := by
  obtain ⟨u, q, hr, hround⟩ := roundBinary_roundsTo p emin e hnum hden
  have hpos : (0 : ℚ) < (2 : ℚ) ^ e / den := div_pos (two_zpow_pos e) (by exact_mod_cast hden)
  have hx : (num : ℚ) / den * (2 : ℚ) ^ e = num * ((2 : ℚ) ^ e / den) := by ring
  rw [hx] at hround
  rw [hr, Flt.val, hx]
  dsimp only
  rcases lt_or_gt_of_ne hnum with hneg | hposnum
  · have hle : (num : ℚ) * ((2 : ℚ) ^ e / den) ≤ 0 :=
      mul_nonpos_of_nonpos_of_nonneg (by exact_mod_cast hneg.le) hpos.le
    refine ⟨-1, u, q, .inr rfl, by rw [abs_of_nonpos hle]; ring, ?_, fun h => ?_, hround⟩
    · rw [Int.sign_eq_neg_one_of_neg hneg]
      push_cast
      ring
    · rw [Int.sign_eq_neg_one_of_neg hneg]
      omega
  · have hge : 0 ≤ (num : ℚ) * ((2 : ℚ) ^ e / den) := mul_nonneg (by exact_mod_cast hposnum.le) hpos.le
    refine ⟨1, u, q, .inl rfl, by rw [abs_of_nonneg hge, one_mul], ?_, fun h => ?_, hround⟩
    · rw [Int.sign_eq_one_of_pos hposnum]
      push_cast
      ring
    · rw [Int.sign_eq_one_of_pos hposnum]
      omega

theorem roundBinary_zero (p : Nat) (emin : Int) (den : Nat) (e : Int) : roundBinary p emin 0 den e = ⟨0, 0⟩ := if_pos rfl

section
variable {p : Nat} (hp : 0 < p) (emin num : Int) {den : Nat} (hden : 0 < den) (e : Int)
include hp hden

/-- A rounded number is a number of the format. -/
theorem isBinary_roundBinary : IsBinary p emin (roundBinary p emin num den e).val := by
  by_cases hnum : num = 0
  · rw [hnum, roundBinary_zero, Flt.val, Int.cast_zero, zero_mul]
    exact isBinary_zero p emin
  · obtain ⟨σ, u, q, hσ, -, hval, -, hround⟩ := roundBinary_signed p emin e hnum hden
    have hbin := hround.isBinary hp
    rw [hval]
    obtain rfl | rfl := hσ
    · rwa [one_mul]
    · rw [neg_one_mul]
      exact hbin.neg

/-- No number of the format is nearer; where another one is as near, the significand is even. -/
theorem roundBinary_nearest {y : ℚ} (hy : IsBinary p emin y) :
    let x := (num : ℚ) / den * (2 : ℚ) ^ e
    let r := roundBinary p emin num den e
    |x - r.val| ≤ |x - y| ∧ (y ≠ r.val → |x - r.val| = |x - y| → r.sig % 2 = 0) := by
  intro x r
  by_cases hnum : num = 0
  · have hx : x = 0 := by simp [x, hnum]
    have hr : r = ⟨0, 0⟩ := by rw [← roundBinary_zero p emin den e, ← hnum]
    rw [hr, hx, Flt.val, Int.cast_zero, zero_mul, sub_zero, abs_zero]
    exact ⟨abs_nonneg _, fun _ _ => rfl⟩
  · obtain ⟨σ, u, q, hσ, hx, hval, heven, hround⟩ := roundBinary_signed p emin e hnum hden
    have hσσ : σ * σ = 1 := by obtain rfl | rfl := hσ <;> norm_num
    have hσabs : |σ| = 1 := by obtain rfl | rfl := hσ <;> norm_num
    have hσy : IsBinary p emin (σ * y) := by
      obtain rfl | rfl := hσ
      · rwa [one_mul]
      · rw [neg_one_mul]
        exact hy.neg
    have signed (w : ℚ) : |x - σ * w| = |(|x|) - w| := by
      rw [← one_mul |(|x|) - w|, ← hσabs, ← abs_mul, mul_sub, ← hx]
    have hyy : y = σ * (σ * y) := by rw [← mul_assoc, hσσ, one_mul]
    obtain ⟨hle, htie⟩ := hround.nearest hp hσy
    rw [hval, signed, hyy, signed]
    exact ⟨hle, fun hne heq => heven (htie (fun h => hne (by rw [h])) heq)⟩

end

/-- Settles O26: the rounded magnitude is the nearest one, and the sign is kept. -/
theorem roundingIsToNearestEven : Obligations.RoundingIsToNearestEven := by
  refine ⟨fun _ _ _ => ⟨rfl, rfl⟩, fun p emin num den e hp hden => ?_⟩
  exact ⟨isBinary_roundBinary hp emin num hden e, fun y hy => (roundBinary_nearest hp emin num hden e hy).1,
    fun y hy => (roundBinary_nearest hp emin num hden e hy).2⟩

end Sys2Proof.Machine
end

section
/-! PROOFS. The floating-point operations as roundings of exact values (00_scope.md R10): what each rounds, bounds that
rounding keeps, exact cases, the relative error, comparison and truncation. -/

namespace Sys2Proof.Machine

open Sys2Proof

/-! ### Numbers of a format -/

theorem isBinary_ofInt {p : Nat} {emin m : Int} (hm : |m| < 2 ^ p) (hemin : emin ≤ 0) : IsBinary p emin (m : ℚ) :=
  ⟨m, 0, hm, hemin, by simp⟩

theorem IsBinary.mono {p p' : Nat} {emin emin' : Int} {y : ℚ} (h : IsBinary p emin y) (hp : p ≤ p') (he : emin' ≤ emin) :
    IsBinary p' emin' y := by
  obtain ⟨m, k, hm, hk, rfl⟩ := h
  exact ⟨m, k, hm.trans_le (pow_le_pow_right₀ one_le_two hp), he.trans hk, rfl⟩

/-! ### Correct rounding -/

/-- `r` is a number of the format nearest to `x`. -/
structure Rounded (p : Nat) (emin : Int) (x : ℚ) (r : Flt) : Prop where
  isBinary : IsBinary p emin r.val
  nearest  : ∀ y : ℚ, IsBinary p emin y → |x - r.val| ≤ |x - y|

theorem rounded_roundBinary {p : Nat} (hp : 0 < p) (emin num : Int) {den : Nat} (hden : 0 < den) (e : Int) :
    Rounded p emin ((num : ℚ) / den * (2 : ℚ) ^ e) (roundBinary p emin num den e) :=
  ⟨isBinary_roundBinary hp emin num hden e, fun _ hy => (roundBinary_nearest hp emin num hden e hy).1⟩

section
variable {p : Nat} {emin : Int} {x b : ℚ} {r : Flt} (h : Rounded p emin x r)
include h

/-- A bound of the format is a bound of the rounded value. -/
theorem Rounded.le (hb : IsBinary p emin b) (hx : x ≤ b) : r.val ≤ b := by
  by_contra hlt
  have hn := h.nearest b hb
  rw [abs_of_nonpos (by linarith), abs_of_nonpos (by linarith)] at hn
  linarith

theorem Rounded.ge (hb : IsBinary p emin b) (hx : b ≤ x) : b ≤ r.val := by
  by_contra hlt
  have hn := h.nearest b hb
  rw [abs_of_nonneg (by linarith), abs_of_nonneg (by linarith)] at hn
  linarith

theorem Rounded.abs_bound (hb : IsBinary p emin b) (hx : |x| ≤ b) : |r.val| ≤ b := by
  rw [abs_le] at *
  exact ⟨h.ge hb.neg hx.1, h.le hb hx.2⟩

theorem Rounded.le_abs (hb : IsBinary p emin b) (hx : b ≤ |x|) : b ≤ |r.val| := by
  rcases abs_choice x with hc | hc
  · rw [hc] at hx
    exact (h.ge hb hx).trans (le_abs_self _)
  · rw [hc] at hx
    have := h.le hb.neg (by linarith)
    exact (by linarith : b ≤ -r.val).trans (neg_le_abs _)

/-- A number of the format rounds to itself. -/
theorem Rounded.exact (hx : IsBinary p emin x) : r.val = x :=
  le_antisymm (h.le hx le_rfl) (h.ge hx le_rfl)

end

/-! ### Rounding depends on the value only -/

/-- A magnitude rounds to one significand and one unit. -/
theorem RoundsTo.unique {p : Nat} {emin : Int} {t : ℚ} {u u' : Int} {q q' : Nat} (h : RoundsTo p emin t u q)
    (h' : RoundsTo p emin t u' q') : u = u' ∧ q = q' := by
  have unit_le {u u' : Int} {q q' : Nat} (h : RoundsTo p emin t u q) (h' : RoundsTo p emin t u' q') : u' ≤ u := by
    by_contra hlt
    have hfull := h'.full.resolve_left (by have := h.unit; omega)
    rw [le_div_iff₀ (two_zpow_pos _), ← zpow_add₀ two_ne_zero] at hfull
    have hsmall := h.small
    rw [div_lt_iff₀ (two_zpow_pos _), ← zpow_natCast, ← zpow_add₀ two_ne_zero] at hsmall
    have := (zpow_lt_zpow_iff_right₀ (one_lt_two (α := ℚ))).mp (hfull.trans_lt hsmall)
    omega
  obtain rfl : u = u' := le_antisymm (unit_le h' h) (unit_le h h')
  refine ⟨rfl, ?_⟩
  have hnear := h.near
  have hnear' := h'.near
  by_contra hne
  have hone : (1 : ℚ) ≤ |(q : ℚ) - q'| := by
    have : 1 ≤ |(q : Int) - q'| := Int.one_le_abs (sub_ne_zero.mpr (by exact_mod_cast hne))
    exact_mod_cast this
  have htri : |(q : ℚ) - q'| ≤ |(q : ℚ) - t / (2 : ℚ) ^ u| + |(q' : ℚ) - t / (2 : ℚ) ^ u| := by
    rw [abs_sub_comm (q' : ℚ)]
    exact abs_sub_le _ _ _
  have heven := h.tie (by linarith)
  have heven' := h'.tie (by linarith)
  have hle : |(q : Int) - q'| ≤ 1 := by
    have : |(q : ℚ) - q'| ≤ 1 := by linarith
    exact_mod_cast this
  rw [abs_le] at hle
  omega

/-- Equal numbers round alike, however they are written. -/
theorem roundBinary_congr (p : Nat) (emin : Int) {num num' : Int} {den den' : Nat} {e e' : Int} (hden : 0 < den)
    (hden' : 0 < den') (h : (num : ℚ) / den * (2 : ℚ) ^ e = (num' : ℚ) / den' * (2 : ℚ) ^ e') :
    roundBinary p emin num den e = roundBinary p emin num' den' e' := by
  have pos (den : Nat) (e : Int) (hden : 0 < den) : (0 : ℚ) < (2 : ℚ) ^ e / den :=
    div_pos (two_zpow_pos e) (by exact_mod_cast hden)
  have hsign : num.sign = num'.sign := by
    rw [div_mul_eq_mul_div, div_mul_eq_mul_div, mul_div_assoc, mul_div_assoc] at h
    have hcast := congrArg SignType.sign h
    rw [sign_mul, sign_mul, sign_pos (pos _ _ hden), sign_pos (pos _ _ hden'), mul_one, mul_one] at hcast
    rw [sign_intCast, sign_intCast] at hcast
    rw [Int.sign_eq_sign, Int.sign_eq_sign, hcast]
  by_cases hnum : num = 0
  · have hnum' : num' = 0 := by rw [← Int.sign_eq_zero_iff_zero, ← hsign, hnum, Int.sign_zero]
    rw [hnum, hnum', roundBinary_zero, roundBinary_zero]
  · have hnum' : num' ≠ 0 := by rwa [ne_eq, ← Int.sign_eq_zero_iff_zero, ← hsign, Int.sign_eq_zero_iff_zero]
    obtain ⟨u, q, hr, hround⟩ := roundBinary_roundsTo p emin e hnum hden
    obtain ⟨u', q', hr', hround'⟩ := roundBinary_roundsTo p emin e' hnum' hden'
    rw [← h] at hround'
    obtain ⟨rfl, rfl⟩ := hround.unique hround'
    rw [hr, hr', hsign]

/-! ### The operations -/

theorem rounded_f32 (num : Int) {den : Nat} (hden : 0 < den) (e : Int) :
    Rounded 24 (-149) ((num : ℚ) / den * (2 : ℚ) ^ e) (f32 num den e) := rounded_roundBinary (by decide) _ _ hden e

theorem rounded_f64 (num : Int) {den : Nat} (hden : 0 < den) (e : Int) :
    Rounded 53 (-1074) ((num : ℚ) / den * (2 : ℚ) ^ e) (f64 num den e) := rounded_roundBinary (by decide) _ _ hden e

theorem rounded_f32OfInt (n : Int) : Rounded 24 (-149) n (f32OfInt n) := by
  simpa [f32OfInt] using rounded_f32 n (den := 1) (by decide) 0

/-- The exact product that a multiplication rounds. -/
theorem val_mul_val (a b : Flt) :
    ((a.sig * b.sig : Int) : ℚ) / (1 : Nat) * (2 : ℚ) ^ (a.exp + b.exp) = a.val * b.val := by
  rw [zpow_add₀ two_ne_zero, Flt.val, Flt.val]
  push_cast
  ring

/-- The exact quotient that a division rounds. -/
theorem val_div_val (a : Flt) {b : Flt} (hb : b.sig ≠ 0) :
    ((a.sig * b.sig.sign : Int) : ℚ) / b.sig.natAbs * (2 : ℚ) ^ (a.exp - b.exp) = a.val / b.val := by
  have hb' : (b.sig : ℚ) ≠ 0 := by exact_mod_cast hb
  have hsign : ((b.sig.sign : Int) : ℚ) / (b.sig.natAbs : Nat) = 1 / b.sig := by
    have hn : ((b.sig.natAbs : Nat) : ℚ) ≠ 0 := by exact_mod_cast Int.natAbs_ne_zero.mpr hb
    rw [div_eq_div_iff hn hb', one_mul]
    rw [Nat.cast_natAbs]
    exact_mod_cast Int.sign_mul_self_eq_abs b.sig
  rw [zpow_sub₀ two_ne_zero, Flt.val, Flt.val, Int.cast_mul, mul_div_assoc, hsign]
  ring

/-- A number written with a smaller unit. -/
theorem val_shift (c : Flt) {m : Int} (hm : m ≤ c.exp) :
    ((c.sig * 2 ^ (c.exp - m).toNat : Int) : ℚ) * (2 : ℚ) ^ m = c.val := by
  push_cast
  rw [mul_assoc, ← zpow_natCast, Int.toNat_of_nonneg (by omega), ← zpow_add₀ two_ne_zero, sub_add_cancel]
  rfl

theorem val_add (a b : Flt) : (a.add b).val = a.val + b.val := by
  rw [← val_shift a (min_le_left a.exp b.exp), ← val_shift b (min_le_right a.exp b.exp), ← add_mul, ← Int.cast_add]
  rfl

theorem rounded_mul32 (a b : Flt) : Rounded 24 (-149) (a.val * b.val) (mul32 a b) :=
  val_mul_val a b ▸ rounded_f32 (a.sig * b.sig) Nat.one_pos (a.exp + b.exp)

theorem rounded_mul64 (a b : Flt) : Rounded 53 (-1074) (a.val * b.val) (mul64 a b) :=
  val_mul_val a b ▸ rounded_f64 (a.sig * b.sig) Nat.one_pos (a.exp + b.exp)

theorem rounded_add32 (a b : Flt) : Rounded 24 (-149) (a.val + b.val) (add32 a b) := by
  have h := rounded_f32 (a.add b).sig (den := 1) Nat.one_pos (a.add b).exp
  rw [Nat.cast_one, div_one] at h
  exact val_add a b ▸ h

theorem sig_ne_zero {a : Flt} (h : a.val ≠ 0) : a.sig ≠ 0 := by
  intro hs
  rw [Flt.val, hs, Int.cast_zero, zero_mul] at h
  exact h rfl

theorem rounded_div32 (a : Flt) {b : Flt} (hb : b.val ≠ 0) : Rounded 24 (-149) (a.val / b.val) (div32 a b) :=
  val_div_val a (sig_ne_zero hb) ▸ rounded_f32 _ (Int.natAbs_pos.mpr (sig_ne_zero hb)) (a.exp - b.exp)

/-- A binary32 number is a binary64 number, so `f64` of it is exact. -/
theorem val_f64OfFlt {a : Flt} (ha : IsBinary 24 (-149) a.val) : (f64OfFlt a).val = a.val := by
  have h := rounded_f64 a.sig (den := 1) Nat.one_pos a.exp
  rw [Nat.cast_one, div_one] at h
  exact h.exact (ha.mono (by decide) (by decide))

theorem div64_congr {a a' b : Flt} (hb : b.val ≠ 0) (h : a.val = a'.val) : div64 a b = div64 a' b :=
  have hpos := Int.natAbs_pos.mpr (sig_ne_zero hb)
  roundBinary_congr _ _ hpos hpos (by rw [val_div_val _ (sig_ne_zero hb), val_div_val _ (sig_ne_zero hb), h])

/-- The relative error of a rounding that is not below the normal numbers: at most half a unit in the last place. -/
theorem abs_sub_roundBinary_le {p : Nat} (emin : Int) {num : Int} {den : Nat} (e : Int) (hden : 0 < den)
    (hx : (2 : ℚ) ^ (emin + ((p : Int) - 1)) ≤ |(num : ℚ) / den * (2 : ℚ) ^ e|) :
    |(num : ℚ) / den * (2 : ℚ) ^ e - (roundBinary p emin num den e).val| ≤ |(num : ℚ) / den * (2 : ℚ) ^ e| / 2 ^ p := by
  have hnum : num ≠ 0 := by
    rintro rfl
    rw [Int.cast_zero, zero_div, zero_mul, abs_zero] at hx
    exact absurd hx (two_zpow_pos _).not_ge
  obtain ⟨σ, u, q, hσ, hxσ, hval, -, hround⟩ := roundBinary_signed p emin e hnum hden
  obtain ⟨t, ht⟩ : ∃ t, |(num : ℚ) / den * (2 : ℚ) ^ e| = t := ⟨_, rfl⟩
  have hu := two_zpow_pos u
  rw [ht] at hx hxσ hround
  have hσabs : |σ| = 1 := by obtain rfl | rfl := hσ <;> norm_num
  have hfull : (2 : ℚ) ^ ((p : Int) - 1) ≤ t / (2 : ℚ) ^ u := by
    obtain rfl | h := hround.full
    · rwa [le_div_iff₀ hu, ← zpow_add₀ two_ne_zero, add_comm]
    · exact h
  have hhalf : (2 : ℚ) ^ u / 2 ≤ t / 2 ^ p := by
    rw [le_div_iff₀ hu, zpow_sub_one₀ two_ne_zero, zpow_natCast] at hfull
    rw [le_div_iff₀ (by positivity)]
    linarith
  have herr : |t - q * (2 : ℚ) ^ u| = |(q : ℚ) - t / (2 : ℚ) ^ u| * (2 : ℚ) ^ u := by
    rw [abs_sub_comm, ← abs_of_pos hu, ← abs_mul, abs_of_pos hu, sub_mul, div_mul_cancel₀ _ hu.ne']
  rw [ht, hval, hxσ, ← mul_sub, abs_mul, hσabs, one_mul, herr]
  calc |(q : ℚ) - t / (2 : ℚ) ^ u| * (2 : ℚ) ^ u ≤ 1 / 2 * (2 : ℚ) ^ u := mul_le_mul_of_nonneg_right hround.near hu.le
    _ = (2 : ℚ) ^ u / 2 := by ring
    _ ≤ t / 2 ^ p := hhalf

theorem abs_sub_div64_le (a : Flt) {b : Flt} (hb : b.val ≠ 0) (hx : (2 : ℚ) ^ (-1022 : Int) ≤ |a.val / b.val|) :
    |a.val / b.val - (div64 a b).val| ≤ |a.val / b.val| / 2 ^ 53 := by
  have h := abs_sub_roundBinary_le (p := 53) (-1074) (num := a.sig * b.sig.sign) (a.exp - b.exp)
    (Int.natAbs_pos.mpr (sig_ne_zero hb))
  rw [val_div_val a (sig_ne_zero hb)] at h
  exact h hx

/-! ### Comparison and truncation -/

theorem lt_eq_true_iff (a b : Flt) : a.lt b = true ↔ a.val < b.val := by
  rw [← val_shift a (min_le_left a.exp b.exp), ← val_shift b (min_le_right a.exp b.exp),
    mul_lt_mul_iff_left₀ (two_zpow_pos _), Int.cast_lt]
  exact decide_eq_true_iff

theorem val_abs (a : Flt) : a.abs.val = |a.val| := by
  rw [Flt.val, Flt.val, abs_mul, abs_of_pos (two_zpow_pos _), Flt.abs]
  push_cast
  rfl

theorem val_max (a b : Flt) : (a.max b).val = max a.val b.val := by
  unfold Flt.max
  split_ifs with h
  · rw [max_eq_right ((lt_eq_true_iff a b).mp h).le]
  · rw [max_eq_left (not_lt.mp fun hlt => h ((lt_eq_true_iff a b).mpr hlt))]

/-- Integer division toward zero is the floor of a nonnegative quotient and the ceiling of a negative one. -/
theorem tdiv_eq_floor_or_ceil (n : Int) {d : Nat} (hd : 0 < d) :
    n.tdiv d = if 0 ≤ (n : ℚ) / d then ⌊(n : ℚ) / d⌋ else ⌈(n : ℚ) / d⌉ := by
  have hd' : (0 : ℚ) < d := by exact_mod_cast hd
  split_ifs with h
  · have hn : 0 ≤ n := by
      rw [le_div_iff₀ hd', zero_mul] at h
      exact_mod_cast h
    rw [Rat.floor_intCast_div_natCast, Int.tdiv_eq_ediv_of_nonneg hn]
  · have hn : n < 0 := by
      rw [not_le, div_lt_iff₀ hd', zero_mul] at h
      exact_mod_cast h
    have hneg : (n : ℚ) / d = -(((-n : Int) : ℚ) / d) := by push_cast; ring
    rw [hneg, Int.ceil_neg, Rat.floor_intCast_div_natCast, ← Int.tdiv_eq_ediv_of_nonneg (by omega), Int.neg_tdiv, neg_neg]

/-- Truncation rounds toward zero. -/
theorem trunc_eq (a : Flt) : a.trunc = if 0 ≤ a.val then ⌊a.val⌋ else ⌈a.val⌉ := by
  have hval : a.val = ((a.sig * 2 ^ a.exp.toNat : Int) : ℚ) / ((2 ^ (-a.exp).toNat : Nat) : ℚ) := by
    have h := scaled_div a.sig 1 a.exp
    rw [one_mul, div_one] at h
    push_cast
    exact h.symm
  rw [hval, ← tdiv_eq_floor_or_ceil _ (by positivity), Flt.trunc]
  push_cast
  rfl

theorem abs_trunc_le {a : Flt} {n : Int} (h : |a.val| < n + 1) : |a.trunc| ≤ n := by
  obtain ⟨hlo, hhi⟩ := abs_lt.mp h
  rw [trunc_eq, abs_le]
  split_ifs with h0
  · have hfloor : 0 ≤ ⌊a.val⌋ := Int.floor_nonneg.mpr h0
    have : ⌊a.val⌋ < n + 1 := Int.floor_lt.mpr (by exact_mod_cast hhi)
    omega
  · have hceil : ⌈a.val⌉ ≤ 0 := Int.ceil_le.mpr (by exact_mod_cast (not_le.mp h0).le)
    have : -(n + 1) < ⌈a.val⌉ := Int.lt_ceil.mpr (by push_cast; linarith)
    omega

theorem le_abs_trunc {a : Flt} {n : Int} (h : n ≤ |a.val|) : n ≤ |a.trunc| := by
  rw [trunc_eq, le_abs]
  split_ifs with h0
  · rw [abs_of_nonneg h0] at h
    exact .inl (Int.le_floor.mpr h)
  · rw [abs_of_neg (not_le.mp h0)] at h
    have : ⌈a.val⌉ ≤ -n := Int.ceil_le.mpr (by push_cast; linarith)
    exact .inr (by omega)

end Sys2Proof.Machine
end

section
/-! PROOFS. The statistics of a block and the power iteration (41_estimator.md R182 to R184): means, covariance and seed as sums
and extremes over the pixels, and bounds of the format that every intermediate value keeps. -/

namespace Sys2Proof.Machine

open Sys2Proof

/-! ### Statistics -/

@[simp] theorem get_channel (f : RGB → Byte) (blk : Tile RGB) (i : Fin 16) :
    (channel f blk).get i = chan (f (blk.get i)) := by
  simp [channel]

theorem channel_bounds (f : RGB → Byte) (blk : Tile RGB) (i : Fin 16) :
    0 ≤ (channel f blk).get i ∧ (channel f blk).get i ≤ 255 := by
  rw [get_channel]
  exact ⟨chan_nonneg _, chan_le _⟩

theorem tileMean_eq (t : Tile Int) : tileMean t = ((∑ i, t.get i) + 8) / 16 := by
  rw [tileMean, shiftRight_intFour, tileSum_eq_sum]

section
variable {t u : Tile Int} (ht : ∀ i, 0 ≤ t.get i ∧ t.get i ≤ 255) (hu : ∀ i, 0 ≤ u.get i ∧ u.get i ≤ 255)
include ht

theorem tileMean_bounds : 0 ≤ tileMean t ∧ tileMean t ≤ 255 := by
  have := sum_fin16_bounds ht
  rw [tileMean_eq]
  omega

theorem abs_deviation_le (i : Fin 16) : |(deviations t).get i| ≤ 255 := by
  have := tileMean_bounds ht
  have := ht i
  rw [deviations, Tile.get_map, abs_le]
  omega

include hu

/-- The sixteen products of a covariance are at most 255² each (41_estimator.md R183). -/
theorem abs_covariance_le : |covariance (deviations t) (deviations u)| ≤ 1040400 := by
  rw [covariance_eq_sum]
  refine (Finset.abs_sum_le_sum_abs _ _).trans ?_
  have hterm (i : Fin 16) : |(deviations t).get i * (deviations u).get i| ≤ 65025 := by
    rw [abs_mul]
    exact (mul_le_mul (abs_deviation_le ht i) (abs_deviation_le hu i) (abs_nonneg _) (by decide)).trans (by decide)
  simpa using Finset.sum_le_card_nsmul Finset.univ _ _ fun i _ => hterm i

end

/-- An integer below 2^24 is a binary32 number. -/
theorem val_f32OfInt {n : Int} (h : |n| < 2 ^ 24) : (f32OfInt n).val = n :=
  (rounded_f32OfInt n).exact (isBinary_ofInt h (by decide))

/-- The scaled covariance is at most 4080 = 1040400 / 255 (41_estimator.md R184). -/
theorem abs_scaledCov_le {c : Int} (h : |c| ≤ 1040400) : |(scaledCov c).val| ≤ 4080 := by
  have hc : (f32OfInt c).val = c := val_f32OfInt (h.trans_lt (by decide))
  have hd : (f32OfInt 255).val = 255 := val_f32OfInt (n := 255) (by decide)
  have hround := rounded_div32 (f32OfInt c) (b := f32OfInt 255) (by rw [hd]; norm_num)
  refine hround.abs_bound (by exact_mod_cast isBinary_ofInt (m := 4080) (by decide) (by decide)) ?_
  rw [hc, hd, abs_div, abs_of_pos (show (0 : ℚ) < 255 by norm_num), div_le_iff₀ (by norm_num)]
  have : |(c : ℚ)| ≤ 1040400 := by exact_mod_cast h
  linarith

/-- Every entry of a covariance is at most 4080 in magnitude. -/
structure Covariance.Bounded (m : Covariance) : Prop where
  c0 : |m.c0.val| ≤ 4080
  c1 : |m.c1.val| ≤ 4080
  c2 : |m.c2.val| ≤ 4080
  c3 : |m.c3.val| ≤ 4080
  c4 : |m.c4.val| ≤ 4080
  c5 : |m.c5.val| ≤ 4080

theorem blockCovariance_bounded (blk : Tile RGB) : (blockCovariance blk).Bounded := by
  have hr := channel_bounds RGB.r blk
  have hg := channel_bounds RGB.g blk
  have hb := channel_bounds RGB.b blk
  exact ⟨abs_scaledCov_le (abs_covariance_le hr hr), abs_scaledCov_le (abs_covariance_le hr hg),
    abs_scaledCov_le (abs_covariance_le hr hb), abs_scaledCov_le (abs_covariance_le hg hg),
    abs_scaledCov_le (abs_covariance_le hg hb), abs_scaledCov_le (abs_covariance_le hb hb)⟩

/-- Every component of a vector is at most `b` in magnitude. -/
structure FltVec.Bounded (v : FltVec) (b : ℚ) : Prop where
  r : |v.r.val| ≤ b
  g : |v.g.val| ≤ b
  b : |v.b.val| ≤ b

/-! ### Extremes of a channel -/

theorem tileMax_spec (t : Tile Int) : (∀ i, t.get i ≤ tileMax t) ∧ ∃ i, t.get i = tileMax t :=
  Tile.fold_extreme (R := fun a b : Int => a ≤ b) max_choice le_trans le_max_left le_max_right t

theorem tileMin_spec (t : Tile Int) : (∀ i, tileMin t ≤ t.get i) ∧ ∃ i, t.get i = tileMin t :=
  Tile.fold_extreme (R := fun a b : Int => b ≤ a) min_choice (fun h h' => le_trans h' h) min_le_left
    min_le_right t

theorem range_bounds {t : Tile Int} (ht : ∀ i, 0 ≤ t.get i ∧ t.get i ≤ 255) :
    0 ≤ tileMax t - tileMin t ∧ tileMax t - tileMin t ≤ 255 := by
  obtain ⟨hmax, i, hi⟩ := tileMax_spec t
  obtain ⟨hmin, j, hj⟩ := tileMin_spec t
  have := hmax j
  have := ht i
  have := ht j
  omega

theorem seedVector_bounded (blk : Tile RGB) : (seedVector blk).Bounded 255 := by
  have hrange (f : RGB → Byte) : |(f32OfInt (tileMax (channel f blk) - tileMin (channel f blk))).val| ≤ 255 := by
    obtain ⟨h0, h⟩ := range_bounds (channel_bounds f blk)
    rw [val_f32OfInt (by rw [abs_of_nonneg h0]; omega), abs_of_nonneg (by exact_mod_cast h0)]
    exact_mod_cast h
  exact ⟨hrange _, hrange _, hrange _⟩

/-! ### The power iteration -/

/-- The bound after `k` iterations as a significand and an exponent: 255 · 12240^k rounded up to 24 bits. -/
def vectorBound (k : Nat) : Nat × Nat :=
  [(255, 0), (195075, 4), (582939, 16), (13935887, 25), (650693, 43)].getD k (0, 0)

/-- The bound of a product in iteration `k + 1` as a significand and an exponent. -/
def productBound (k : Nat) : Nat × Nat :=
  [(65025, 4), (194313, 16), (9290591, 24), (6940725, 38)].getD k (0, 0)

/-- The number of a significand and an exponent. -/
def dyadic (b : Nat × Nat) : Nat := b.1 * 2 ^ b.2

theorem bounds_table : ∀ k < 4, dyadic (vectorBound k) * 4080 ≤ dyadic (productBound k) ∧
    3 * dyadic (productBound k) ≤ dyadic (vectorBound (k + 1)) ∧
    dyadic (vectorBound (k + 1)) < 255 * 12241 ^ (k + 1) ∧
    (productBound k).1 < 2 ^ 24 ∧ (vectorBound (k + 1)).1 < 2 ^ 24 := by
  decide

theorem isBinary_dyadic {b : Nat × Nat} (h : b.1 < 2 ^ 24) (j : Nat) :
    IsBinary 24 (-149) ((2 : ℚ) ^ j * dyadic b) := by
  refine ⟨b.1, b.2 + j, ?_, by omega, ?_⟩
  · rw [Nat.abs_cast]
    exact_mod_cast h
  · rw [zpow_add₀ two_ne_zero, zpow_natCast, zpow_natCast, dyadic]
    push_cast
    ring

/-- Products, partial sums and results of one row stay below the bounds of the format. -/
theorem powerRow_bounded {k : Nat} (hk : k < 4) {v : FltVec} (hv : v.Bounded (dyadic (vectorBound k))) {a b c : Flt}
    (ha : |a.val| ≤ 4080) (hb : |b.val| ≤ 4080) (hc : |c.val| ≤ 4080) :
    let p := mul32 v.r a
    let q := mul32 v.g b
    let w := mul32 v.b c
    ∀ x ∈ [p, q, w, add32 p q, add32 (add32 p q) w], |x.val| ≤ dyadic (vectorBound (k + 1)) := by
  intro p q w
  obtain ⟨hproduct, hsum, -, hfit, hfit'⟩ := bounds_table k hk
  have hproduct' : (dyadic (vectorBound k) : ℚ) * 4080 ≤ dyadic (productBound k) := by exact_mod_cast hproduct
  have hsum' : 3 * (dyadic (productBound k) : ℚ) ≤ dyadic (vectorBound (k + 1)) := by exact_mod_cast hsum
  have h0 : (0 : ℚ) ≤ dyadic (productBound k) := Nat.cast_nonneg _
  have product {x y : Flt} (hx : |x.val| ≤ dyadic (vectorBound k)) (hy : |y.val| ≤ 4080) :
      |(mul32 x y).val| ≤ dyadic (productBound k) := by
    refine (rounded_mul32 x y).abs_bound (by simpa using isBinary_dyadic hfit 0) ?_
    rw [abs_mul]
    exact (mul_le_mul hx hy (abs_nonneg _) (Nat.cast_nonneg _)).trans hproduct'
  have hp := product hv.r ha
  have hq := product hv.g hb
  have hw := product hv.b hc
  have hpq : |(add32 p q).val| ≤ 2 * dyadic (productBound k) := by
    refine (rounded_add32 p q).abs_bound (by simpa using isBinary_dyadic hfit 1) ((abs_add_le _ _).trans ?_)
    linarith
  have hpqw : |(add32 (add32 p q) w).val| ≤ dyadic (vectorBound (k + 1)) := by
    refine (rounded_add32 (add32 p q) w).abs_bound (by simpa using isBinary_dyadic hfit' 0) ((abs_add_le _ _).trans ?_)
    linarith
  simp only [List.forall_mem_cons]
  exact ⟨by linarith, by linarith, by linarith, by linarith, hpqw, by simp⟩

/-- The vector after `k` iterations. -/
def iterated (blk : Tile RGB) (k : Nat) : FltVec := (powerStep (blockCovariance blk))^[k] (seedVector blk)

theorem iterated_succ (blk : Tile RGB) (k : Nat) :
    iterated blk (k + 1) = powerStep (blockCovariance blk) (iterated blk k) := Function.iterate_succ_apply' _ _ _

theorem iterated_bounded (blk : Tile RGB) (k : Nat) (hk : k ≤ 4) : (iterated blk k).Bounded (dyadic (vectorBound k)) := by
  induction k with
  | zero => exact_mod_cast seedVector_bounded blk
  | succ k ih =>
    have hm := blockCovariance_bounded blk
    have hv := ih (by omega)
    have hrow {a b c : Flt} (ha : |a.val| ≤ 4080) (hb : |b.val| ≤ 4080) (hc : |c.val| ≤ 4080) :
        |(powerRow (iterated blk k) a b c).val| ≤ dyadic (vectorBound (k + 1)) :=
      powerRow_bounded (by omega) hv ha hb hc _ (by simp [powerRow])
    rw [iterated_succ]
    exact ⟨hrow hm.c0 hm.c1 hm.c2, hrow hm.c1 hm.c3 hm.c4, hrow hm.c2 hm.c4 hm.c5⟩

/-- Settles O27: each bound is a number of the format, so rounding keeps it. -/
theorem powerIterationStaysInRange : Obligations.PowerIterationStaysInRange := by
  intro blk value m v
  have hm := blockCovariance_bounded blk
  have below {k : Nat} (hk : k < 4) {x : ℚ} (hx : x ≤ dyadic (vectorBound (k + 1))) : x < 255 * 12241 ^ (k + 1) := by
    have h : (dyadic (vectorBound (k + 1)) : ℚ) < 255 * 12241 ^ (k + 1) := by
      exact_mod_cast (bounds_table k hk).2.2.1
    exact hx.trans_lt h
  refine ⟨rfl, ?_, ?_, fun k hk row hrow => ?_, fun k hk1 hk4 => ?_⟩
  · have widen {c : Flt} (h : |c.val| ≤ 4080) : |value c| ≤ 4080.1 := h.trans (by norm_num)
    simp only [List.forall_mem_cons]
    exact ⟨widen hm.c0, widen hm.c1, widen hm.c2, widen hm.c3, widen hm.c4, widen hm.c5, by simp⟩
  · have hseed := seedVector_bounded blk
    simp only [List.forall_mem_cons]
    exact ⟨hseed.r, hseed.g, hseed.b, by simp⟩
  · have hentries : |row.1.val| ≤ 4080 ∧ |row.2.1.val| ≤ 4080 ∧ |row.2.2.val| ≤ 4080 := by
      simp only [List.mem_cons, List.not_mem_nil, or_false] at hrow
      obtain rfl | rfl | rfl := hrow
      · exact ⟨hm.c0, hm.c1, hm.c2⟩
      · exact ⟨hm.c1, hm.c3, hm.c4⟩
      · exact ⟨hm.c2, hm.c4, hm.c5⟩
    obtain ⟨ha, hb, hc⟩ := hentries
    exact fun x hx => below hk (powerRow_bounded hk (iterated_bounded blk k (by omega)) ha hb hc x hx)
  · obtain ⟨j, rfl⟩ : ∃ j, k = j + 1 := ⟨k - 1, by omega⟩
    have hv := iterated_bounded blk (j + 1) hk4
    simp only [List.forall_mem_cons]
    exact ⟨below (by omega) hv.r, below (by omega) hv.g, below (by omega) hv.b, by simp⟩

end Sys2Proof.Machine
end

section
/-! PROOFS. The integer direction and the extreme pixels (41_estimator.md R182 to R189): every component in [-512, 512], the
greatest one 511 or 512, and the scan for the extremes. -/

namespace Sys2Proof.Machine

open Sys2Proof

/-! ### The magnitude -/

theorem IsBinary.abs {p : Nat} {emin : Int} {y : ℚ} (h : IsBinary p emin y) : IsBinary p emin |y| := by
  rcases abs_choice y with ha | ha
  · rwa [ha]
  · rw [ha]
    exact h.neg

theorem val_magnitude (v : FltVec) : (magnitude v).val = max (max |v.r.val| |v.g.val|) |v.b.val| := by
  rw [magnitude, val_max, val_max, val_abs, val_abs, val_abs]

/-- The components are binary32 numbers. -/
structure FltVec.IsBinary (v : FltVec) : Prop where
  r : Machine.IsBinary 24 (-149) v.r.val
  g : Machine.IsBinary 24 (-149) v.g.val
  b : Machine.IsBinary 24 (-149) v.b.val

theorem powerStep_isBinary (m : Covariance) (v : FltVec) : (powerStep m v).IsBinary :=
  ⟨(rounded_add32 _ _).isBinary, (rounded_add32 _ _).isBinary, (rounded_add32 _ _).isBinary⟩

section
variable {v : FltVec} (hv : v.IsBinary)
include hv

theorem isBinary_magnitude : IsBinary 24 (-149) (magnitude v).val := by
  rw [val_magnitude]
  rcases max_choice (max |v.r.val| |v.g.val|) |v.b.val| with h | h
  · rw [h]
    rcases max_choice |v.r.val| |v.g.val| with h | h
    · rw [h]
      exact hv.r.abs
    · rw [h]
      exact hv.g.abs
  · rw [h]
    exact hv.b.abs

/-! ### Rescaling -/

/-- The factor that takes the greatest component to 512. -/
def rescale (v : FltVec) : Flt := div64 (Flt.ofInt 512) (f64OfFlt (magnitude v))

variable (h4 : 4 ≤ (magnitude v).val) (hmax : (magnitude v).val < 2 ^ 63)
include h4 hmax

theorem magnitude_mul_rescale : 511 ≤ (magnitude v).val * (rescale v).val ∧
    (magnitude v).val * (rescale v).val ≤ 1025 / 2 := by
  have hval := val_f64OfFlt (isBinary_magnitude hv)
  have h512 : (Flt.ofInt 512).val = 512 := by norm_num [Flt.ofInt, Flt.val]
  have hpos : 0 < (magnitude v).val := by linarith
  have hquot : (0 : ℚ) < 512 / (magnitude v).val := by positivity
  have hnormal : (2 : ℚ) ^ (-1022 : Int) ≤ |512 / (magnitude v).val| := by
    rw [abs_of_pos hquot, le_div_iff₀ hpos]
    calc (2 : ℚ) ^ (-1022 : Int) * (magnitude v).val ≤ 2 ^ (-63 : Int) * 2 ^ 63 :=
          mul_le_mul (zpow_le_zpow_right₀ one_le_two (by decide)) hmax.le hpos.le (two_zpow_pos _).le
      _ ≤ 512 := by norm_num
  have herr := abs_sub_div64_le (Flt.ofInt 512) (b := f64OfFlt (magnitude v)) (by rw [hval]; exact hpos.ne')
    (by rw [hval, h512]; exact hnormal)
  rw [hval, h512, abs_of_pos hquot, abs_le] at herr
  have hmul : (magnitude v).val * (512 / (magnitude v).val) = 512 := mul_div_cancel₀ _ hpos.ne'
  have hlo := mul_le_mul_of_nonneg_left herr.1 hpos.le
  have hhi := mul_le_mul_of_nonneg_left herr.2 hpos.le
  rw [mul_neg, mul_div_assoc', mul_sub, hmul] at hlo
  rw [mul_div_assoc', mul_sub, hmul] at hhi
  unfold rescale
  constructor <;> linarith

/-- A component no greater than the magnitude is rescaled into [-512, 512], and the greatest to 511 or 512. -/
theorem abs_trunc_rescaled {x : Flt} (hx : IsBinary 24 (-149) x.val) (hle : |x.val| ≤ (magnitude v).val) :
    |(mul64 (f64OfFlt x) (rescale v)).trunc| ≤ 512 ∧
      (|x.val| = (magnitude v).val → 511 ≤ |(mul64 (f64OfFlt x) (rescale v)).trunc|) := by
  obtain ⟨hlo, hhi⟩ := magnitude_mul_rescale hv h4 hmax
  have hround := rounded_mul64 (f64OfFlt x) (rescale v)
  rw [val_f64OfFlt hx] at hround
  have hpos : 0 < (rescale v).val := by
    by_contra hn
    have := mul_nonpos_of_nonneg_of_nonpos (show 0 ≤ (magnitude v).val by linarith) (not_lt.mp hn)
    linarith
  have habs : |x.val * (rescale v).val| = |x.val| * (rescale v).val := by rw [abs_mul, abs_of_pos hpos]
  constructor
  · refine abs_trunc_le (n := 512) ?_
    have hbound : |(mul64 (f64OfFlt x) (rescale v)).val| ≤ 1025 / 2 := by
      refine hround.abs_bound ⟨1025, -1, by decide, by decide, by norm_num⟩ ?_
      rw [habs]
      exact (mul_le_mul_of_nonneg_right hle hpos.le).trans hhi
    push_cast
    linarith
  · intro heq
    refine le_abs_trunc (n := 511) (hround.le_abs (isBinary_ofInt (by decide) (by decide)) ?_)
    rw [habs, heq]
    exact_mod_cast hlo

end

/-- Below the threshold the direction is the fixed one (41_estimator.md R185). -/
theorem integerDirection_of_lt {v : FltVec} (h : (magnitude v).val < 4) : integerDirection v = fallbackDirection := by
  have h4 : (Flt.ofInt 4).val = 4 := by norm_num [Flt.ofInt, Flt.val]
  exact if_pos ((lt_eq_true_iff _ _).mpr (by rwa [h4]))

/-- Above it each component is rescaled and truncated. -/
theorem integerDirection_of_ge {v : FltVec} (h : 4 ≤ (magnitude v).val) : integerDirection v =
    ⟨(mul64 (f64OfFlt v.r) (rescale v)).trunc, (mul64 (f64OfFlt v.g) (rescale v)).trunc,
      (mul64 (f64OfFlt v.b) (rescale v)).trunc⟩ := by
  have h4 : (Flt.ofInt 4).val = 4 := by norm_num [Flt.ofInt, Flt.val]
  exact if_neg fun hlt => absurd ((lt_eq_true_iff _ _).mp hlt) (by rw [h4]; exact not_lt.mpr h)

/-! ### The direction of a block -/

theorem powerVector_isBinary (blk : Tile RGB) : (powerVector blk).IsBinary := powerStep_isBinary _ _

theorem abs_le_magnitude (v : FltVec) :
    |v.r.val| ≤ (magnitude v).val ∧ |v.g.val| ≤ (magnitude v).val ∧ |v.b.val| ≤ (magnitude v).val := by
  rw [val_magnitude]
  exact ⟨(le_max_left _ _).trans (le_max_left _ _), (le_max_right _ _).trans (le_max_left _ _), le_max_right _ _⟩

theorem magnitude_powerVector_lt (blk : Tile RGB) : (magnitude (powerVector blk)).val < 2 ^ 63 := by
  have hv : (powerVector blk).Bounded (dyadic (vectorBound 4)) := iterated_bounded blk 4 le_rfl
  have hbound : (dyadic (vectorBound 4) : ℚ) < 2 ^ 63 := by exact_mod_cast (by decide : dyadic (vectorBound 4) < 2 ^ 63)
  rw [val_magnitude]
  exact (max_le (max_le hv.r hv.g) hv.b).trans_lt hbound

/-- The greatest component becomes 511 or 512 in magnitude, and no component exceeds 512. -/
theorem abs_direction (blk : Tile RGB) (h4 : 4 ≤ (magnitude (powerVector blk)).val) {x : Flt}
    (hx : IsBinary 24 (-149) x.val) (hle : |x.val| ≤ (magnitude (powerVector blk)).val) :
    |(mul64 (f64OfFlt x) (rescale (powerVector blk))).trunc| ≤ 512 ∧
      (|x.val| = (magnitude (powerVector blk)).val →
        511 ≤ |(mul64 (f64OfFlt x) (rescale (powerVector blk))).trunc|) :=
  abs_trunc_rescaled (powerVector_isBinary blk) h4 (magnitude_powerVector_lt blk) hx hle

theorem direction_bounded (form : Numerics) (blk : Tile RGB) :
    |(direction form blk).r| ≤ 512 ∧ |(direction form blk).g| ≤ 512 ∧ |(direction form blk).b| ≤ 512 := by
  cases form with
  | uninterpreted =>
    have component (k : Fin 1025) : |(k.val : Int) - 512| ≤ 512 := by
      rw [abs_le]
      omega
    exact ⟨component _, component _, component _⟩
  | ref32 =>
    rw [direction]
    obtain ⟨hr, hg, hb⟩ := abs_le_magnitude (powerVector blk)
    have hbin := powerVector_isBinary blk
    rcases lt_or_ge (magnitude (powerVector blk)).val 4 with h | h
    · rw [integerDirection_of_lt h]
      decide
    · rw [integerDirection_of_ge h]
      exact ⟨(abs_direction blk h hbin.r hr).1, (abs_direction blk h hbin.g hg).1, (abs_direction blk h hbin.b hb).1⟩

/-! ### The extreme pixels -/

/-- `best` is the greatest of `f` over the pixels scanned, first reached at `arg`; before any pixel it is `start`. -/
structure FirstGreatest (f : Fin 16 → Int) (start : Int) (scanned : List (Fin 16)) (best : Int)
    (arg : Fin 16) : Prop where
  found : scanned = [] ∧ best = start ∨ arg ∈ scanned ∧ best = f arg
  le    : ∀ j ∈ scanned, f j ≤ best
  first : ∀ j ∈ scanned, j < arg → f j < best

/-- A strict comparison keeps the first of equal values (41_estimator.md R186). -/
theorem FirstGreatest.scan {f : Fin 16 → Int} {start best : Int} {scanned : List (Fin 16)} {arg i : Fin 16}
    (h : FirstGreatest f start scanned best arg) (hi : ∀ j ∈ scanned, j < i) (hstart : start < f i) :
    FirstGreatest f start (scanned ++ [i]) (if best < f i then f i else best) (if best < f i then i else arg) := by
  split_ifs with hlt
  · refine ⟨.inr ⟨by simp, rfl⟩, fun j hj => ?_, fun j hj hji => ?_⟩
    · obtain hj | rfl := by simpa using hj
      · exact (h.le j hj).trans hlt.le
      · exact le_rfl
    · obtain hj | rfl := by simpa using hj
      · exact (h.le j hj).trans_lt hlt
      · exact absurd hji (lt_irrefl _)
  · obtain ⟨harg, hbest⟩ := h.found.resolve_left fun hn => hlt (hn.2 ▸ hstart)
    refine ⟨.inr ⟨by simp [harg], hbest⟩, fun j hj => ?_, fun j hj hja => ?_⟩
    · obtain hj | rfl := by simpa using hj
      · exact h.le j hj
      · exact not_lt.mp hlt
    · obtain hj | rfl := by simpa using hj
      · exact h.first j hj hja
      · exact absurd (hi _ harg) hja.asymm

theorem scanPixel_max (x : Extremes) (i : Fin 16) (d : Int) :
    (scanPixel x (i, d)).maxd = (if x.maxd < d then d else x.maxd) ∧
      (scanPixel x (i, d)).maxp = (if x.maxd < d then i else x.maxp) := by
  unfold scanPixel
  dsimp only
  split_ifs <;> exact ⟨rfl, rfl⟩

/-- The search for the least projection is that for the greatest of the negated ones. -/
theorem scanPixel_min (x : Extremes) (i : Fin 16) (d : Int) :
    -(scanPixel x (i, d)).mind = (if -x.mind < -d then -d else -x.mind) ∧
      (scanPixel x (i, d)).minp = (if -x.mind < -d then i else x.minp) := by
  unfold scanPixel
  dsimp only
  simp only [neg_lt_neg_iff]
  split_ifs <;> exact ⟨rfl, rfl⟩

/-- The value the scan starts from, below every projection (41_estimator.md R186). -/
def scanStart : Int := -0x7FFFFFFF

theorem foldl_scanPixel {d : Fin 16 → Int} (hd : ∀ i, scanStart < d i ∧ scanStart < -d i) (l : List (Fin 16))
    (hl : l.Pairwise (· < ·)) :
    let x := (l.map fun i => (i, d i)).foldl scanPixel ⟨0x7FFFFFFF, -0x7FFFFFFF, 0, 0⟩
    FirstGreatest d scanStart l x.maxd x.maxp ∧ FirstGreatest (-d ·) scanStart l (-x.mind) x.minp := by
  induction l using List.reverseRecOn with
  | nil => exact ⟨⟨.inl ⟨rfl, rfl⟩, by simp, by simp⟩, ⟨.inl ⟨rfl, rfl⟩, by simp, by simp⟩⟩
  | append_singleton l i ih =>
    obtain ⟨hl, -, hi⟩ := List.pairwise_append.mp hl
    obtain ⟨hmax, hmin⟩ := ih hl
    have hlt : ∀ j ∈ l, j < i := fun j hj => hi j hj i (by simp)
    simp only [List.map_append, List.map_cons, List.map_nil, List.foldl_append, List.foldl_cons, List.foldl_nil]
    rw [(scanPixel_max _ _ _).1, (scanPixel_max _ _ _).2, (scanPixel_min _ _ _).1, (scanPixel_min _ _ _).2]
    exact ⟨hmax.scan hlt (hd i).1, hmin.scan hlt (hd i).2⟩

/-- The scan finds the first pixels of greatest and of least projection. -/
theorem extremes_spec {t : Tile Int} (ht : ∀ i, |t.get i| < 0x7FFFFFFF) :
    ((∀ j, t.get j ≤ t.get (extremes t).maxp) ∧ ∀ j < (extremes t).maxp, t.get j < t.get (extremes t).maxp) ∧
      (∀ j, t.get (extremes t).minp ≤ t.get j) ∧ ∀ j < (extremes t).minp, t.get (extremes t).minp < t.get j := by
  have hd : ∀ i, scanStart < t.get i ∧ scanStart < -t.get i := by
    intro i
    have := abs_lt.mp (ht i)
    unfold scanStart
    omega
  have hzip : Tile.indices.toList.zip t.toList = (List.finRange 16).map fun i => (i, t.get i) := rfl
  obtain ⟨hmax, hmin⟩ := foldl_scanPixel hd (List.finRange 16) (List.pairwise_lt_finRange 16)
  rw [← hzip] at hmax hmin
  have hmaxd := (hmax.found.resolve_left fun h => absurd h.1 (by decide)).2
  have hmind := (hmin.found.resolve_left fun h => absurd h.1 (by decide)).2
  refine ⟨⟨fun j => ?_, fun j hj => ?_⟩, fun j => ?_, fun j hj => ?_⟩
  · exact hmaxd ▸ hmax.le j (List.mem_finRange j)
  · exact hmaxd ▸ hmax.first j (List.mem_finRange j) hj
  · have h := hmin.le j (List.mem_finRange j)
    rw [hmind] at h
    exact neg_le_neg_iff.mp h
  · have h := hmin.first j (List.mem_finRange j) hj
    rw [hmind] at h
    exact neg_lt_neg_iff.mp h

theorem exec_estc (s : State) : exec .estc s =
    .next (s.putEndpoints (estimate s.cfg (s.pixels.map Pixel.rgb)).1
      (estimate s.cfg (s.pixels.map Pixel.rgb)).2).succeed :=
  rfl

/-- A projection on a direction is far from where the scan starts. -/
theorem abs_dot_lt (c : RGB) {v : Vec3} (hr : |v.r| ≤ 512) (hg : |v.g| ≤ 512) (hb : |v.b| ≤ 512) :
    |dot c v| < 0x7FFFFFFF := by
  have term (x : Byte) {y : Int} (hy : |y| ≤ 512) : |chan x * y| ≤ 255 * 512 := by
    rw [abs_mul, abs_of_nonneg (chan_nonneg x)]
    exact mul_le_mul (chan_le x) hy (abs_nonneg _) (by decide)
  have h1 := abs_le.mp (term c.r hr)
  have h2 := abs_le.mp (term c.g hg)
  have h3 := abs_le.mp (term c.b hb)
  rw [dot, abs_lt]
  omega

/-- Settles O29: the scan finds the first extremes, since every projection lies above where it starts. -/
theorem estcTakesTheExtremePixels : Obligations.EstcTakesTheExtremePixels := by
  intro s blk v d
  obtain ⟨hr, hg, hb⟩ := direction_bounded s.cfg.pcaNumerics blk
  have hget (i : Fin 16) : (projections blk v).get i = d i := by simp [projections, d]
  obtain ⟨⟨hmax, hfirst⟩, hmin, hlast⟩ := extremes_spec (t := projections blk v) fun i => by
    rw [hget]
    exact abs_dot_lt _ hr hg hb
  simp only [hget] at hmax hfirst hmin hlast
  exact ⟨_, _, _, hmax, hfirst, hmin, hlast, exec_estc s, rfl, ep0_epWord _ _, ep1_epWord _ _, rfl, rfl⟩

end Sys2Proof.Machine
end

section
/-! PROOFS. The direction written out from the pixels (41_estimator.md R182 to R185). -/

namespace Sys2Proof.Machine

open Sys2Proof

/-- The covariance from the pixels: the sum of products of deviations from the rounded means (41_estimator.md R183). -/
theorem covariance_deviations_eq_sum (t u : Tile Int) : covariance (deviations t) (deviations u) =
    ∑ i : Fin 16, (t.get i - tileMean t) * (u.get i - tileMean u) := by
  simp only [covariance_eq_sum, deviations, Tile.get_map]

theorem tileMax_eq_sup' (t : Tile Int) : tileMax t = Finset.univ.sup' ⟨0, Finset.mem_univ 0⟩ t.get := by
  obtain ⟨hle, i, hi⟩ := tileMax_spec t
  exact le_antisymm (hi ▸ Finset.le_sup' t.get (Finset.mem_univ i)) (Finset.sup'_le _ _ fun j _ => hle j)

theorem tileMin_eq_inf' (t : Tile Int) : tileMin t = Finset.univ.inf' ⟨0, Finset.mem_univ 0⟩ t.get := by
  obtain ⟨hge, i, hi⟩ := tileMin_spec t
  exact le_antisymm (Finset.le_inf' _ _ fun j _ => hge j) (hi ▸ Finset.inf'_le t.get (Finset.mem_univ i))

theorem covariance_comm (d e : Tile Int) : covariance d e = covariance e d := by
  simp only [covariance_eq_sum, mul_comm]

/-- The scaled covariance of two channels. -/
def channelCov (blk : Tile RGB) (c e : RGB → Byte) : Flt :=
  scaledCov (covariance (deviations (channel c blk)) (deviations (channel e blk)))

theorem channelCov_comm (blk : Tile RGB) (c e : RGB → Byte) : channelCov blk c e = channelCov blk e c := by
  rw [channelCov, covariance_comm, channelCov]

/-- One component of an iteration, with the channel first in every factor. -/
def channelRow (blk : Tile RGB) (w : FltVec) (c : RGB → Byte) : Flt :=
  add32 (add32 (mul32 w.r (channelCov blk RGB.r c)) (mul32 w.g (channelCov blk RGB.g c)))
    (mul32 w.b (channelCov blk RGB.b c))

/-- An iteration row by row; the matrix is symmetric (41_estimator.md R184). -/
theorem powerStep_blockCovariance (blk : Tile RGB) (w : FltVec) : powerStep (blockCovariance blk) w =
    ⟨channelRow blk w RGB.r, channelRow blk w RGB.g, channelRow blk w RGB.b⟩ := by
  have hgr := channelCov_comm blk RGB.g RGB.r
  have hbr := channelCov_comm blk RGB.b RGB.r
  have hbg := channelCov_comm blk RGB.b RGB.g
  unfold channelRow
  rw [hgr, hbr, hbg]
  rfl

/-- Some component is the greatest. -/
theorem exists_eq_magnitude (v : FltVec) : |v.r.val| = (magnitude v).val ∨ |v.g.val| = (magnitude v).val ∨
    |v.b.val| = (magnitude v).val := by
  rw [val_magnitude]
  rcases max_choice (max |v.r.val| |v.g.val|) |v.b.val| with h | h
  · rw [h]
    rcases max_choice |v.r.val| |v.g.val| with h | h
    · exact .inl h.symm
    · exact .inr (.inl h.symm)
  · exact .inr (.inr h.symm)

/-- The factor with its 512 rounded to binary64, as the obligation writes it. -/
theorem rescale_eq {v : FltVec} (hv : v.IsBinary) (h4 : 4 ≤ (magnitude v).val) :
    div64 (f64 512 1 0) (f64OfFlt (magnitude v)) = rescale v := by
  have hval := val_f64OfFlt (isBinary_magnitude hv)
  have h512 : (f64 512 1 0).val = (Flt.ofInt 512).val := val_f64OfFlt (a := Flt.ofInt 512)
    (by simpa [Flt.ofInt, Flt.val] using isBinary_ofInt (p := 24) (emin := -149) (m := 512) (by decide) (by decide))
  exact div64_congr (by rw [hval]; linarith) h512

theorem eq_511_or_512 {n : Int} (hlo : 511 ≤ n) (hhi : n ≤ 512) : n = 511 ∨ n = 512 := by
  omega

/-- Truncation as the obligation writes it. -/
def truncated (q : ℚ) : Int := if 0 ≤ q then ⌊q⌋ else ⌈q⌉

/-- A component rescaled, before it is truncated, with the 512 rounded to binary64. -/
def scaledVal (w : FltVec) (y : Flt) : ℚ :=
  (mul64 (f64OfFlt y) (div64 (f64 512 1 0) (f64OfFlt (magnitude w)))).val

/-- The direction of the iterated vector: below the threshold the fallback, and only there; above it the rescaled and
truncated components, the greatest 511 or 512. -/
theorem direction_spec (blk : Tile RGB) {w : FltVec} (hw : powerVector blk = w) :
    ((magnitude w).val < 4 ↔ direction .ref32 blk = ⟨148, 300, 58⟩) ∧
    (4 ≤ (magnitude w).val →
      direction .ref32 blk = ⟨truncated (scaledVal w w.r), truncated (scaledVal w w.g), truncated (scaledVal w w.b)⟩ ∧
      (|w.r.val| = (magnitude w).val → |(direction .ref32 blk).r| = 511 ∨ |(direction .ref32 blk).r| = 512) ∧
      (|w.g.val| = (magnitude w).val → |(direction .ref32 blk).g| = 511 ∨ |(direction .ref32 blk).g| = 512) ∧
      (|w.b.val| = (magnitude w).val → |(direction .ref32 blk).b| = 511 ∨ |(direction .ref32 blk).b| = 512)) := by
  have hdirection : direction .ref32 blk = integerDirection w := congrArg integerDirection hw
  have hbin : w.IsBinary := hw ▸ powerVector_isBinary blk
  have hmax : (magnitude w).val < 2 ^ 63 := hw ▸ magnitude_powerVector_lt blk
  obtain ⟨hr, hg, hb⟩ := abs_le_magnitude w
  rw [hdirection]
  have above (h4 : 4 ≤ (magnitude w).val) :
      (|w.r.val| = (magnitude w).val → |(integerDirection w).r| = 511 ∨ |(integerDirection w).r| = 512) ∧
      (|w.g.val| = (magnitude w).val → |(integerDirection w).g| = 511 ∨ |(integerDirection w).g| = 512) ∧
      (|w.b.val| = (magnitude w).val → |(integerDirection w).b| = 511 ∨ |(integerDirection w).b| = 512) := by
    obtain ⟨hr512, hr511⟩ := abs_trunc_rescaled hbin h4 hmax hbin.r hr
    obtain ⟨hg512, hg511⟩ := abs_trunc_rescaled hbin h4 hmax hbin.g hg
    obtain ⟨hb512, hb511⟩ := abs_trunc_rescaled hbin h4 hmax hbin.b hb
    rw [integerDirection_of_ge h4]
    exact ⟨fun h => eq_511_or_512 (hr511 h) hr512, fun h => eq_511_or_512 (hg511 h) hg512,
      fun h => eq_511_or_512 (hb511 h) hb512⟩
  refine ⟨⟨integerDirection_of_lt, fun hfallback => ?_⟩, fun h4 => ⟨?_, above h4⟩⟩
  · by_contra hn
    obtain ⟨hr', hg', hb'⟩ := above (not_lt.mp hn)
    rw [hfallback] at hr' hg' hb'
    rcases exists_eq_magnitude w with h | h | h
    · exact absurd (hr' h) (by decide)
    · exact absurd (hg' h) (by decide)
    · exact absurd (hb' h) (by decide)
  · rw [integerDirection_of_ge h4, trunc_eq, trunc_eq, trunc_eq, scaledVal, scaledVal, scaledVal, rescale_eq hbin h4]
    rfl

/-- Settles O28: the model's statistics are the sums and extremes written out, and the direction is that of the iterated
vector. -/
theorem directionComponentsAreBounded : Obligations.DirectionComponentsAreBounded := by
  refine ⟨direction_bounded, fun blk => ?_⟩
  intro x mu cov covf range seed row next v value M scaled truncated d
  have hget (c : RGB → Byte) : (channel c blk).get = x c := funext fun i => get_channel c blk i
  have hmu (c : RGB → Byte) : tileMean (channel c blk) = mu c := by
    rw [tileMean_eq, hget]
  have hcov (c e : RGB → Byte) : covariance (deviations (channel c blk)) (deviations (channel e blk)) = cov c e := by
    rw [covariance_deviations_eq_sum, hmu, hmu, hget, hget]
  have hcovf (c e : RGB → Byte) : channelCov blk c e = covf c e := by
    rw [channelCov, hcov]
    rfl
  have hrange (c : RGB → Byte) : tileMax (channel c blk) - tileMin (channel c blk) = range c := by
    rw [tileMax_eq_sup', tileMin_eq_inf', hget]
  have hseed : seedVector blk = seed := by
    simp only [seedVector, hrange]
    rfl
  have hnext (w : FltVec) : powerStep (blockCovariance blk) w = next w := by
    rw [powerStep_blockCovariance]
    simp only [channelRow, hcovf]
    rfl
  have hv : powerVector blk = v := by
    simp only [powerVector, hseed, hnext]
    rfl
  have hbounds (c e : RGB → Byte) : |cov c e| ≤ 1040400 ∧ value (f32 (cov c e) 1 0) = cov c e := by
    have hle := abs_covariance_le (channel_bounds c blk) (channel_bounds e blk)
    rw [hcov] at hle
    exact ⟨hle, val_f32OfInt (hle.trans_lt (by decide))⟩
  have hmean (c : RGB → Byte) : 0 ≤ mu c ∧ mu c ≤ 255 := hmu c ▸ tileMean_bounds (channel_bounds c blk)
  have hmatrix : blockCovariance blk = ⟨covf RGB.r RGB.r, covf RGB.r RGB.g, covf RGB.r RGB.b, covf RGB.g RGB.g,
      covf RGB.g RGB.b, covf RGB.b RGB.b⟩ := by
    simp only [← hcovf]
    rfl
  obtain ⟨hfallback, habove⟩ := direction_spec blk hv
  exact ⟨fun c _ => ⟨(hmean c).1, (hmean c).2, fun e _ => hbounds c e⟩, hmatrix, hseed, hv, val_magnitude v, hfallback,
    habove⟩

end Sys2Proof.Machine
end

section
/-! PROOFS. The solved endpoints (43_refine.md R243, R244): each field is a clamped truncation, and 0 where the numerator is 0
or less. -/

namespace Sys2Proof.Machine

open Sys2Proof

/-! ### One field -/

theorem solveField_bounds (n : Int) (f : Flt) {hi : Int} (h : 0 ≤ hi) : 0 ≤ solveField n f hi ∧ solveField n f hi ≤ hi :=
  ⟨le_min (le_max_right _ _) h, min_le_right _ _⟩

theorem toNat_solveField {w : Nat} (n : Int) (f : Flt) {hi : Int} (h0 : 0 ≤ hi) (hw : hi < 2 ^ w) :
    ((BitVec.ofInt w (solveField n f hi)).toNat : Int) = solveField n f hi :=
  toNat_ofInt_of_lt (solveField_bounds n f h0).1 ((solveField_bounds n f h0).2.trans_lt hw)

theorem trunc_nonpos {a : Flt} (h : a.val < 1) : a.trunc ≤ 0 := by
  rw [trunc_eq]
  split_ifs with h0
  · have : ⌊a.val⌋ < 1 := Int.floor_lt.mpr (by exact_mod_cast h)
    omega
  · exact Int.ceil_le.mpr (by exact_mod_cast (not_le.mp h0).le)

/-- Rounding keeps the sign, so a numerator of 0 or less gives at most one half, which truncates to 0. -/
theorem solveField_of_nonpos {n : Int} {f : Flt} {hi : Int} (hn : n ≤ 0) (hf : 0 ≤ f.val) (hhi : 0 ≤ hi) :
    solveField n f hi = 0 := by
  have hzero : IsBinary 24 (-149) 0 := isBinary_zero _ _
  have hn32 : (f32OfInt n).val ≤ 0 := (rounded_f32OfInt n).le hzero (by exact_mod_cast hn)
  have hproduct : (mul32 (f32OfInt n) f).val ≤ 0 :=
    (rounded_mul32 _ f).le hzero (mul_nonpos_of_nonpos_of_nonneg hn32 hf)
  have hhalf : half32.val = 1 / 2 := by norm_num [half32, Flt.val]
  have hsum : (add32 (mul32 (f32OfInt n) f) half32).val ≤ 1 / 2 :=
    (rounded_add32 _ _).le ⟨1, -1, by decide, by decide, by norm_num⟩ (by rw [hhalf]; linarith)
  have htrunc := trunc_nonpos (a := add32 (mul32 (f32OfInt n) f) half32) (by linarith)
  rw [solveField, max_eq_right htrunc, min_eq_left hhi]

/-! ### The scale factors -/

theorem val_div32_nonneg {a b : Flt} (ha : 0 ≤ a.val) (hb : 0 < b.val) : 0 ≤ (div32 a b).val :=
  (rounded_div32 a hb.ne').ge (isBinary_zero _ _) (div_nonneg ha hb.le)

theorem val_f32OfInt_pos {n : Int} (h0 : 0 < n) (h : n < 2 ^ 24) : 0 < (f32OfInt n).val := by
  rw [val_f32OfInt (by rwa [abs_of_pos h0])]
  exact_mod_cast h0

section
variable {det : Int} (h0 : 0 < det) (h : det < 2 ^ 24)
include h0 h

theorem val_scaleRb_nonneg : 0 ≤ (scaleRb det).val :=
  val_div32_nonneg (val_div32_nonneg (val_f32OfInt_pos (by decide) (by decide)).le
    (val_f32OfInt_pos (by decide) (by decide))) (val_f32OfInt_pos h0 h)

theorem val_scaleG_nonneg : 0 ≤ (scaleG det).val := by
  have hproduct : 0 ≤ (mul32 (scaleRb det) (f32OfInt 63)).val := (rounded_mul32 _ _).ge (isBinary_zero _ _)
    (mul_nonneg (val_scaleRb_nonneg h0 h) (val_f32OfInt_pos (by decide) (by decide)).le)
  exact val_div32_nonneg hproduct (val_f32OfInt_pos (by decide) (by decide))

end

theorem det_pos_of_nondegenerate {mask : Word} (h : (normalTerms mask).degenerate = false) :
    0 < (normalTerms mask).det :=
  lt_of_le_of_ne (det_nonneg mask) fun hz =>
    Bool.false_ne_true (h.symm.trans ((degenerate_iff_det_eq_zero mask).mpr hz.symm))

/-! ### The solved pair -/

/-- The fields of a solved endpoint. -/
theorem solvedEndpoint_fields (det nr ng nb : Int) :
    let e := solvedEndpoint det nr ng nb
    ((red5 e).toNat : Int) = solveField nr (scaleRb det) 31 ∧ ((green6 e).toNat : Int) = solveField ng (scaleG det) 63 ∧
      ((blue5 e).toNat : Int) = solveField nb (scaleRb det) 31 := by
  intro e
  simp only [e, solvedEndpoint, red5_rgb565, green6_rgb565, blue5_rgb565]
  exact ⟨toNat_solveField _ _ (by decide) (by decide), toNat_solveField _ _ (by decide) (by decide),
    toNat_solveField _ _ (by decide) (by decide)⟩

/-- A field that is the number 0 is the field 0. -/
theorem field_eq_zero {w : Nat} {v : BitVec w} {n : Int} (hv : (v.toNat : Int) = n) (hn : n = 0) : v = 0#w :=
  BitVec.eq_of_toNat_eq (by rw [BitVec.toNat_zero]; omega)

/-- Settles O41: the six fields are those of the two solved endpoints, whose scale factors are not negative. -/
theorem solvedFieldsAreClamped : Obligations.SolvedFieldsAreClamped := by
  intro blk mask hdeg n at1 at2 nmax nmin field frb fg e
  have hpos := det_pos_of_nondegenerate hdeg
  have hlt : (normalTerms mask).det < 2 ^ 24 := (det_le mask).trans_lt (by decide)
  have hrb := val_scaleRb_nonneg hpos hlt
  have hg := val_scaleG_nonneg hpos hlt
  obtain ⟨hr1, hg1, hb1⟩ := solvedEndpoint_fields n.det (nmax RGB.r) (nmax RGB.g) (nmax RGB.b)
  obtain ⟨hr2, hg2, hb2⟩ := solvedEndpoint_fields n.det (nmin RGB.r) (nmin RGB.g) (nmin RGB.b)
  exact ⟨hr1, hg1, hb1, hr2, hg2, hb2,
    fun h => field_eq_zero hr1 (solveField_of_nonpos h hrb (by decide)),
    fun h => field_eq_zero hg1 (solveField_of_nonpos h hg (by decide)),
    fun h => field_eq_zero hb1 (solveField_of_nonpos h hrb (by decide)),
    fun h => field_eq_zero hr2 (solveField_of_nonpos h hrb (by decide)),
    fun h => field_eq_zero hg2 (solveField_of_nonpos h hg (by decide)),
    fun h => field_eq_zero hb2 (solveField_of_nonpos h hrb (by decide))⟩

end Sys2Proof.Machine
end
